-- ==== Sys2Proof/Word.lean ====
section
/-! DEFINITION. The words of the block: port words, wire bytes, and the numbers that stand for names, handlers and
arguments (00_scope R7, R8; 30_encoding R46, R49). Every quantity is unsigned (41_event_command R104). -/

namespace Sys2Proof

/-- One word of a request or response frame (30_encoding R51, R66). -/
abbrev Word := BitVec 32

/-- A wire byte, and the 8-bit numbers `low`, `high` and `RAW` (00_scope R7). -/
abbrev Byte := BitVec 8

/-- A mask word: eight wildcard flags above eight value bits (30_encoding R46). -/
abbrev MaskWord := BitVec 16

/-- An event name id or a command name id; the two are separate name spaces (30_encoding R49). -/
abbrev NameId := BitVec 8

/-- A handler token, stored and handed back without being interpreted (30_encoding R49). -/
abbrev Token := BitVec 16

/-- One argument of format A (30_encoding R59). -/
abbrev Arg := BitVec 16

end Sys2Proof
end

