-- ==== Sys2Proof/Config.lean ====
section
/-! DEFINITION. The two parameters the spec leaves open (00_scope R8): the capacities of the two catalogs. -/

namespace Sys2Proof

/-- `N_EV` and `N_CMD`, each 0 to 255 (00_scope R8: OPEN, "argument of the model"). The state carries them, no step
changes them, and a statement about every state is a statement about every pair of capacities (assumption log 1). -/
structure Params where
  nEv : BitVec 8
  nCmd : BitVec 8
  deriving DecidableEq, Repr

/-- The capacities 00_scope R8 suggests, 32 and 32. DESIGN CHOICE, unsafe where a statement rests on it
(assumption log 1). -/
def Params.suggested : Params := { nEv := 32, nCmd := 32 }

end Sys2Proof
end

