-- ==== Sys2Proof/Syntax.lean ====
section
/-! DEFINITION. The instructions: one constructor per row of spec/opcode_table.json, the operands as the frames of
30_encoding R53 to R59 give them, and what the host can present at the block's input ports (30_encoding R50). -/

namespace Sys2Proof

/-- The decode transforms an event entry can select (42_codecs R106). The reserved codes 3 to 15 have no constructor:
they are refused at load (30_encoding R64). -/
inductive EventXf where
  | identity
  | boolean
  | temperature
  deriving DecidableEq, Repr

/-- The encode transforms a command entry can select (42_codecs R107). -/
inductive CommandXf where
  | identity
  | services
  | rgb
  deriving DecidableEq, Repr

/-- One entry word of a LOAD_EVENTS request (30_encoding R56). -/
structure EventSpec where
  name : NameId
  xf : EventXf
  mask : MaskWord
  deriving DecidableEq, Repr

/-- One entry word of a LOAD_COMMANDS request (30_encoding R56). -/
structure CommandSpec where
  name : NameId
  xf : CommandXf
  mask : MaskWord
  deriving DecidableEq, Repr

/-- The instructions. The first fifteen are the operations of 30_encoding R52; the last eight are the wire bytes of the
default catalog that the opcode table lists, whose meaning it gives as DECODE's and ENCODE_SEND's (assumption log 3
and 4). -/
inductive Instr where
  | patConstruct (mask : MaskWord)
  | patMatch (mask : MaskWord) (byte : Byte)
  | patSubset (maskA maskB : MaskWord)
  | checkOverlap (masks : List MaskWord)
  | extract (mask : MaskWord) (byte : Byte)
  | translate (mask : MaskWord) (value : BitVec 32)
  | loadEvents (entries : List EventSpec)
  | loadCommands (entries : List CommandSpec)
  | setHandler (name : NameId) (token : Token)
  | setDefaultHandler (token : Token)
  | decode (byte : Byte)
  | encodeSend (name : NameId) (args : List Arg)
  | encServices (args : List Arg)
  | encRgb (args : List Arg)
  | decTemp (raw : Byte)
  | wireEventLight (payload : BitVec 6)
  | wireEventKnob (payload : BitVec 6)
  | wireEventTemperature (payload : BitVec 6)
  | wireCommandServo (payload : BitVec 5)
  | wireCommandLed (payload : BitVec 1)
  | wireCommandRgb (payload : BitVec 6)
  | wireCommandSubscribe (payload : BitVec 6)
  | wireCommandQuery (payload : BitVec 6)
  deriving DecidableEq, Repr

/-- The assigned values of the header field `OP` (30_encoding R52). -/
inductive Opcode where
  | patConstruct
  | patMatch
  | patSubset
  | checkOverlap
  | extract
  | translate
  | loadEvents
  | loadCommands
  | setHandler
  | setDefaultHandler
  | decode
  | encodeSend
  | encServices
  | encRgb
  | decTemp
  deriving DecidableEq, Repr

/-- The causes of `IllegalRequest` (30_encoding R70). -/
inductive IllegalCause where
  | reservedOpcode
  | reservedBit
  | overCapacity
  | reservedTransform
  | repeatedName
  | frameLength
  deriving DecidableEq, Repr

/-- What the host can present to the block. `frame` is a request frame on REQ and `rst` an event on RST (30_encoding
R50). `rx` and `tx` are the model's own (assumption log 3 and 4): one wire byte, of the direction device to host or host
to device, through which the table's wire rows come to run. -/
inductive Input where
  | frame (words : List Word)
  | rst
  | rx (byte : Byte)
  | tx (byte : Byte)
  deriving DecidableEq, Repr

end Sys2Proof
end

