-- ==== Sys2Proof/WellFormed.lean ====
section
/-! DEFINITION. Which instructions a request frame can spell, given the capacities: the structural limits of
30_encoding R60, R61 and R70 that the types of Syntax.lean do not already carry. -/

namespace Sys2Proof

/-- `i` has a request frame (or a wire byte) that passes every structural check: at most the capacity's number of
entries (30_encoding R70 cause 3; CHECK_OVERLAP has the larger of the two), no repeated name in LOAD_COMMANDS (cause 5),
and an argument count that fits `ARGC` (R59). -/
def Instr.wellFormed (cfg : Params) : Instr → Bool
  | .checkOverlap masks => decide (masks.length ≤ max cfg.nEv.toNat cfg.nCmd.toNat)
  | .loadEvents entries => decide (entries.length ≤ cfg.nEv.toNat)
  | .loadCommands entries =>
    decide (entries.length ≤ cfg.nCmd.toNat) && decide ((entries.map CommandSpec.name).Nodup)
  | .encodeSend _ args => decide (args.length ≤ 255)
  | .encServices args => decide (args.length ≤ 255)
  | .encRgb args => decide (args.length ≤ 255)
  | .patConstruct _ => true
  | .patMatch _ _ => true
  | .patSubset _ _ => true
  | .extract _ _ => true
  | .translate _ _ => true
  | .setHandler _ _ => true
  | .setDefaultHandler _ => true
  | .decode _ => true
  | .decTemp _ => true
  | .wireEventLight _ => true
  | .wireEventKnob _ => true
  | .wireEventTemperature _ => true
  | .wireCommandServo _ => true
  | .wireCommandLed _ => true
  | .wireCommandRgb _ => true
  | .wireCommandSubscribe _ => true
  | .wireCommandQuery _ => true

end Sys2Proof
end

