-- ==== Sys2Proof/Decode.lean ====
section
/-! DEFINITION. From frames and wire bytes to instructions and back (30_encoding R51 to R64, R70). Decoding is total: a
frame is one operation or `IllegalRequest` with one cause, the checks in the order of R61. The encoder is written from
the same formats. -/

namespace Sys2Proof

/-! ### Fields -/

/-- The `len` bits of a port word from bit `lo` up (30_encoding R51: bit 31 is the most significant). -/
def bitsAt (w : Word) (lo len : Nat) : BitVec len := w.extractLsb' lo len

/-- The header field `OP`, bits 31:28 (30_encoding R51). -/
def opField (h : Word) : BitVec 4 := bitsAt h 28 4

/-- Bits 23:16: `BYTE`, `COUNT` or `NAME` of a header, by format (30_encoding R53 to R59). -/
def midField (h : Word) : BitVec 8 := bitsAt h 16 8

/-- Bits 15:0: `MASK`, `TOKEN` or `ARG` (30_encoding R53 to R59). -/
def lowHalf (w : Word) : BitVec 16 := bitsAt w 0 16

/-- Bits 31:16, reserved in the later words of PAT_SUBSET, CHECK_OVERLAP and format A (30_encoding R54, R56, R59). -/
def highHalf (w : Word) : BitVec 16 := bitsAt w 16 16

/-! ### Opcodes -/

/-- The number of an operation (30_encoding R52). -/
def Opcode.code : Opcode → BitVec 4
  | .patConstruct => 0x1
  | .patMatch => 0x2
  | .patSubset => 0x3
  | .checkOverlap => 0x4
  | .extract => 0x5
  | .translate => 0x6
  | .loadEvents => 0x7
  | .loadCommands => 0x8
  | .setHandler => 0x9
  | .setDefaultHandler => 0xA
  | .decode => 0xB
  | .encodeSend => 0xC
  | .encServices => 0xD
  | .encRgb => 0xE
  | .decTemp => 0xF

/-- Every operation, in the order of its number (30_encoding R52). -/
def allOpcodes : List Opcode :=
  [.patConstruct, .patMatch, .patSubset, .checkOverlap, .extract, .translate, .loadEvents, .loadCommands, .setHandler,
    .setDefaultHandler, .decode, .encodeSend, .encServices, .encRgb, .decTemp]

/-- The operation that a value of `OP` names; `OP = 0` names none (30_encoding R52, R62). -/
def opcodeOf (c : BitVec 4) : Option Opcode := allOpcodes.find? fun op => op.code == c

/-- The must-be-0 bits of an operation's header: the nibble `Z` and the reserved fields of its format in word 0
(30_encoding R51, R53 to R59, R63). -/
def Opcode.reservedHeaderBits : Opcode → Word
  | .patConstruct => 0x0FFF0000
  | .patMatch => 0x0F000000
  | .patSubset => 0x0FFF0000
  | .checkOverlap => 0x0F00FFFF
  | .extract => 0x0F000000
  | .translate => 0x0FFF0000
  | .loadEvents => 0x0F00FFFF
  | .loadCommands => 0x0F00FFFF
  | .setHandler => 0x0F000000
  | .setDefaultHandler => 0x0FFF0000
  | .decode => 0x0F00FFFF
  | .encodeSend => 0x0F00FF00
  | .encServices => 0x0FFFFF00
  | .encRgb => 0x0FFFFF00
  | .decTemp => 0x0F00FFFF

/-- How many words follow the header `h` of an operation (30_encoding R60). -/
def Opcode.laterWords (op : Opcode) (h : Word) : Nat :=
  match op with
  | .patSubset | .translate => 1
  | .checkOverlap | .loadEvents | .loadCommands => (midField h).toNat
  | .encodeSend | .encServices | .encRgb => (bitsAt h 0 8).toNat
  | .patConstruct | .patMatch | .extract | .setHandler | .setDefaultHandler | .decode | .decTemp => 0

/-! ### Transform selectors and list operands -/

/-- The code of a decode transform (42_codecs R106). -/
def EventXf.code : EventXf → BitVec 4
  | .identity => 0
  | .boolean => 1
  | .temperature => 2

/-- The decode transform of a code; 3 to 15 are reserved (30_encoding R64, 42_codecs R106). -/
def eventXfOf (c : BitVec 4) : Option EventXf :=
  if c = 0 then some .identity else if c = 1 then some .boolean else if c = 2 then some .temperature else none

/-- The code of an encode transform (42_codecs R107). -/
def CommandXf.code : CommandXf → BitVec 4
  | .identity => 0
  | .services => 1
  | .rgb => 2

/-- The encode transform of a code; 3 to 15 are reserved (30_encoding R64, 42_codecs R107). -/
def commandXfOf (c : BitVec 4) : Option CommandXf :=
  if c = 0 then some .identity else if c = 1 then some .services else if c = 2 then some .rgb else none

/-- The entries of a LOAD_EVENTS frame; `none` where a selector is reserved (30_encoding R56, R61 step 7). -/
def eventSpecs : List Word → Option (List EventSpec)
  | [] => some []
  | w :: ws =>
    match eventXfOf (bitsAt w 20 4), eventSpecs ws with
    | some xf, some es => some ({ name := bitsAt w 24 8, xf := xf, mask := lowHalf w } :: es)
    | _, _ => none

/-- The entries of a LOAD_COMMANDS frame; `none` where a selector is reserved (30_encoding R56, R61 step 7). -/
def commandSpecs : List Word → Option (List CommandSpec)
  | [] => some []
  | w :: ws =>
    match commandXfOf (bitsAt w 20 4), commandSpecs ws with
    | some xf, some cs => some ({ name := bitsAt w 24 8, xf := xf, mask := lowHalf w } :: cs)
    | _, _ => none

/-- Some word has a 1 in bits 31:16 (30_encoding R61 step 6). -/
def anyHighHalf (ws : List Word) : Bool := ws.any fun w => highHalf w != 0

/-- Some catalog entry word has a 1 in bits 19:16 (30_encoding R56, R61 step 6). -/
def anyEntryReserved (ws : List Word) : Bool := ws.any fun w => bitsAt w 16 4 != 0

/-- Two entries of a LOAD_COMMANDS frame have the same name (30_encoding R61 step 8, 43_dispatcher R136). -/
def repeatsName (cs : List CommandSpec) : Bool := !decide ((cs.map CommandSpec.name).Nodup)

/-! ### The frame decoder -/

/-- CHECK_OVERLAP after the header and length checks: capacity, then reserved bits (30_encoding R61 steps 5, 6). -/
def decodeCheckOverlap (cfg : Params) (rest : List Word) : Except IllegalCause Instr :=
  if max cfg.nEv.toNat cfg.nCmd.toNat < rest.length then .error .overCapacity
  else if anyHighHalf rest then .error .reservedBit
  else .ok (.checkOverlap (rest.map lowHalf))

/-- LOAD_EVENTS after the header and length checks (30_encoding R61 steps 5 to 7). -/
def decodeLoadEvents (cfg : Params) (rest : List Word) : Except IllegalCause Instr :=
  if cfg.nEv.toNat < rest.length then .error .overCapacity
  else if anyEntryReserved rest then .error .reservedBit
  else
    match eventSpecs rest with
    | none => .error .reservedTransform
    | some es => .ok (.loadEvents es)

/-- LOAD_COMMANDS after the header and length checks (30_encoding R61 steps 5 to 8). -/
def decodeLoadCommands (cfg : Params) (rest : List Word) : Except IllegalCause Instr :=
  if cfg.nCmd.toNat < rest.length then .error .overCapacity
  else if anyEntryReserved rest then .error .reservedBit
  else
    match commandSpecs rest with
    | none => .error .reservedTransform
    | some cs => if repeatsName cs then .error .repeatedName else .ok (.loadCommands cs)

/-- The argument words of format A: bits 31:16 are reserved (30_encoding R59, R61 step 6). -/
def decodeArgs (rest : List Word) (k : List Arg → Instr) : Except IllegalCause Instr :=
  if anyHighHalf rest then .error .reservedBit else .ok (k (rest.map lowHalf))

/-- The operands of an operation, its header and length already checked (30_encoding R53 to R59, R61 steps 5 to 8). -/
def decodeOperands (cfg : Params) (op : Opcode) (h : Word) (rest : List Word) : Except IllegalCause Instr :=
  match op with
  | .patConstruct => .ok (.patConstruct (lowHalf h))
  | .patMatch => .ok (.patMatch (lowHalf h) (midField h))
  | .patSubset =>
    if anyHighHalf rest then .error .reservedBit else .ok (.patSubset (lowHalf h) (lowHalf (rest.headD 0)))
  | .checkOverlap => decodeCheckOverlap cfg rest
  | .extract => .ok (.extract (lowHalf h) (midField h))
  | .translate => .ok (.translate (lowHalf h) (rest.headD 0))
  | .loadEvents => decodeLoadEvents cfg rest
  | .loadCommands => decodeLoadCommands cfg rest
  | .setHandler => .ok (.setHandler (midField h) (lowHalf h))
  | .setDefaultHandler => .ok (.setDefaultHandler (lowHalf h))
  | .decode => .ok (.decode (midField h))
  | .encodeSend => decodeArgs rest (.encodeSend (midField h))
  | .encServices => decodeArgs rest .encServices
  | .encRgb => decodeArgs rest .encRgb
  | .decTemp => .ok (.decTemp (midField h))

/-- The frame decoder: one operation, or `IllegalRequest` with exactly one cause, the first check that fails in the
order of 30_encoding R61. -/
def decodeFrame (cfg : Params) : List Word → Except IllegalCause Instr
  | [] => .error .frameLength
  | h :: rest =>
    match opcodeOf (opField h) with
    | none => .error .reservedOpcode
    | some op =>
      if h &&& op.reservedHeaderBits ≠ 0 then .error .reservedBit
      else if rest.length ≠ op.laterWords h then .error .frameLength
      else decodeOperands cfg op h rest

/-- The `OP` that a response echoes: the request's, 0 for an empty frame (30_encoding R66). -/
def echoedOp : List Word → BitVec 4
  | [] => 0
  | h :: _ => opField h

/-! ### Wire bytes -/

/-- The instruction of a received wire byte: the default catalog's event row that claims it, else DECODE of the byte
itself (43_dispatcher R127; the masks of the opcode table's event rows; assumption log 3). -/
def decodeRx (b : Byte) : Instr :=
  if b.extractLsb' 6 2 = 0b00#2 then .wireEventLight (b.extractLsb' 0 6)
  else if b.extractLsb' 6 2 = 0b01#2 then .wireEventKnob (b.extractLsb' 0 6)
  else if b.extractLsb' 6 2 = 0b10#2 then .wireEventTemperature (b.extractLsb' 0 6)
  else .decode b

/-- The default catalog's command row that claims a byte to be sent; bytes 0x22 to 0x3F belong to none (30_encoding
R65; the masks of the opcode table's command rows; assumption log 4). -/
def decodeTx (b : Byte) : Option Instr :=
  if b.extractLsb' 5 3 = 0b000#3 then some (.wireCommandServo (b.extractLsb' 0 5))
  else if b.extractLsb' 1 7 = 0b0010000#7 then some (.wireCommandLed (b.extractLsb' 0 1))
  else if b.extractLsb' 6 2 = 0b01#2 then some (.wireCommandRgb (b.extractLsb' 0 6))
  else if b.extractLsb' 6 2 = 0b10#2 then some (.wireCommandSubscribe (b.extractLsb' 0 6))
  else if b.extractLsb' 6 2 = 0b11#2 then some (.wireCommandQuery (b.extractLsb' 0 6))
  else none

/-! ### One decoder for every input -/

/-- What an input stands for. -/
inductive Decoded where
  /-- an instruction -/
  | instr (i : Instr)
  /-- a frame that spells no operation: the `OP` to echo and the cause (30_encoding R61, R66) -/
  | illegal (op : BitVec 4) (cause : IllegalCause)
  /-- a reset event (70_reset_and_hazards R163) -/
  | reset
  /-- a byte to be sent that no command row of the opcode table claims (30_encoding R65) -/
  | noWireCommand (byte : Byte)
  deriving DecidableEq, Repr

/-- The decoder of whatever the host presents. -/
def decodeInput (cfg : Params) : Input → Decoded
  | .frame ws =>
    match decodeFrame cfg ws with
    | .ok i => .instr i
    | .error c => .illegal (echoedOp ws) c
  | .rst => .reset
  | .rx b => .instr (decodeRx b)
  | .tx b =>
    match decodeTx b with
    | some i => .instr i
    | none => .noWireCommand b

/-! ### The encoder -/

/-- A header: `OP`, the zero nibble, and the 24 operand bits of the format (30_encoding R51). -/
def header (op : Opcode) (operands : BitVec 24) : Word := op.code ++ (0#4 ++ operands)

/-- Header operands with the 8-bit field at bits 23:16 and the 16-bit field at bits 15:0 (formats P, L, H, B). -/
def operandsMid (mid : BitVec 8) (low : BitVec 16) : BitVec 24 := mid ++ low

/-- Header operands of format A: `NAME`, eight zero bits, `ARGC` (30_encoding R59). -/
def operandsArgs (name : NameId) (args : List Arg) : BitVec 24 := name ++ (0#8 ++ BitVec.ofNat 8 args.length)

/-- A later word with a 16-bit operand and zero high half (30_encoding R54, R56, R59). -/
def halfWord (x : BitVec 16) : Word := 0#16 ++ x

/-- A catalog entry word (30_encoding R56). -/
def entryWord (name : NameId) (xf : BitVec 4) (mask : MaskWord) : Word := name ++ (xf ++ (0#4 ++ mask))

/-- The frame or wire byte of an instruction, from the formats of 30_encoding R53 to R59 and the opcode table. -/
def encode : Instr → Input
  | .patConstruct m => .frame [header .patConstruct (operandsMid 0 m)]
  | .patMatch m b => .frame [header .patMatch (operandsMid b m)]
  | .patSubset a b => .frame [header .patSubset (operandsMid 0 a), halfWord b]
  | .checkOverlap ms => .frame (header .checkOverlap (operandsMid (BitVec.ofNat 8 ms.length) 0) :: ms.map halfWord)
  | .extract m b => .frame [header .extract (operandsMid b m)]
  | .translate m v => .frame [header .translate (operandsMid 0 m), v]
  | .loadEvents es =>
    .frame (header .loadEvents (operandsMid (BitVec.ofNat 8 es.length) 0) ::
      es.map fun e => entryWord e.name e.xf.code e.mask)
  | .loadCommands cs =>
    .frame (header .loadCommands (operandsMid (BitVec.ofNat 8 cs.length) 0) ::
      cs.map fun c => entryWord c.name c.xf.code c.mask)
  | .setHandler n t => .frame [header .setHandler (operandsMid n t)]
  | .setDefaultHandler t => .frame [header .setDefaultHandler (operandsMid 0 t)]
  | .decode b => .frame [header .decode (operandsMid b 0)]
  | .encodeSend n args => .frame (header .encodeSend (operandsArgs n args) :: args.map halfWord)
  | .encServices args => .frame (header .encServices (operandsArgs 0 args) :: args.map halfWord)
  | .encRgb args => .frame (header .encRgb (operandsArgs 0 args) :: args.map halfWord)
  | .decTemp r => .frame [header .decTemp (operandsMid r 0)]
  | .wireEventLight p => .rx (0b00#2 ++ p)
  | .wireEventKnob p => .rx (0b01#2 ++ p)
  | .wireEventTemperature p => .rx (0b10#2 ++ p)
  | .wireCommandServo p => .tx (0b000#3 ++ p)
  | .wireCommandLed p => .tx (0b0010000#7 ++ p)
  | .wireCommandRgb p => .tx (0b01#2 ++ p)
  | .wireCommandSubscribe p => .tx (0b10#2 ++ p)
  | .wireCommandQuery p => .tx (0b11#2 ++ p)

/-! ### Words of the opcode table -/

/-- The input that an 8-bit table word stands for. Event and command rows share their bits; a byte is read in the
direction of the row with the longest fixed part that claims it, and of two equally long ones as the event
(assumption log 6). -/
def wireInput (b : Byte) : Input :=
  if b.extractLsb' 5 3 = 0b000#3 ∨ b.extractLsb' 1 7 = 0b0010000#7 ∨ b.extractLsb' 6 2 = 0b11#2 then .tx b else .rx b

/-- The frame whose header is the low word of `w` and whose later words are the next bits of `w`, as many as the
header declares; bits that `w` does not give are 0. -/
def tableFrame (w : Nat) : List Word :=
  let h := BitVec.ofNat 32 w
  let later := match opcodeOf (opField h) with
    | some op => op.laterWords h
    | none => 0
  h :: (List.range later).map fun j => BitVec.ofNat 32 (w >>> (32 * (j + 1)))

/-- The input that a word of the opcode table stands for: a wire byte where the row has 8 bits, else a frame. -/
def tableInput (nbits w : Nat) : Input :=
  let bits := w % 2 ^ nbits
  if nbits = 8 then wireInput (BitVec.ofNat 8 bits) else .frame (tableFrame bits)

/-- The instruction the decoder reads from a word of the opcode table, with the suggested capacities (those of
`State.reset`). -/
def decodeTableWord (nbits w : Nat) : Option Instr :=
  match decodeInput Params.suggested (tableInput nbits w) with
  | .instr i => some i
  | .illegal _ _ => none
  | .reset => none
  | .noWireCommand _ => none

end Sys2Proof
end

