-- ==== Sys2Proof/Machine/State.lean ====
section
/-! DEFINITION. The state of the block (10_state R13 to R26), the faults and refusals, and the state after reset. State is
plain data. -/

namespace Sys2Proof.Machine

/-- A constructed pattern: the mask word and the three values derived from it once, at construction (10_state R17;
40_bitpattern R76). -/
structure Pattern where
  mask : MaskWord
  low : Byte
  high : Byte
  /-- `masked_bits`, 0 to 8 (00_scope R7) -/
  mb : Nat
  deriving DecidableEq, Repr

/-- One valid entry of the event catalog (10_state R17). -/
structure EventEntry where
  name : NameId
  pat : Pattern
  xf : EventXf
  deriving DecidableEq, Repr

/-- One valid entry of the command catalog (10_state R19). -/
structure CommandEntry where
  name : NameId
  pat : Pattern
  xf : CommandXf
  deriving DecidableEq, Repr

/-- What appears on the output ports (30_encoding R50; 20_memory R44). -/
inductive PortEvent where
  /-- a response frame on RSP, one or two words (30_encoding R66) -/
  | rsp (words : List Word)
  /-- a dispatch record on DISPATCH, two words (30_encoding R72) -/
  | dispatch (word0 word1 : Word)
  /-- a byte on TX (30_encoding R73) -/
  | tx (byte : Byte)
  deriving DecidableEq, Repr

/-- The machine. `ev`, `cmd`, `hreg` and `defH` are the block's complete state (10_state R13): `EV_COUNT` and
`CMD_COUNT` are the lengths of the two lists, since entries at or above a count hold no value (R17, R19). `cfg`,
`pending` and `trace` are the model's own: the open parameters (00_scope R8, assumption log 1), what waits at the input
ports, and what has appeared on the output ports (20_memory R44, assumption log 2). -/
structure State where
  /-- the capacities `N_EV` and `N_CMD`; no step changes them -/
  cfg : Params
  /-- `EV`, the valid entries in load order (10_state R17) -/
  ev : List EventEntry
  /-- `CMD`, the valid entries in the order of the load (10_state R19) -/
  cmd : List CommandEntry
  /-- `HREG`, the slots that hold a token, names strictly rising; every other slot is `none` (10_state R21) -/
  hreg : List (NameId × Token)
  /-- `DEF_H` (10_state R23) -/
  defH : Option Token
  /-- inputs presented and not yet taken, oldest first -/
  pending : List Input
  /-- outputs, oldest first -/
  trace : List PortEvent
  deriving DecidableEq, Repr

/-- `EV_COUNT` (10_state R17). -/
def State.evCount (s : State) : Nat := s.ev.length

/-- `CMD_COUNT` (10_state R19). -/
def State.cmdCount (s : State) : Nat := s.cmd.length

/-- The faults that stop the machine: none. "No error is fatal to the block and none puts it in a state only reset can
leave" (60_exceptions R153); an operation that fails answers an error status and the machine goes on (R152). Nobody
raises a fault. -/
inductive Fault where
  deriving DecidableEq, Repr

/-- Why a step has no meaning to give. -/
inductive Refusal where
  /-- An arm of `exec` whose instruction has no meaning yet. Raised by no arm of this model; safe. -/
  | notModelled (mnemonic : String)
  /-- A host-to-device wire byte that no command row of the opcode table claims, 0x22 to 0x3F (30_encoding R65). Raised
  by `step` on an input of the model's own making (assumption log 4), by no instruction; safe. -/
  | noWireCommand (byte : Byte)
  deriving DecidableEq, Repr

/-- The machine right after reset (10_state R26): both catalogs empty, every registry slot and the default handler
`none`. The capacities are 00_scope R8's suggestion (assumption log 1); nothing waits and nothing has been output
(assumption log 2). -/
def State.reset : State :=
  { cfg := Params.suggested, ev := [], cmd := [], hreg := [], defH := none, pending := [], trace := [] }

end Sys2Proof.Machine
end

