-- ==== Sys2Proof/Machine/Flags.lean ====
section
/-! DEFINITION. What a step reports. The block has no flags and no condition codes (10_state R16): a result or an error is
told once, in the response frame. Here are the error statuses with their data (60_exceptions R141; 30_encoding R69, R70),
the response words (R66, R68), the encoding of a decoded value (R71) and the dispatch records (R72). -/

namespace Sys2Proof.Machine

/-! ### Errors -/

/-- The errors an operation can raise, with the data their response carries (60_exceptions R141; 30_encoding R69). -/
inductive OpError where
  | invalidMask (mask : MaskWord) (position : BitVec 8)
  | patternOverlap (first second : BitVec 8) (maskFirst maskSecond : MaskWord)
  | unrecognizedByte (byte : Byte)
  | unknownEvent (name : NameId)
  | unknownCommand (name : NameId)
  | valueOverflow (mb : Nat) (value : Nat)
  | patternMismatch (byte : Byte)
  | unknownServiceName (arg : Arg) (position : BitVec 8)
  | codecArg (cause : BitVec 8)
  | illegalRequest (cause : IllegalCause)
  deriving DecidableEq, Repr

/-- The number of an `IllegalRequest` cause (30_encoding R70). -/
def causeCode : IllegalCause → BitVec 8
  | .reservedOpcode => 1
  | .reservedBit => 2
  | .overCapacity => 3
  | .reservedTransform => 4
  | .repeatedName => 5
  | .frameLength => 6

/-- Status OK (60_exceptions R141). -/
def statusOk : BitVec 4 := 0

/-- The status code of an error (60_exceptions R141). -/
def errorStatus : OpError → BitVec 4
  | .invalidMask _ _ => 1
  | .patternOverlap _ _ _ _ => 2
  | .unrecognizedByte _ => 3
  | .unknownEvent _ => 4
  | .unknownCommand _ => 5
  | .valueOverflow _ _ => 6
  | .patternMismatch _ => 7
  | .unknownServiceName _ _ => 8
  | .codecArg _ => 9
  | .illegalRequest _ => 15

/-- `INFO` of an error response (30_encoding R69). -/
def errorInfo : OpError → BitVec 24
  | .invalidMask m pos => m ++ pos
  | .patternOverlap i j _ _ => 0#8 ++ (i ++ j)
  | .unrecognizedByte b => 0#16 ++ b
  | .unknownEvent n => 0#16 ++ n
  | .unknownCommand n => 0#16 ++ n
  | .valueOverflow mb _ => 0#20 ++ BitVec.ofNat 4 mb
  | .patternMismatch b => 0#16 ++ b
  | .unknownServiceName a pos => a ++ pos
  | .codecArg c => 0#16 ++ c
  | .illegalRequest c => 0#16 ++ causeCode c

/-- The second word of an error response, where it has one (30_encoding R66, R69). -/
def errorSecondWord : OpError → Option Word
  | .patternOverlap _ _ mi mj => some (mi ++ mj)
  | .valueOverflow _ v => some (BitVec.ofNat 32 v)
  | .invalidMask _ _ => none
  | .unrecognizedByte _ => none
  | .unknownEvent _ => none
  | .unknownCommand _ => none
  | .patternMismatch _ => none
  | .unknownServiceName _ _ => none
  | .codecArg _ => none
  | .illegalRequest _ => none

/-! ### Response frames -/

/-- Word 0 of a response: `OP`, `STATUS`, `INFO` (30_encoding R66). -/
def responseWord (op : BitVec 4) (status : BitVec 4) (info : BitVec 24) : Word := op ++ (status ++ info)

/-- A one-word response of status OK (30_encoding R66, R68). -/
def okFrame (op : BitVec 4) (info : BitVec 24) : List Word := [responseWord op statusOk info]

/-- The response of an error (30_encoding R66, R69). -/
def errorFrame (op : BitVec 4) (e : OpError) : List Word :=
  responseWord op (errorStatus e) (errorInfo e) :: (errorSecondWord e).toList

/-- `INFO` with an 8-bit result in `[7:0]` (30_encoding R68). -/
def infoByte (b : BitVec 8) : BitVec 24 := 0#16 ++ b

/-- `INFO` with a truth value in `[0]` (30_encoding R68). -/
def infoBool (b : Bool) : BitVec 24 := 0#23 ++ BitVec.ofBool b

/-- `INFO` of PAT_CONSTRUCT: `[19:16] = mb`, `[15:8] = high`, `[7:0] = low` (30_encoding R68). -/
def infoPattern (p : Pattern) : BitVec 24 := 0#4 ++ (BitVec.ofNat 4 p.mb ++ (p.high ++ p.low))

/-- `INFO` of EXTRACT: `[19:16] = mb`, `[7:0] = RAW` (30_encoding R68). -/
def infoExtract (mb : Nat) (raw : Byte) : BitVec 24 := 0#4 ++ (BitVec.ofNat 4 mb ++ (0#8 ++ raw))

/-! ### Decoded values and dispatch records -/

/-- The kinds of a decoded value that are ever produced (30_encoding R71). -/
inductive ValueKind where
  | int
  | bool
  | half
  deriving DecidableEq, Repr

/-- A transformed value `(VTYPE, VALUE)` (30_encoding R71). -/
structure DecodedValue where
  kind : ValueKind
  value : BitVec 12
  deriving DecidableEq, Repr

/-- `VTYPE` (30_encoding R71). -/
def kindCode : ValueKind → BitVec 2
  | .int => 0
  | .bool => 1
  | .half => 2

/-- Which handler a DECODE invokes, with its token (43_dispatcher R130, R132). -/
inductive Handler where
  | none
  | specific (token : Token)
  | default (token : Token)
  deriving DecidableEq, Repr

/-- `HKIND` (30_encoding R68). -/
def handlerKind : Handler → BitVec 2
  | .none => 0
  | .specific _ => 1
  | .default _ => 2

/-- `TOKEN` of a DECODE response, 0 where no handler is invoked (30_encoding R68). -/
def handlerToken : Handler → Token
  | .none => 0
  | .specific t => t
  | .default t => t

/-- The dispatch record of a handler, where one is invoked: the specific handler gets the transformed value, the
default handler the name and the raw payload (30_encoding R72; 43_dispatcher R131). -/
def dispatchRecord (h : Handler) (v : DecodedValue) (name : NameId) (raw : Byte) : Option PortEvent :=
  match h with
  | .none => Option.none
  | .specific t => some (.dispatch (1#2 ++ (kindCode v.kind ++ (v.value ++ t))) 0)
  | .default t => some (.dispatch (2#2 ++ (0#2 ++ (0#12 ++ t))) (0#16 ++ (name ++ raw)))

/-- `INFO` of a DECODE response: the matched event's name, its index, the raw payload (30_encoding R68). -/
def infoDecode (name : NameId) (index : Nat) (raw : Byte) : BitVec 24 := name ++ (BitVec.ofNat 8 index ++ raw)

/-- Word 1 of a DECODE response: `HKIND`, `VTYPE`, `VALUE`, `TOKEN` (30_encoding R68). -/
def decodeSecondWord (h : Handler) (v : DecodedValue) : Word :=
  handlerKind h ++ (kindCode v.kind ++ (v.value ++ handlerToken h))

/-- `INFO` of DEC_TEMP: `[13:12] = VTYPE`, `[11:0] = VALUE` (30_encoding R68). -/
def infoValue (v : DecodedValue) : BitVec 24 := 0#10 ++ (kindCode v.kind ++ v.value)

end Sys2Proof.Machine
end

