-- ==== Sys2Proof/Machine/Operands.lean ====
section
/-! DEFINITION. Mask words, constructed patterns, payload extraction and payload insertion (30_encoding R46 to R48;
40_bitpattern R75 to R80; 41_event_command R93 to R101). Pure functions. -/

namespace Sys2Proof.Machine

/-- `W = m[15:8]`, one wildcard flag per bit position (30_encoding R46). -/
def wildcardFlags (m : MaskWord) : Byte := m.extractLsb' 8 8

/-- `V = m[7:0]`, one value bit per bit position (30_encoding R46). -/
def valueBits (m : MaskWord) : Byte := m.extractLsb' 0 8

/-- `sym(m, i) = (W[i], V[i])`, the symbol that constrains bit `i` of a byte (30_encoding R46). -/
def symbolAt (m : MaskWord) (i : Nat) : Bool × Bool := ((wildcardFlags m).getLsbD i, (valueBits m).getLsbD i)

/-- The flag bytes of one contiguous trailing run of wildcards, `2^k - 1` for `k` = 0 to 8 (30_encoding R47). -/
def trailingRuns : List Byte := [0x00, 0x01, 0x03, 0x07, 0x0F, 0x1F, 0x3F, 0x7F, 0xFF]

/-- The number of 1 bits (00_scope R10). -/
def popcount (v : Byte) : Nat := ((List.range 8).filter fun i => v.getLsbD i).length

/-- `construct(mask)` (40_bitpattern R75, R76); `none` is `InvalidMask`. -/
def construct (m : MaskWord) : Option Pattern :=
  if wildcardFlags m &&& valueBits m ≠ 0 then none
  else if wildcardFlags m ∉ trailingRuns then none
  else
    some
      { mask := m
        low := valueBits m
        high := valueBits m ||| wildcardFlags m
        mb := popcount (wildcardFlags m) }

/-- `matches(byteValue)`, the two unsigned comparisons (40_bitpattern R78). -/
def inRange (p : Pattern) (b : Byte) : Bool := decide (p.low ≤ b) && decide (b ≤ p.high)

/-- The symbol positions 7 down to `mb` (40_bitpattern R80). -/
def prefixPositions (mb : Nat) : List Nat := (List.range' mb (8 - mb)).reverse

/-- `a.is_subset_of(o)`, by comparing symbols over the fixed part of `o` (40_bitpattern R80). -/
def isSubsetOf (a o : Pattern) : Bool := (prefixPositions o.mb).all fun i => symbolAt a.mask i == symbolAt o.mask i

/-- `extract_arg(byteValue)` (41_event_command R93, R94); `none` is `PatternMismatch`. -/
def extractArg (p : Pattern) (b : Byte) : Option Byte :=
  if inRange p b then some (b &&& BitVec.ofNat 8 (2 ^ p.mb - 1)) else none

/-- The natural binary width of a number: the least `k` with `v < 2^k`, 0 for 0 (00_scope R10; 41_event_command
R101). -/
def naturalWidth (v : Nat) : Nat := if v = 0 then 0 else Nat.log2 v + 1

/-- `insert(p, v)`, the second stage of `translate` (41_event_command R99, R100); `none` is `ValueOverflow`. -/
def insertValue (p : Pattern) (v : Nat) : Option Byte :=
  if p.mb < naturalWidth v then none else some (p.low ||| BitVec.ofNat 8 v)

end Sys2Proof.Machine
end

