-- ==== Sys2Proof/Machine/Ops.lean ====
section
/-! DEFINITION. The shared operations: emitting on a port, ending a step with a response or an error, reading and writing
the three tables (20_memory R30), and validating a list of patterns (40_bitpattern R83 to R89). -/

namespace Sys2Proof.Machine

/-! ### Ports, and the end of a step -/

/-- Append to the output trace (00_scope R10 `emit`; 20_memory R44). -/
def emit (e : PortEvent) (s : State) : State := { s with trace := s.trace ++ [e] }

/-- `respond OK` with `INFO` and no second word (00_scope R10; 30_encoding R66). -/
def respondOk (op : Opcode) (info : BitVec 24) (s : State) : Host.Outcome State Fault Refusal :=
  .next (emit (.rsp (okFrame op.code info)) s)

/-- `raise E(info)`, the one way an error is taken (60_exceptions R152): the step ends, no state is written, nothing
appears on DISPATCH or TX, and the response carries the echoed `OP`, the status code and the error's data. There is
nothing to return from (R153): the machine goes on with the next request. -/
def raise (op : BitVec 4) (e : OpError) (s : State) : Host.Outcome State Fault Refusal :=
  .next (emit (.rsp (errorFrame op e)) s)

/-! ### The handler registry -/

/-- `HREG[n]` (10_state R21). -/
def hregRead (h : List (NameId × Token)) (n : NameId) : Option Token :=
  match h with
  | [] => none
  | (k, t) :: rest => if k = n then some t else hregRead rest n

/-- `HREG[n] <- some(t)`, keeping the names strictly rising (43_dispatcher R124). -/
def hregWrite (h : List (NameId × Token)) (n : NameId) (t : Token) : List (NameId × Token) :=
  match h with
  | [] => [(n, t)]
  | (k, u) :: rest =>
    if n < k then (n, t) :: (k, u) :: rest
    else if n = k then (n, t) :: rest
    else (k, u) :: hregWrite rest n t

/-- The canonical form of the registry: names strictly rising, so that equal registries are equal data. -/
def hregSorted : List (NameId × Token) → Bool
  | [] => true
  | [_] => true
  | (k, _) :: (k', u) :: rest => decide (k < k') && hregSorted ((k', u) :: rest)

/-! ### Validating a list of patterns -/

/-- `construct` of the mask at a position of the request (30_encoding R69 for the position). -/
def constructAt (position : Nat) (m : MaskWord) : Except OpError Pattern :=
  match construct m with
  | some p => .ok p
  | none => .error (.invalidMask m (BitVec.ofNat 8 position))

/-- Every mask constructed in list order; `InvalidMask` at the lowest failing index (40_bitpattern R89). -/
def constructFrom (i : Nat) : List MaskWord → Except OpError (List Pattern)
  | [] => .ok []
  | m :: ms =>
    match constructAt i m with
    | .error e => .error e
    | .ok p =>
      match constructFrom (i + 1) ms with
      | .error e => .error e
      | .ok ps => .ok (p :: ps)

/-- The patterns of a list with their indices, sorted by `masked_bits` descending, ties in list order (40_bitpattern
R83, R84). -/
def sortByBreadth (ps : List Pattern) : List (Pattern × Nat) :=
  ps.zipIdx.insertionSort fun x y => y.1.mb ≤ x.1.mb

/-- The first pair the two loops of the check meet: the earliest pattern of the sorted order that has a later subset,
and the first such subset (40_bitpattern R83, R85). -/
def firstOverlap : List (Pattern × Nat) → Option ((Pattern × Nat) × (Pattern × Nat))
  | [] => none
  | x :: rest =>
    match rest.find? fun y => isSubsetOf y.1 x.1 with
    | some y => some (x, y)
    | none => firstOverlap rest

/-- `assert_no_overlaps(patterns)`: the error of the first conflicting pair, if there is one (40_bitpattern R83,
R85). -/
def overlapError (ps : List Pattern) : Option OpError :=
  match firstOverlap (sortByBreadth ps) with
  | none => none
  | some (x, y) => some (.patternOverlap (BitVec.ofNat 8 x.2) (BitVec.ofNat 8 y.2) x.1.mask y.1.mask)

/-- Construct every mask, then check for overlaps: what CHECK_OVERLAP and the two loads share (40_bitpattern R83,
R89). -/
def checkedPatterns (ms : List MaskWord) : Except OpError (List Pattern) :=
  match constructFrom 0 ms with
  | .error e => .error e
  | .ok ps =>
    match overlapError ps with
    | some e => .error e
    | none => .ok ps

/-! ### The catalogs -/

/-- The entries a load installs, in the request's order (43_dispatcher R119, R120). -/
def eventEntries (es : List EventSpec) (ps : List Pattern) : List EventEntry :=
  List.zipWith (fun e p => { name := e.name, pat := p, xf := e.xf }) es ps

/-- The entries a load installs, in the request's order (43_dispatcher R134). -/
def commandEntries (cs : List CommandSpec) (ps : List Pattern) : List CommandEntry :=
  List.zipWith (fun c p => { name := c.name, pat := p, xf := c.xf }) cs ps

/-- The event catalog replaced as a whole and the registry cleared, in one update (43_dispatcher R119 to R121). -/
def installEvents (entries : List EventEntry) (s : State) : State := { s with ev := entries, hreg := [] }

/-- The command catalog replaced as a whole; the registry is not touched (43_dispatcher R134, R135). -/
def installCommands (entries : List CommandEntry) (s : State) : State := { s with cmd := entries }

/-- One slot of the registry written (43_dispatcher R123, R124). -/
def setSlot (n : NameId) (t : Token) (s : State) : State := { s with hreg := hregWrite s.hreg n t }

/-- The default handler written (43_dispatcher R126). -/
def setDefault (t : Token) (s : State) : State := { s with defH := some t }

/-- Some valid event entry has the name (43_dispatcher R123, R125). -/
def eventNamed (s : State) (n : NameId) : Bool := s.ev.any fun e => e.name == n

/-- The valid event entry of least index that matches the byte, with its index (43_dispatcher R127, R129). -/
def firstMatch (s : State) (b : Byte) : Option (EventEntry × Nat) := s.ev.zipIdx.find? fun x => inRange x.1.pat b

/-- The valid command entry of a name; unique in every catalog a load installs (43_dispatcher R137; 10_state R20). -/
def commandNamed (s : State) (n : NameId) : Option CommandEntry := s.cmd.find? fun c => c.name == n

/-- Which handler a DECODE of an event of this name invokes (43_dispatcher R130, R132). -/
def chooseHandler (s : State) (n : NameId) : Handler :=
  match hregRead s.hreg n with
  | some t => .specific t
  | none =>
    match s.defH with
    | some d => .default d
    | none => .none

/-- Every piece of state at its reset value, the input still waiting and the outputs so far kept (70_reset_and_hazards
R163, R165; 10_state R26). -/
def resetState (s : State) : State := { s with ev := [], cmd := [], hreg := [], defH := none }

end Sys2Proof.Machine
end

