-- ==== Sys2Proof/Machine/BitPattern.lean ====
section
/-! DEFINITION. The operations of 40_bitpattern: PAT_CONSTRUCT, PAT_MATCH, PAT_SUBSET, CHECK_OVERLAP. They read and write
no state (R91). -/

namespace Sys2Proof.Machine

/-- PAT_CONSTRUCT (40_bitpattern R75). -/
def execPatConstruct (m : MaskWord) (s : State) : Host.Outcome State Fault Refusal :=
  match constructAt 0 m with
  | .error e => raise Opcode.patConstruct.code e s
  | .ok p => respondOk .patConstruct (infoPattern p) s

/-- PAT_MATCH (40_bitpattern R78). -/
def execPatMatch (m : MaskWord) (b : Byte) (s : State) : Host.Outcome State Fault Refusal :=
  match constructAt 0 m with
  | .error e => raise Opcode.patMatch.code e s
  | .ok p => respondOk .patMatch (infoBool (inRange p b)) s

/-- PAT_SUBSET; A is constructed first (40_bitpattern R80). -/
def execPatSubset (ma mb : MaskWord) (s : State) : Host.Outcome State Fault Refusal :=
  match constructAt 0 ma with
  | .error e => raise Opcode.patSubset.code e s
  | .ok a =>
    match constructAt 1 mb with
    | .error e => raise Opcode.patSubset.code e s
    | .ok o => respondOk .patSubset (infoBool (isSubsetOf a o)) s

/-- CHECK_OVERLAP (40_bitpattern R83). -/
def execCheckOverlap (ms : List MaskWord) (s : State) : Host.Outcome State Fault Refusal :=
  match checkedPatterns ms with
  | .error e => raise Opcode.checkOverlap.code e s
  | .ok ps => respondOk .checkOverlap (infoByte (BitVec.ofNat 8 ps.length)) s

end Sys2Proof.Machine
end

