-- ==== Sys2Proof/Machine/EventCommand.lean ====
section
/-! DEFINITION. The operations of 41_event_command: EXTRACT and TRANSLATE. They read and write no state. -/

namespace Sys2Proof.Machine

/-- EXTRACT (41_event_command R93). -/
def execExtract (m : MaskWord) (b : Byte) (s : State) : Host.Outcome State Fault Refusal :=
  match constructAt 0 m with
  | .error e => raise Opcode.extract.code e s
  | .ok p =>
    match extractArg p b with
    | none => raise Opcode.extract.code (.patternMismatch b) s
    | some raw => respondOk .extract (infoExtract p.mb raw) s

/-- TRANSLATE, the insertion alone: nothing appears on TX (41_event_command R98, R99). -/
def execTranslate (m : MaskWord) (v : BitVec 32) (s : State) : Host.Outcome State Fault Refusal :=
  match constructAt 0 m with
  | .error e => raise Opcode.translate.code e s
  | .ok p =>
    match insertValue p v.toNat with
    | none => raise Opcode.translate.code (.valueOverflow p.mb v.toNat) s
    | some byte => respondOk .translate (infoByte byte) s

end Sys2Proof.Machine
end

