-- ==== Sys2Proof/Machine/Codecs.lean ====
section
/-! DEFINITION. The transform unit of 42_codecs: the built-in transforms and the operations ENC_SERVICES, ENC_RGB,
DEC_TEMP. Pure functions (R118); arithmetic is exact in natural numbers (41_event_command R104). -/

namespace Sys2Proof.Machine

/-- `SERVICE_BITS`, by service id; no entry is an unrecognized name (42_codecs R109). -/
def serviceBits (a : Arg) : Option Nat := [1, 2, 4, 8, 16, 32, 63][a.toNat]?

/-- `PALETTE`, by palette id; no entry is an unknown id (42_codecs R111). -/
def paletteValue (a : Arg) : Option Nat := [0, 48, 12, 3, 15, 51, 60, 63][a.toNat]?

/-- The loop of `encode_services` from position `j` on, with the bits gathered so far (42_codecs R108). -/
def servicesFrom (j : Nat) (acc : Nat) : List Arg → Except OpError Nat
  | [] => .ok acc
  | a :: rest =>
    match serviceBits a with
    | none => .error (.unknownServiceName a (BitVec.ofNat 8 j))
    | some bits => servicesFrom (j + 1) (acc ||| bits) rest

/-- `encode_services(names...)` (42_codecs R108). -/
def encodeServices (args : List Arg) : Except OpError Nat := servicesFrom 0 0 args

/-- `encode_rgb(args)`; the number of arguments alone tells the forms apart, and a channel is not checked (42_codecs
R110, R112). -/
def encodeRgb (args : List Arg) : Except OpError Nat :=
  match args with
  | [a] =>
    match paletteValue a with
    | none => .error (.codecArg 2)
    | some v => .ok v
  | [r, g, b] => .ok (r.toNat * 16 + g.toNat * 4 + b.toNat)
  | _ => .error (.codecArg 1)

/-- `decode_temperature(raw)`, in half units: `raw + 20` denotes `raw / 2 + 10` (42_codecs R113). -/
def decodeTemperature (raw : Byte) : DecodedValue := { kind := .half, value := BitVec.ofNat 12 (raw.toNat + 20) }

/-- The decode transform of an event entry; total (42_codecs R106, R114, R115). -/
def decodeTransform (xf : EventXf) (raw : Byte) : DecodedValue :=
  match xf with
  | .identity => { kind := .int, value := BitVec.ofNat 12 raw.toNat }
  | .boolean => { kind := .bool, value := if raw = 0 then 0 else 1 }
  | .temperature => decodeTemperature raw

/-- The encode transform of a command entry (42_codecs R107). -/
def encodeTransform (xf : CommandXf) (args : List Arg) : Except OpError Nat :=
  match xf with
  | .identity =>
    match args with
    | [a] => .ok a.toNat
    | _ => .error (.codecArg 1)
  | .services => encodeServices args
  | .rgb => encodeRgb args

/-- ENC_SERVICES (42_codecs R108). -/
def execEncServices (args : List Arg) (s : State) : Host.Outcome State Fault Refusal :=
  match encodeServices args with
  | .error e => raise Opcode.encServices.code e s
  | .ok v => respondOk .encServices (BitVec.ofNat 24 v) s

/-- ENC_RGB (42_codecs R110). -/
def execEncRgb (args : List Arg) (s : State) : Host.Outcome State Fault Refusal :=
  match encodeRgb args with
  | .error e => raise Opcode.encRgb.code e s
  | .ok v => respondOk .encRgb (BitVec.ofNat 24 v) s

/-- DEC_TEMP (42_codecs R113). -/
def execDecTemp (raw : Byte) (s : State) : Host.Outcome State Fault Refusal :=
  respondOk .decTemp (infoValue (decodeTemperature raw)) s

end Sys2Proof.Machine
end

