-- ==== Sys2Proof/Machine/Catalogs.lean ====
section
/-! DEFINITION. The operations of 43_dispatcher: LOAD_EVENTS, LOAD_COMMANDS, SET_HANDLER, SET_DEFAULT_HANDLER, DECODE,
ENCODE_SEND. The structural checks of a frame (30_encoding R61) are the decoder's; here an error leaves the state as it
was (R122). -/

namespace Sys2Proof.Machine

/-- LOAD_EVENTS (43_dispatcher R119 to R122). -/
def execLoadEvents (es : List EventSpec) (s : State) : Host.Outcome State Fault Refusal :=
  match checkedPatterns (es.map EventSpec.mask) with
  | .error e => raise Opcode.loadEvents.code e s
  | .ok ps =>
    respondOk .loadEvents (infoByte (BitVec.ofNat 8 es.length)) (installEvents (eventEntries es ps) s)

/-- LOAD_COMMANDS (43_dispatcher R134 to R136). -/
def execLoadCommands (cs : List CommandSpec) (s : State) : Host.Outcome State Fault Refusal :=
  match checkedPatterns (cs.map CommandSpec.mask) with
  | .error e => raise Opcode.loadCommands.code e s
  | .ok ps =>
    respondOk .loadCommands (infoByte (BitVec.ofNat 8 cs.length)) (installCommands (commandEntries cs ps) s)

/-- SET_HANDLER (43_dispatcher R123, R124). -/
def execSetHandler (n : NameId) (t : Token) (s : State) : Host.Outcome State Fault Refusal :=
  if eventNamed s n then respondOk .setHandler 0 (setSlot n t s)
  else raise Opcode.setHandler.code (.unknownEvent n) s

/-- SET_DEFAULT_HANDLER, unconditional (43_dispatcher R126). -/
def execSetDefaultHandler (t : Token) (s : State) : Host.Outcome State Fault Refusal :=
  respondOk .setDefaultHandler 0 (setDefault t s)

/-- The end of a DECODE that matched: the dispatch record first, if a handler is invoked, then the two-word response
(43_dispatcher R127, R130 to R132; 20_memory R37). -/
def dispatchEvent (e : EventEntry) (index : Nat) (raw : Byte) (s : State) : State :=
  let v := decodeTransform e.xf raw
  let h := chooseHandler s e.name
  let out := (dispatchRecord h v e.name raw).toList ++
    [.rsp [responseWord Opcode.decode.code statusOk (infoDecode e.name index raw), decodeSecondWord h v]]
  { s with trace := s.trace ++ out }

/-- `decode(byteValue)` (43_dispatcher R127 to R133). -/
def decodeByte (b : Byte) (s : State) : Host.Outcome State Fault Refusal :=
  match firstMatch s b with
  | none => raise Opcode.decode.code (.unrecognizedByte b) s
  | some (e, index) =>
    match extractArg e.pat b with
    | none => raise Opcode.decode.code (.patternMismatch b) s
    | some raw => .next (dispatchEvent e index raw s)

/-- DECODE (43_dispatcher R127). -/
def execDecode (b : Byte) (s : State) : Host.Outcome State Fault Refusal := decodeByte b s

/-- `encode_and_send(commandName, args...)`: look the name up, transform, insert, send, respond (43_dispatcher R137 to
R139). -/
def encodeAndSend (n : NameId) (args : List Arg) (s : State) : Host.Outcome State Fault Refusal :=
  match commandNamed s n with
  | none => raise Opcode.encodeSend.code (.unknownCommand n) s
  | some c =>
    match encodeTransform c.xf args with
    | .error e => raise Opcode.encodeSend.code e s
    | .ok v =>
      match insertValue c.pat v with
      | none => raise Opcode.encodeSend.code (.valueOverflow c.pat.mb v) s
      | some byte => respondOk .encodeSend (infoByte byte) (emit (.tx byte) s)

/-- ENCODE_SEND (43_dispatcher R137). -/
def execEncodeSend (n : NameId) (args : List Arg) (s : State) : Host.Outcome State Fault Refusal :=
  encodeAndSend n args s

end Sys2Proof.Machine
end

