-- ==== Sys2Proof/Machine/Wire.lean ====
section
/-! DEFINITION. The wire bytes of the default catalog that the opcode table lists (30_encoding R45, R49). A received event
byte means DECODE of that byte; a command byte means ENCODE_SEND of the row's name id with the payload as the one
argument. "DECODE (rule R127) gives the semantics once loaded", "ENCODE_SEND (rule R137) gives the semantics once
loaded" (the table's notes; DEDUCED, assumption log 3 and 4). What is loaded decides the effect: the block holds no
default catalog (70_reset_and_hazards R164). -/

namespace Sys2Proof.Machine

/-- wire.event.light, the byte `00pppppp`. -/
def execWireEventLight (p : BitVec 6) (s : State) : Host.Outcome State Fault Refusal := decodeByte (0b00#2 ++ p) s

/-- wire.event.knob, the byte `01pppppp`. -/
def execWireEventKnob (p : BitVec 6) (s : State) : Host.Outcome State Fault Refusal := decodeByte (0b01#2 ++ p) s

/-- wire.event.temperature, the byte `10pppppp`. -/
def execWireEventTemperature (p : BitVec 6) (s : State) : Host.Outcome State Fault Refusal :=
  decodeByte (0b10#2 ++ p) s

/-- wire.command.servo, the byte `000ppppp`: name id 0. -/
def execWireCommandServo (p : BitVec 5) (s : State) : Host.Outcome State Fault Refusal :=
  encodeAndSend 0 [p.setWidth 16] s

/-- wire.command.led, the byte `0010000p`: name id 1. -/
def execWireCommandLed (p : BitVec 1) (s : State) : Host.Outcome State Fault Refusal :=
  encodeAndSend 1 [p.setWidth 16] s

/-- wire.command.rgb, the byte `01pppppp`: name id 2. -/
def execWireCommandRgb (p : BitVec 6) (s : State) : Host.Outcome State Fault Refusal :=
  encodeAndSend 2 [p.setWidth 16] s

/-- wire.command.subscribe, the byte `10pppppp`: name id 3. -/
def execWireCommandSubscribe (p : BitVec 6) (s : State) : Host.Outcome State Fault Refusal :=
  encodeAndSend 3 [p.setWidth 16] s

/-- wire.command.query, the byte `11pppppp`: name id 4. -/
def execWireCommandQuery (p : BitVec 6) (s : State) : Host.Outcome State Fault Refusal :=
  encodeAndSend 4 [p.setWidth 16] s

end Sys2Proof.Machine
end

