-- ==== Sys2Proof/Machine/Dispatch.lean ====
section
/-! DEFINITION. One arm per instruction, each a direct call of its meaning. -/

namespace Sys2Proof.Machine

/-- The effect of an instruction on the state. -/
def exec (i : Instr) (s : State) : Host.Outcome State Fault Refusal :=
  match i with
  | .patConstruct m => Sys2Proof.Machine.execPatConstruct m s
  | .patMatch m b => Sys2Proof.Machine.execPatMatch m b s
  | .patSubset ma mb => Sys2Proof.Machine.execPatSubset ma mb s
  | .checkOverlap ms => Sys2Proof.Machine.execCheckOverlap ms s
  | .extract m b => Sys2Proof.Machine.execExtract m b s
  | .translate m v => Sys2Proof.Machine.execTranslate m v s
  | .loadEvents es => Sys2Proof.Machine.execLoadEvents es s
  | .loadCommands cs => Sys2Proof.Machine.execLoadCommands cs s
  | .setHandler n t => Sys2Proof.Machine.execSetHandler n t s
  | .setDefaultHandler t => Sys2Proof.Machine.execSetDefaultHandler t s
  | .decode b => Sys2Proof.Machine.execDecode b s
  | .encodeSend n args => Sys2Proof.Machine.execEncodeSend n args s
  | .encServices args => Sys2Proof.Machine.execEncServices args s
  | .encRgb args => Sys2Proof.Machine.execEncRgb args s
  | .decTemp raw => Sys2Proof.Machine.execDecTemp raw s
  | .wireEventLight p => Sys2Proof.Machine.execWireEventLight p s
  | .wireEventKnob p => Sys2Proof.Machine.execWireEventKnob p s
  | .wireEventTemperature p => Sys2Proof.Machine.execWireEventTemperature p s
  | .wireCommandServo p => Sys2Proof.Machine.execWireCommandServo p s
  | .wireCommandLed p => Sys2Proof.Machine.execWireCommandLed p s
  | .wireCommandRgb p => Sys2Proof.Machine.execWireCommandRgb p s
  | .wireCommandSubscribe p => Sys2Proof.Machine.execWireCommandSubscribe p s
  | .wireCommandQuery p => Sys2Proof.Machine.execWireCommandQuery p s

end Sys2Proof.Machine
end

