-- ==== Sys2Proof/Machine/Fetch.lean ====
section
/-! DEFINITION. Taking the next input from the ports. The block has no program counter and fetches no program (10_state
R15): it executes the request it is handed, in arrival order (20_memory R37). -/

namespace Sys2Proof.Machine

/-- What the block finds at its input ports. -/
inductive Fetched where
  /-- nothing is presented: the block is idle and keeps all state (60_exceptions R161) -/
  | idle
  /-- an instruction, and the state with its input taken -/
  | instr (i : Instr) (s : State)
  /-- a frame that spells no operation, and the state with it taken (30_encoding R61) -/
  | illegal (op : BitVec 4) (cause : IllegalCause) (s : State)
  /-- a reset event, and the state after it (70_reset_and_hazards R163) -/
  | reset (s : State)
  /-- a byte to be sent that no command row claims (30_encoding R65; assumption log 4) -/
  | noWireCommand (byte : Byte)
  deriving DecidableEq, Repr

/-- The oldest input is taken and decoded. -/
def fetch (s : State) : Fetched :=
  match s.pending with
  | [] => .idle
  | input :: rest =>
    let taken := { s with pending := rest }
    match decodeInput s.cfg input with
    | .instr i => .instr i taken
    | .illegal op c => .illegal op c taken
    | .reset => .reset (resetState taken)
    | .noWireCommand b => .noWireCommand b

/-- The input of a table word placed so that the next fetch takes it. -/
def present (input : Input) (s : State) : State := { s with pending := input :: s.pending }

end Sys2Proof.Machine
end

