-- ==== Sys2Proof/Machine/Step.lean ====
section
/-! DEFINITION. One step: the complete execution of one request (00_scope R6), or one reset event (70_reset_and_hazards
R163). -/

namespace Sys2Proof.Machine

/-- Take the next input and execute it. A frame that spells no operation is answered `IllegalRequest` and changes nothing
else (30_encoding R61; 60_exceptions R150). -/
def step (s : State) : Host.Outcome State Fault Refusal :=
  match fetch s with
  | .idle => .next s
  | .instr i taken => exec i taken
  | .illegal op c taken => raise op (.illegalRequest c) taken
  | .reset after => .next after
  | .noWireCommand b => .refused (.noWireCommand b)

/-- `s` with the instruction of a table word presented as the next input (assumption log 2). -/
def State.withFetchWord (s : State) (nbits w : Nat) : State := present (tableInput nbits w) s

end Sys2Proof.Machine
end

