-- ==== Sys2Proof/Machine/Assembler.lean ====
section
/-! DEFINITION. The assembler of 30_encoding R74 from a line's mnemonic and operands on: masks as text or raw, names as the
symbolic names of R49 or as numbers. A line is one request or is rejected. AsmText.lean reads a line's characters. -/

namespace Sys2Proof.Machine

/-- A mask operand: eight characters, high bit first, or the raw form `mask(0xWWVV)` (30_encoding R74, 00_scope R11). -/
inductive AsmMask where
  | text (symbols : List Char)
  | raw (word : MaskWord)
  deriving DecidableEq, Repr

/-- The event names of the default catalog (30_encoding R49). -/
inductive EventName where
  | light
  | knob
  | temperature
  | motion
  | button1
  | button2
  deriving DecidableEq, Repr

/-- The command names of the default catalog (30_encoding R49). -/
inductive CommandName where
  | servo
  | led
  | rgb
  | subscribe
  | query
  deriving DecidableEq, Repr

/-- A name operand: symbolic or a number (30_encoding R74). -/
inductive AsmName (α : Type) where
  | symbol (name : α)
  | number (n : Nat)
  deriving DecidableEq, Repr

/-- A catalog entry operand; the transform may be left out (30_encoding R74). -/
structure AsmEntry (name xf : Type) where
  name : AsmName name
  mask : AsmMask
  xf : Option xf
  deriving DecidableEq, Repr

/-- One line (30_encoding R74). A service or palette argument is its number (DESIGN CHOICE, assumption log 7). -/
inductive AsmLine where
  | patConstruct (mask : AsmMask)
  | patMatch (mask : AsmMask) (byte : Nat)
  | patSubset (maskA maskB : AsmMask)
  | checkOverlap (masks : List AsmMask)
  | extract (mask : AsmMask) (byte : Nat)
  | translate (mask : AsmMask) (value : Nat)
  | loadEvents (entries : List (AsmEntry EventName EventXf))
  | loadCommands (entries : List (AsmEntry CommandName CommandXf))
  | setHandler (name : AsmName EventName) (token : Nat)
  | setDefaultHandler (token : Nat)
  | decode (byte : Nat)
  | encodeSend (name : AsmName CommandName) (args : List Nat)
  | encServices (args : List Nat)
  | encRgb (args : List Nat)
  | decTemp (raw : Nat)
  deriving DecidableEq, Repr

/-- The name ids of 30_encoding R49. -/
def eventNameId : EventName → NameId
  | .light => 0
  | .knob => 1
  | .temperature => 2
  | .motion => 3
  | .button1 => 4
  | .button2 => 5

/-- The name ids of 30_encoding R49. -/
def commandNameId : CommandName → NameId
  | .servo => 0
  | .led => 1
  | .rgb => 2
  | .subscribe => 3
  | .query => 4

/-- A number that fits its field. -/
def fieldOf (w n : Nat) : Option (BitVec w) := if n < 2 ^ w then some (BitVec.ofNat w n) else none

/-- Every element converted, or nothing. -/
def convertAll {α β : Type} (f : α → Option β) : List α → Option (List β)
  | [] => some []
  | a :: rest =>
    match f a, convertAll f rest with
    | some b, some bs => some (b :: bs)
    | _, _ => none

/-- The symbol of a character as `(W, V)`: `0`, `1`, and `_` for the wildcard (00_scope R11; 30_encoding R46). -/
def symbolOfChar (c : Char) : Option (Bool × Bool) :=
  if c = '0' then some (false, false) else if c = '1' then some (false, true) else if c = '_' then some (true, false)
  else none

/-- The number whose binary digits are `bits`, most significant first. -/
def numberOfBits (bits : List Bool) : Nat := bits.foldl (fun acc b => 2 * acc + b.toNat) 0

/-- The mask word of a text: exactly eight characters of the alphabet (30_encoding R46, R74). -/
def maskOfText (cs : List Char) : Option MaskWord :=
  if cs.length ≠ 8 then none
  else
    match convertAll symbolOfChar cs with
    | none => none
    | some syms => some (BitVec.ofNat 16 (256 * numberOfBits (syms.map Prod.fst) + numberOfBits (syms.map Prod.snd)))

/-- The mask word of a mask operand. -/
def asmMask : AsmMask → Option MaskWord
  | .text cs => maskOfText cs
  | .raw m => some m

/-- The name id of a name operand. -/
def asmName {α : Type} (ids : α → NameId) : AsmName α → Option NameId
  | .symbol a => some (ids a)
  | .number n => fieldOf 8 n

/-- The entry of a LOAD_EVENTS line; the transform is identity when left out (30_encoding R74). -/
def asmEvent (e : AsmEntry EventName EventXf) : Option EventSpec :=
  match asmName eventNameId e.name, asmMask e.mask with
  | some n, some m => some { name := n, xf := e.xf.getD .identity, mask := m }
  | _, _ => none

/-- The entry of a LOAD_COMMANDS line. -/
def asmCommand (c : AsmEntry CommandName CommandXf) : Option CommandSpec :=
  match asmName commandNameId c.name, asmMask c.mask with
  | some n, some m => some { name := n, xf := c.xf.getD .identity, mask := m }
  | _, _ => none

/-- The request of a line (30_encoding R74). -/
def lineInstr : AsmLine → Option Instr
  | .patConstruct m => (asmMask m).map .patConstruct
  | .patMatch m b =>
    match asmMask m, fieldOf 8 b with
    | some m, some b => some (.patMatch m b)
    | _, _ => none
  | .patSubset a b =>
    match asmMask a, asmMask b with
    | some a, some b => some (.patSubset a b)
    | _, _ => none
  | .checkOverlap ms => (convertAll asmMask ms).map .checkOverlap
  | .extract m b =>
    match asmMask m, fieldOf 8 b with
    | some m, some b => some (.extract m b)
    | _, _ => none
  | .translate m v =>
    match asmMask m, fieldOf 32 v with
    | some m, some v => some (.translate m v)
    | _, _ => none
  | .loadEvents es => (convertAll asmEvent es).map .loadEvents
  | .loadCommands cs => (convertAll asmCommand cs).map .loadCommands
  | .setHandler n t =>
    match asmName eventNameId n, fieldOf 16 t with
    | some n, some t => some (.setHandler n t)
    | _, _ => none
  | .setDefaultHandler t => (fieldOf 16 t).map .setDefaultHandler
  | .decode b => (fieldOf 8 b).map .decode
  | .encodeSend n args =>
    match asmName commandNameId n, convertAll (fieldOf 16) args with
    | some n, some args => some (.encodeSend n args)
    | _, _ => none
  | .encServices args => (convertAll (fieldOf 16) args).map .encServices
  | .encRgb args => (convertAll (fieldOf 16) args).map .encRgb
  | .decTemp r => (fieldOf 8 r).map .decTemp

/-- The list operands of a request fit the 8-bit counts of formats L and A (30_encoding R56, R59). -/
def countsFit : Instr → Bool
  | .checkOverlap ms => decide (ms.length ≤ 255)
  | .loadEvents es => decide (es.length ≤ 255)
  | .loadCommands cs => decide (cs.length ≤ 255)
  | .encodeSend _ args => decide (args.length ≤ 255)
  | .encServices args => decide (args.length ≤ 255)
  | .encRgb args => decide (args.length ≤ 255)
  | .patConstruct _ | .patMatch _ _ | .patSubset _ _ | .extract _ _ | .translate _ _ | .setHandler _ _
  | .setDefaultHandler _ | .decode _ | .decTemp _ | .wireEventLight _ | .wireEventKnob _ | .wireEventTemperature _
  | .wireCommandServo _ | .wireCommandLed _ | .wireCommandRgb _ | .wireCommandSubscribe _ | .wireCommandQuery _ => true

/-- The frame of a line, or a rejection (30_encoding R74). -/
def assemble (line : AsmLine) : Option (List Word) :=
  match lineInstr line with
  | none => none
  | some i =>
    if countsFit i then
      match encode i with
      | .frame ws => some ws
      | _ => none
    else none

end Sys2Proof.Machine
end

