-- ==== Sys2Proof/Machine/AsmText.lean ====
section
/-! DEFINITION. The text of a line of 30_encoding R74: its characters to tokens, its tokens to the line of Assembler.lean.
A line is one mnemonic and its operands, separated by commas; whatever else is rejected. Spaces and tabs may stand
between tokens (assumption log 7). -/

namespace Sys2Proof.Machine

/-! ### Tokens -/

/-- The tokens of a line. -/
inductive AsmToken where
  | word (letters : List Char)
  | number (n : Nat)
  | quoted (symbols : List Char)
  | comma
  | openList
  | closeList
  | openGroup
  | closeGroup
  deriving DecidableEq, Repr

/-- A character of a mnemonic, a name or a number. -/
def isWordChar (c : Char) : Bool := c.isAlphanum || c == '_'

/-- The value of a digit, decimal or hexadecimal. -/
def digitValue (c : Char) : Option Nat :=
  if c.isDigit then some (c.toNat - '0'.toNat)
  else if 'a' ≤ c ∧ c ≤ 'f' then some (c.toNat - 'a'.toNat + 10)
  else if 'A' ≤ c ∧ c ≤ 'F' then some (c.toNat - 'A'.toNat + 10)
  else none

/-- The number of a digit string in a base, most significant first; no digits are no number. -/
def numberOfDigits (base : Nat) (cs : List Char) : Option Nat :=
  match cs with
  | [] => none
  | _ =>
    match convertAll digitValue cs with
    | none => none
    | some ds => if ds.all (· < base) then some (ds.foldl (fun acc d => base * acc + d) 0) else none

/-- A run of word characters: a number, decimal or `0x` hexadecimal (30_encoding R74), if it starts with a digit, else a
word. -/
def tokenOfRun (cs : List Char) : Option AsmToken :=
  match cs with
  | [] => none
  | '0' :: 'x' :: rest => (numberOfDigits 16 rest).map .number
  | c :: rest => if c.isDigit then (numberOfDigits 10 (c :: rest)).map .number else some (.word (c :: rest))

/-- The token of a punctuation character. -/
def punctuation (c : Char) : Option AsmToken :=
  if c = ',' then some .comma else if c = '[' then some .openList else if c = ']' then some .closeList
  else if c = '(' then some .openGroup else if c = ')' then some .closeGroup else none

/-- Where the lexer stands. -/
inductive LexPlace where
  | between
  /-- in a run of word characters, the last one first -/
  | inRun (run : List Char)
  /-- inside double quotes, the last character first -/
  | inQuotes (symbols : List Char)
  deriving DecidableEq, Repr

/-- The tokens that end when the lexer leaves a place: the run it was in, if it was in one. -/
def endRun : LexPlace → Option (List AsmToken)
  | .between => some []
  | .inRun run => (tokenOfRun run.reverse).map fun t => [t]
  | .inQuotes _ => none

/-- Both token lists, the second after the first. -/
def joinTokens (a b : Option (List AsmToken)) : Option (List AsmToken) :=
  match a, b with
  | some x, some y => some (x ++ y)
  | _, _ => none

/-- The tokens of a line from a place on; `none` where a character is no token's. -/
def tokensFrom (place : LexPlace) : List Char → Option (List AsmToken)
  | [] => endRun place
  | c :: cs =>
    match place with
    | .inQuotes symbols =>
      if c = '"' then joinTokens (some [.quoted symbols.reverse]) (tokensFrom .between cs)
      else tokensFrom (.inQuotes (c :: symbols)) cs
    | .between =>
      if isWordChar c then tokensFrom (.inRun [c]) cs
      else if c = '"' then tokensFrom (.inQuotes []) cs
      else if c = ' ' ∨ c = '\t' then tokensFrom .between cs
      else joinTokens ((punctuation c).map fun t => [t]) (tokensFrom .between cs)
    | .inRun run =>
      if isWordChar c then tokensFrom (.inRun (c :: run)) cs
      else if c = '"' then joinTokens (endRun (.inRun run)) (tokensFrom (.inQuotes []) cs)
      else if c = ' ' ∨ c = '\t' then joinTokens (endRun (.inRun run)) (tokensFrom .between cs)
      else
        joinTokens (endRun (.inRun run)) (joinTokens ((punctuation c).map fun t => [t]) (tokensFrom .between cs))

/-! ### Operands -/

/-- An operand read from the front of the tokens, and the tokens after it. -/
abbrev AsmParser (α : Type) := List AsmToken → Option (α × List AsmToken)

/-- The entry of a table of words. -/
def lookupWord {α : Type} (table : List (List Char × α)) (w : List Char) : Option α :=
  (table.find? fun x => x.1 == w).map Prod.snd

/-- The symbolic event names (30_encoding R49), letter by letter, which Lean's kernel evaluates faster than a string. -/
def eventNameTable : List (List Char × EventName) :=
  [(['l', 'i', 'g', 'h', 't'], .light),
    (['k', 'n', 'o', 'b'], .knob),
    (['t', 'e', 'm', 'p', 'e', 'r', 'a', 't', 'u', 'r', 'e'], .temperature),
    (['m', 'o', 't', 'i', 'o', 'n'], .motion),
    (['b', 'u', 't', 't', 'o', 'n', '1'], .button1),
    (['b', 'u', 't', 't', 'o', 'n', '2'], .button2)]

/-- The symbolic command names (30_encoding R49). -/
def commandNameTable : List (List Char × CommandName) :=
  [(['s', 'e', 'r', 'v', 'o'], .servo),
    (['l', 'e', 'd'], .led),
    (['r', 'g', 'b'], .rgb),
    (['s', 'u', 'b', 's', 'c', 'r', 'i', 'b', 'e'], .subscribe),
    (['q', 'u', 'e', 'r', 'y'], .query)]

/-- The transforms of an event entry (30_encoding R74). -/
def eventXfTable : List (List Char × EventXf) :=
  [(['i', 'd', 'e', 'n', 't', 'i', 't', 'y'], .identity),
    (['b', 'o', 'o', 'l', 'e', 'a', 'n'], .boolean),
    (['t', 'e', 'm', 'p', 'e', 'r', 'a', 't', 'u', 'r', 'e'], .temperature)]

/-- The transforms of a command entry (30_encoding R74). -/
def commandXfTable : List (List Char × CommandXf) :=
  [(['i', 'd', 'e', 'n', 't', 'i', 't', 'y'], .identity),
    (['s', 'e', 'r', 'v', 'i', 'c', 'e', 's'], .services),
    (['r', 'g', 'b'], .rgb)]

/-- The mnemonics (30_encoding R52, R74). -/
def mnemonicTable : List (List Char × Opcode) :=
  [(['P', 'A', 'T', '_', 'C', 'O', 'N', 'S', 'T', 'R', 'U', 'C', 'T'], .patConstruct),
    (['P', 'A', 'T', '_', 'M', 'A', 'T', 'C', 'H'], .patMatch),
    (['P', 'A', 'T', '_', 'S', 'U', 'B', 'S', 'E', 'T'], .patSubset),
    (['C', 'H', 'E', 'C', 'K', '_', 'O', 'V', 'E', 'R', 'L', 'A', 'P'], .checkOverlap),
    (['E', 'X', 'T', 'R', 'A', 'C', 'T'], .extract),
    (['T', 'R', 'A', 'N', 'S', 'L', 'A', 'T', 'E'], .translate),
    (['L', 'O', 'A', 'D', '_', 'E', 'V', 'E', 'N', 'T', 'S'], .loadEvents),
    (['L', 'O', 'A', 'D', '_', 'C', 'O', 'M', 'M', 'A', 'N', 'D', 'S'], .loadCommands),
    (['S', 'E', 'T', '_', 'H', 'A', 'N', 'D', 'L', 'E', 'R'], .setHandler),
    (['S', 'E', 'T', '_', 'D', 'E', 'F', 'A', 'U', 'L', 'T', '_', 'H', 'A', 'N', 'D', 'L', 'E', 'R'], .setDefaultHandler),
    (['D', 'E', 'C', 'O', 'D', 'E'], .decode),
    (['E', 'N', 'C', 'O', 'D', 'E', '_', 'S', 'E', 'N', 'D'], .encodeSend),
    (['E', 'N', 'C', '_', 'S', 'E', 'R', 'V', 'I', 'C', 'E', 'S'], .encServices),
    (['E', 'N', 'C', '_', 'R', 'G', 'B'], .encRgb),
    (['D', 'E', 'C', '_', 'T', 'E', 'M', 'P'], .decTemp)]

/-- A number operand. -/
def parseNumber : AsmParser Nat
  | .number n :: ts => some (n, ts)
  | _ => none

/-- A mask operand: a quoted text, or `mask(n)` with `n` a 16-bit number (30_encoding R74). -/
def parseMask : AsmParser AsmMask
  | .quoted cs :: ts => some (.text cs, ts)
  | .word w :: .openGroup :: .number n :: .closeGroup :: ts =>
    if w = ['m', 'a', 's', 'k'] then (fieldOf 16 n).map fun m => (.raw m, ts) else none
  | _ => none

/-- A name operand: symbolic or a number (30_encoding R74). -/
def parseName {α : Type} (table : List (List Char × α)) : AsmParser (AsmName α)
  | .number n :: ts => some (.number n, ts)
  | .word w :: ts => (lookupWord table w).map fun a => (.symbol a, ts)
  | _ => none

/-- The end of a catalog entry after its mask: nothing, or a comma and a transform. -/
def parseEntryEnd {xf : Type} (xfs : List (List Char × xf)) : AsmParser (Option xf)
  | .closeGroup :: ts => some (none, ts)
  | .comma :: .word w :: .closeGroup :: ts => (lookupWord xfs w).map fun x => (some x, ts)
  | _ => none

/-- A catalog entry, `(name, "mask")` or `(name, "mask", xf)` (30_encoding R74). -/
def parseEntry {name xf : Type} (names : List (List Char × name)) (xfs : List (List Char × xf)) :
    AsmParser (AsmEntry name xf)
  | .openGroup :: ts =>
    match parseName names ts with
    | some (n, .comma :: ts) =>
      match parseMask ts with
      | none => none
      | some (m, ts) => (parseEntryEnd xfs ts).map fun x => ({ name := n, mask := m, xf := x.1 }, x.2)
    | _ => none
  | _ => none

/-- One or more items separated by commas, up to the closing bracket; at most as many as the first argument. -/
def parseItems {α : Type} (item : AsmParser α) : Nat → AsmParser (List α)
  | 0, _ => none
  | k + 1, ts =>
    match item ts with
    | some (a, .closeList :: rest) => some ([a], rest)
    | some (a, .comma :: rest) => (parseItems item k rest).map fun x => (a :: x.1, x.2)
    | _ => none

/-- A list in square brackets (30_encoding R74). -/
def parseList {α : Type} (item : AsmParser α) : AsmParser (List α)
  | .openList :: .closeList :: ts => some ([], ts)
  | .openList :: ts => parseItems item ts.length ts
  | _ => none

/-! ### Lines -/

/-- A line of one operand. -/
def oneOperand {α : Type} (p : AsmParser α) (k : α → AsmLine) (ts : List AsmToken) : Option AsmLine :=
  match p ts with
  | some (a, []) => some (k a)
  | _ => none

/-- A line of two operands. -/
def twoOperands {α β : Type} (p : AsmParser α) (q : AsmParser β) (k : α → β → AsmLine) (ts : List AsmToken) :
    Option AsmLine :=
  match p ts with
  | some (a, .comma :: rest) =>
    match q rest with
    | some (b, []) => some (k a b)
    | _ => none
  | _ => none

/-- The operands of each mnemonic (the table of 30_encoding R74). DESIGN CHOICE (assumption log 7), safe for every claim
about a step: the arguments of ENCODE_SEND, ENC_SERVICES and ENC_RGB are numbers only; R74 does not say whether the service
and palette names of 42_codecs R109 and R111 may be written, and a line that writes one is rejected. -/
def parseOperands (op : Opcode) (ts : List AsmToken) : Option AsmLine :=
  match op with
  | .patConstruct => oneOperand parseMask .patConstruct ts
  | .patMatch => twoOperands parseMask parseNumber .patMatch ts
  | .patSubset => twoOperands parseMask parseMask .patSubset ts
  | .checkOverlap => oneOperand (parseList parseMask) .checkOverlap ts
  | .extract => twoOperands parseMask parseNumber .extract ts
  | .translate => twoOperands parseMask parseNumber .translate ts
  | .loadEvents => oneOperand (parseList (parseEntry eventNameTable eventXfTable)) .loadEvents ts
  | .loadCommands => oneOperand (parseList (parseEntry commandNameTable commandXfTable)) .loadCommands ts
  | .setHandler => twoOperands (parseName eventNameTable) parseNumber .setHandler ts
  | .setDefaultHandler => oneOperand parseNumber .setDefaultHandler ts
  | .decode => oneOperand parseNumber .decode ts
  | .encodeSend => twoOperands (parseName commandNameTable) (parseList parseNumber) .encodeSend ts
  | .encServices => oneOperand (parseList parseNumber) .encServices ts
  | .encRgb => oneOperand (parseList parseNumber) .encRgb ts
  | .decTemp => oneOperand parseNumber .decTemp ts

/-- The line of a text: a mnemonic, then its operands (30_encoding R74). -/
def parseLine (text : List Char) : Option AsmLine :=
  match tokensFrom .between text with
  | some (.word w :: ts) =>
    match lookupWord mnemonicTable w with
    | none => none
    | some op => parseOperands op ts
  | _ => none

/-- The request frame of a text, or a rejection (30_encoding R74: every line is exactly one request). -/
def assembleText (text : List Char) : Option (List Word) :=
  match parseLine text with
  | none => none
  | some line => assemble line

end Sys2Proof.Machine
end

