-- ==== Sys2Proof/Safety.lean ====
section
/-! DEFINITION. What counts as a good state and a good run, and the spec's own vocabulary for claims: valid masks, the
range a mask claims, the status of a response. -/

namespace Sys2Proof.Machine

/-! ### Masks and ranges, as the spec defines them -/

/-- A valid mask word, by the two conditions of 30_encoding R47. -/
def ValidMask (m : MaskWord) : Prop :=
  wildcardFlags m &&& valueBits m = 0 ∧ ∃ k, k ≤ 8 ∧ wildcardFlags m = BitVec.ofNat 8 (2 ^ k - 1)

/-- The mask word with `k` wildcards under the bits `v` (30_encoding R46): valid when `v` is a multiple of `2^k`. -/
def maskOf (k : Nat) (v : Byte) : MaskWord := BitVec.ofNat 8 (2 ^ k - 1) ++ v

/-- A byte is in the inclusive range from the mask read with every wildcard as 0 to the mask read with every wildcard
as 1 (40_bitpattern R76, R78). -/
abbrev Claims (m : MaskWord) (b : Byte) : Prop := valueBits m ≤ b ∧ b ≤ (valueBits m ||| wildcardFlags m)

/-- The ranges two masks claim have no byte in common (40_bitpattern R88). -/
def DisjointRanges (m m' : MaskWord) : Prop := ∀ b : Byte, ¬(Claims m b ∧ Claims m' b)

/-- The pattern that 40_bitpattern R76 derives from a valid mask word. -/
def patternOf (m : MaskWord) : Pattern :=
  { mask := m
    low := valueBits m
    high := valueBits m ||| wildcardFlags m
    mb := Nat.log2 ((wildcardFlags m).toNat + 1) }

/-- In the sorted order of the overlap check, pattern `i` of the list stands before pattern `j`: it is broader, or
equally broad and earlier in the list (40_bitpattern R83, R84). -/
def SortedBefore (ps : List Pattern) (i j : Nat) : Prop :=
  ∃ p q, ps[i]? = some p ∧ ps[j]? = some q ∧ (q.mb < p.mb ∨ (p.mb = q.mb ∧ i < j))

/-- `VTYPE` and `VALUE` of a payload under a decode transform (42_codecs R106; 30_encoding R71). -/
def transformedBits (xf : EventXf) (raw : Byte) : BitVec 14 :=
  match xf with
  | .identity => 0#2 ++ (0#4 ++ raw)
  | .boolean => 1#2 ++ (if raw = 0 then 0#12 else 1#12)
  | .temperature => 2#2 ++ (raw.setWidth 12 + 20#12)

/-! ### Responses -/

/-- `STATUS`, bits 27:24 of a response's first word (30_encoding R66). -/
def responseStatus (ws : List Word) : BitVec 4 := (ws.headD 0).extractLsb' 24 4

/-- The statuses that each operation's own rule can answer: OK and the errors of 60_exceptions R154. `IllegalRequest` is
answered for frames that spell no operation, so not here. A wire row has the statuses of the operation that gives it its
meaning. -/
def ownStatuses : Instr → List (BitVec 4)
  | .patConstruct _ | .patMatch _ _ | .patSubset _ _ => [0, 1]
  | .checkOverlap _ | .loadEvents _ | .loadCommands _ => [0, 1, 2]
  | .extract _ _ => [0, 1, 7]
  | .translate _ _ => [0, 1, 6]
  | .setHandler _ _ => [0, 4]
  | .setDefaultHandler _ | .decTemp _ => [0]
  | .decode _ | .wireEventLight _ | .wireEventKnob _ | .wireEventTemperature _ => [0, 3]
  | .encodeSend _ _ | .wireCommandServo _ | .wireCommandLed _ | .wireCommandRgb _ | .wireCommandSubscribe _
  | .wireCommandQuery _ => [0, 5, 8, 9, 6]
  | .encServices _ => [0, 8]
  | .encRgb _ => [0, 9]

/-! ### Operands of an assembler line -/

/-- A mask operand spells a mask word, as a text or raw (30_encoding R74). -/
def MaskSpells (x : AsmMask) (m : MaskWord) : Prop := x = .raw m ∨ ∃ cs, x = .text cs ∧ maskOfText cs = some m

/-- An event name operand spells a name id: as the number, or by the table of 30_encoding R49. -/
def EventSpells (x : AsmName EventName) (n : NameId) : Prop :=
  x = .number n.toNat ∨ ∃ name, x = .symbol name ∧
    (name, n) ∈ [(EventName.light, 0#8), (.knob, 1#8), (.temperature, 2#8), (.motion, 3#8), (.button1, 4#8),
      (.button2, 5#8)]

/-- A command name operand spells a name id: as the number, or by the table of 30_encoding R49. -/
def CommandSpells (x : AsmName CommandName) (n : NameId) : Prop :=
  x = .number n.toNat ∨ ∃ name, x = .symbol name ∧
    (name, n) ∈ [(CommandName.servo, 0#8), (.led, 1#8), (.rgb, 2#8), (.subscribe, 3#8), (.query, 4#8)]

/-! ### Kinds of instruction -/

/-- The fifteen operations of 30_encoding R52, as against the wire rows of the opcode table. -/
def isOperation : Instr → Bool
  | .patConstruct _ | .patMatch _ _ | .patSubset _ _ | .checkOverlap _ | .extract _ _ | .translate _ _
  | .loadEvents _ | .loadCommands _ | .setHandler _ _ | .setDefaultHandler _ | .decode _ | .encodeSend _ _
  | .encServices _ | .encRgb _ | .decTemp _ => true
  | .wireEventLight _ | .wireEventKnob _ | .wireEventTemperature _ | .wireCommandServo _ | .wireCommandLed _
  | .wireCommandRgb _ | .wireCommandSubscribe _ | .wireCommandQuery _ => false

/-- The decode sub-protocol (43_dispatcher R140). -/
def decodeSide : Instr → Bool
  | .loadEvents _ | .setHandler _ _ | .setDefaultHandler _ | .decode _ => true
  | .patConstruct _ | .patMatch _ _ | .patSubset _ _ | .checkOverlap _ | .extract _ _ | .translate _ _
  | .loadCommands _ | .encodeSend _ _ | .encServices _ | .encRgb _ | .decTemp _ | .wireEventLight _ | .wireEventKnob _
  | .wireEventTemperature _ | .wireCommandServo _ | .wireCommandLed _ | .wireCommandRgb _ | .wireCommandSubscribe _
  | .wireCommandQuery _ => false

/-- The encode sub-protocol (43_dispatcher R140). -/
def encodeSide : Instr → Bool
  | .loadCommands _ | .encodeSend _ _ => true
  | .patConstruct _ | .patMatch _ _ | .patSubset _ _ | .checkOverlap _ | .extract _ _ | .translate _ _
  | .loadEvents _ | .setHandler _ _ | .setDefaultHandler _ | .decode _ | .encServices _ | .encRgb _ | .decTemp _
  | .wireEventLight _ | .wireEventKnob _ | .wireEventTemperature _ | .wireCommandServo _ | .wireCommandLed _
  | .wireCommandRgb _ | .wireCommandSubscribe _ | .wireCommandQuery _ => false

/-- The nine operations that touch no state (30_encoding R52; 40_bitpattern R91; 42_codecs R118). -/
def touchesNoState : Instr → Bool
  | .patConstruct _ | .patMatch _ _ | .patSubset _ _ | .checkOverlap _ | .extract _ _ | .translate _ _
  | .encServices _ | .encRgb _ | .decTemp _ => true
  | .loadEvents _ | .loadCommands _ | .setHandler _ _ | .setDefaultHandler _ | .decode _ | .encodeSend _ _
  | .wireEventLight _ | .wireEventKnob _ | .wireEventTemperature _ | .wireCommandServo _ | .wireCommandLed _
  | .wireCommandRgb _ | .wireCommandSubscribe _ | .wireCommandQuery _ => false

/-! ### Good states -/

/-- The event catalog's invariants (10_state R17, R18): within capacity, every entry the pattern of its own valid mask,
and a list that passes the overlap check. -/
structure EventCatalogGood (s : State) : Prop where
  within : s.evCount ≤ s.cfg.nEv.toNat
  derived : ∀ e ∈ s.ev, construct e.pat.mask = some e.pat
  noOverlap : overlapError (s.ev.map EventEntry.pat) = none

/-- The command catalog's invariants (10_state R19, R20). -/
structure CommandCatalogGood (s : State) : Prop where
  within : s.cmdCount ≤ s.cfg.nCmd.toNat
  derived : ∀ c ∈ s.cmd, construct c.pat.mask = some c.pat
  noOverlap : overlapError (s.cmd.map CommandEntry.pat) = none
  uniqueNames : (s.cmd.map CommandEntry.name).Nodup

/-- The registry's invariants: a slot that holds a token is the slot of a valid entry's name (10_state R22), and the
list is in its canonical form. -/
structure RegistryGood (s : State) : Prop where
  registered : ∀ n, hregRead s.hreg n ≠ none → eventNamed s n = true
  canonical : hregSorted s.hreg = true

/-- A good state: what holds after reset and after every step (10_state R18, R20, R22). -/
structure State.Good (s : State) : Prop where
  events : EventCatalogGood s
  commands : CommandCatalogGood s
  registry : RegistryGood s

end Sys2Proof.Machine
end

