-- ==== Sys2Proof/Certificates/Slice0/Obligations.lean ====
section
/-! DEFINITION. The statements for the provers, from the numbered rules of the spec. -/

open Sys2Proof Sys2Proof.Machine

/-- After reset the event catalog, the command catalog, every registry slot and the default handler are empty; DECODE of
any byte answers UnrecognizedByte, SET_HANDLER of any name UnknownEvent, ENCODE_SEND of any name UnknownCommand, and
nothing else changes. The spec marks this, in whole or in part, as derived from other rules: "With the reset state,
DECODE of any byte answers `UnrecognizedByte`, SET_HANDLER of any name answers `UnknownEvent` and ENCODE_SEND of any
name answers `UnknownCommand`" A part of it is a decision of the spec, 92_eei_decisions D7 (assumption log 5). (R26) -/
def Obligations.ResetLeavesEveryTableEmpty : Prop :=
  State.reset.ev = [] ∧ State.reset.evCount = 0 ∧ State.reset.cmd = [] ∧ State.reset.cmdCount = 0 ∧
  (∀ n, hregRead State.reset.hreg n = none) ∧ State.reset.defH = none ∧
  (∀ b, exec (.decode b) State.reset =
    .next { State.reset with trace := State.reset.trace ++ [.rsp [0xB#4 ++ (3#4 ++ (0#16 ++ b))]] }) ∧
  (∀ n t, exec (.setHandler n t) State.reset =
    .next { State.reset with trace := State.reset.trace ++ [.rsp [0x9#4 ++ (4#4 ++ (0#16 ++ n))]] }) ∧
  (∀ n args, exec (.encodeSend n args) State.reset =
    .next { State.reset with trace := State.reset.trace ++ [.rsp [0xC#4 ++ (5#4 ++ (0#16 ++ n))]] })

/-- A reset event puts both catalogs, the registry and the default handler to their reset values and emits nothing; that
it waits its turn among the pending inputs and keeps the capacities, the later inputs and the outputs so far is the
model's choice (assumption log 2, DESIGN CHOICE). No instruction clears a default handler that is set. Loading two
empty catalogs, the one example that R163 gives, reaches the rest of the reset state; the last clause is about those
two loads only. A part of it is a decision of the spec, 92_eei_decisions D7 (assumption log 5). (R163) -/
def Obligations.ResetEventEmptiesState : Prop :=
  (∀ s rest, s.pending = .rst :: rest →
    step s = .next { s with ev := [], cmd := [], hreg := [], defH := none, pending := rest }) ∧
  (∀ i s t, exec i s = .next t → s.defH ≠ none → t.defH ≠ none) ∧
  (∀ s, ∃ t u, exec (.loadEvents []) s = .next t ∧ exec (.loadCommands []) t = .next u ∧
    u.ev = State.reset.ev ∧ u.cmd = State.reset.cmd ∧ u.hreg = State.reset.hreg ∧ u.defH = s.defH)

/-- Where the oldest pending input decodes to an instruction, step takes that input and is exec of the instruction; that
inputs stand in a pending list is the model's choice (assumption log 2). With nothing pending a step answers the same
state: this clause is the model's reading (assumption log 2, DEDUCED) of the spec's sentence "the block is idle
between requests and keeps all state". (R6, R37, R161) -/
def Obligations.StepRunsDecodedInstruction : Prop :=
  (∀ s input rest i, s.pending = input :: rest → decodeInput s.cfg input = .instr i →
    step s = exec i { s with pending := rest }) ∧
  (∀ s, s.pending = [] → step s = .next s)

/-- Where the decoder refuses a frame with a cause, the step takes the frame and answers one word: the echoed OP (0 for an
empty frame), status 15 and the number of the cause; nothing else changes. (30_encoding.md section 4, 30_encoding.md
section 5, 60_exceptions.md section 1) -/
def Obligations.IllegalFrameAnsweredOnly : Prop :=
  ∀ s ws rest c, s.pending = .frame ws :: rest → decodeFrame s.cfg ws = .error c →
    step s = .next { s with
      pending := rest
      trace := s.trace ++ [.rsp [
        (match ws with
          | [] => 0#4
          | h :: _ => h.extractLsb' 28 4) ++
        (15#4 ++ (0#16 ++ (match c with
          | .reservedOpcode => 1#8
          | .reservedBit => 2#8
          | .overCapacity => 3#8
          | .reservedTransform => 4#8
          | .repeatedName => 5#8
          | .frameLength => 6#8)))]] }

/-- For a frame with OP 8: a reserved header bit gives cause 2, else a wrong length cause 6, else a count above N_CMD
cause 3, else a reserved bit of an entry cause 2, else a reserved transform selector cause 4, else a repeated name
cause 5, else the frame is the load of its entries. (R61, R56, R70) -/
def Obligations.LoadCommandsFrameChecksInOrder : Prop :=
  ∀ (cfg : Params) (h : Word) (rest : List Word), h.extractLsb' 28 4 = 8#4 →
    if h.extractLsb' 24 4 ≠ 0#4 ∨ h.extractLsb' 0 16 ≠ 0#16 then decodeFrame cfg (h :: rest) = .error .reservedBit
    else if rest.length ≠ (h.extractLsb' 16 8).toNat then decodeFrame cfg (h :: rest) = .error .frameLength
    else if cfg.nCmd.toNat < rest.length then decodeFrame cfg (h :: rest) = .error .overCapacity
    else if ∃ w ∈ rest, w.extractLsb' 16 4 ≠ 0#4 then decodeFrame cfg (h :: rest) = .error .reservedBit
    else if ∃ w ∈ rest, 3 ≤ (w.extractLsb' 20 4).toNat then decodeFrame cfg (h :: rest) = .error .reservedTransform
    else if ¬(rest.map fun w => w.extractLsb' 24 8).Nodup then decodeFrame cfg (h :: rest) = .error .repeatedName
    else ∃ cs : List CommandSpec, decodeFrame cfg (h :: rest) = .ok (.loadCommands cs) ∧
      cs.map CommandSpec.name = rest.map (fun w => w.extractLsb' 24 8) ∧
      cs.map CommandSpec.mask = rest.map (fun w => w.extractLsb' 0 16) ∧
      cs.map (fun c => (match c.xf with
        | .identity => 0#4
        | .services => 1#4
        | .rgb => 2#4)) = rest.map (fun w => w.extractLsb' 20 4)

/-- An empty frame is refused with cause 6, and a frame whose OP is 0 with cause 1 whatever else it holds. A part of it is
a decision of the spec, 92_eei_decisions D12 (assumption log 5). (R62) -/
def Obligations.EmptyOrReservedOpcodeRefused : Prop :=
  (∀ cfg : Params, decodeFrame cfg [] = .error .frameLength) ∧
  (∀ (cfg : Params) (h : Word) (rest : List Word), h.extractLsb' 28 4 = 0#4 →
    decodeFrame cfg (h :: rest) = .error .reservedOpcode) ∧
  (∀ c : BitVec 4, c ≠ 0 → ∃ op, opcodeOf c = some op)

/-- For every instruction that is well formed for the capacities, with every operand at every value, decoding its frame or
wire byte gives the instruction. (R51, R53, R54, R55, R56, R57, R58, R59, R61) -/
def Obligations.DecodeOfEncodeIsInstruction : Prop :=
  ∀ (cfg : Params) (i : Instr), i.wellFormed cfg = true → decodeInput cfg (encode i) = .instr i

/-- If the frame decoder accepts a frame as an instruction, the instruction is well formed for the capacities and the
frame is exactly its encoding: no bit of an accepted frame is ignored. (R61, R63, R60) -/
def Obligations.AcceptedFrameIsEncoding : Prop :=
  ∀ (cfg : Params) (ws : List Word) (i : Instr), decodeFrame cfg ws = .ok i →
    encode i = .frame ws ∧ i.wellFormed cfg = true

/-- Each one-word or two-word frame written from its format table decodes to its operation with the operands of its
fields, and a nonzero byte of PAT_CONSTRUCT or name of SET_DEFAULT_HANDLER is refused with cause 2. (R53, R54, R55,
R57, R58) -/
def Obligations.FixedFormatFieldsDecode : Prop :=
  ∀ (cfg : Params) (m m' : MaskWord) (b : Byte) (v : BitVec 32) (n : NameId) (t : Token),
    decodeFrame cfg [0x1#4 ++ (0#4 ++ (0#8 ++ m))] = .ok (.patConstruct m) ∧
    (b ≠ 0 → decodeFrame cfg [0x1#4 ++ (0#4 ++ (b ++ m))] = .error .reservedBit) ∧
    decodeFrame cfg [0x2#4 ++ (0#4 ++ (b ++ m))] = .ok (.patMatch m b) ∧
    decodeFrame cfg [0x3#4 ++ (0#4 ++ (0#8 ++ m)), 0#16 ++ m'] = .ok (.patSubset m m') ∧
    decodeFrame cfg [0x5#4 ++ (0#4 ++ (b ++ m))] = .ok (.extract m b) ∧
    decodeFrame cfg [0x6#4 ++ (0#4 ++ (0#8 ++ m)), v] = .ok (.translate m v) ∧
    decodeFrame cfg [0x9#4 ++ (0#4 ++ (n ++ t))] = .ok (.setHandler n t) ∧
    decodeFrame cfg [0xA#4 ++ (0#4 ++ (0#8 ++ t))] = .ok (.setDefaultHandler t) ∧
    (n ≠ 0 → decodeFrame cfg [0xA#4 ++ (0#4 ++ (n ++ t))] = .error .reservedBit) ∧
    decodeFrame cfg [0xB#4 ++ (0#4 ++ (b ++ 0#16))] = .ok (.decode b) ∧
    decodeFrame cfg [0xF#4 ++ (0#4 ++ (b ++ 0#16))] = .ok (.decTemp b)

/-- A frame whose header declares the number of its entry or argument words, each word written from the format table,
decodes to the operation with those entries in order, within the capacities and, for LOAD_COMMANDS, with names
pairwise different. (R56, R59, R61) -/
def Obligations.ListFormatFieldsDecode : Prop :=
  ∀ (cfg : Params) (ms : List MaskWord) (es : List EventSpec) (cs : List CommandSpec) (n : NameId) (args : List Arg),
    (ms.length ≤ max cfg.nEv.toNat cfg.nCmd.toNat →
      decodeFrame cfg ((0x4#4 ++ (0#4 ++ (BitVec.ofNat 8 ms.length ++ 0#16)) : Word) :: ms.map fun m => 0#16 ++ m) =
        .ok (.checkOverlap ms)) ∧
    (es.length ≤ cfg.nEv.toNat →
      decodeFrame cfg ((0x7#4 ++ (0#4 ++ (BitVec.ofNat 8 es.length ++ 0#16)) : Word) :: es.map fun e =>
        e.name ++ ((match e.xf with
          | .identity => 0#4
          | .boolean => 1#4
          | .temperature => 2#4) ++ (0#4 ++ e.mask))) = .ok (.loadEvents es)) ∧
    (cs.length ≤ cfg.nCmd.toNat → (cs.map CommandSpec.name).Nodup →
      decodeFrame cfg ((0x8#4 ++ (0#4 ++ (BitVec.ofNat 8 cs.length ++ 0#16)) : Word) :: cs.map fun c =>
        c.name ++ ((match c.xf with
          | .identity => 0#4
          | .services => 1#4
          | .rgb => 2#4) ++ (0#4 ++ c.mask))) = .ok (.loadCommands cs)) ∧
    (args.length ≤ 255 →
      decodeFrame cfg ((0xC#4 ++ (0#4 ++ (n ++ (0#8 ++ BitVec.ofNat 8 args.length))) : Word) ::
        args.map fun a => 0#16 ++ a) = .ok (.encodeSend n args) ∧
      decodeFrame cfg ((0xD#4 ++ (0#4 ++ (0#8 ++ (0#8 ++ BitVec.ofNat 8 args.length))) : Word) ::
        args.map fun a => 0#16 ++ a) = .ok (.encServices args) ∧
      decodeFrame cfg ((0xE#4 ++ (0#4 ++ (0#8 ++ (0#8 ++ BitVec.ofNat 8 args.length))) : Word) ::
        args.map fun a => 0#16 ++ a) = .ok (.encRgb args))

/-- The example frames that the spec prints with each format decode to the instructions it names, at the suggested
capacities. The last clause is no example of the spec: that the 8-bit table word 0x85, which the rows temperature and
subscribe both claim, is read as the event is the model's choice (assumption log 6, DESIGN CHOICE). (30_encoding.md
section 3) -/
def Obligations.SpecExampleWordsDecode : Prop :=
  decodeFrame Params.suggested [0x20500F50] = .ok (.patMatch 0x0F50 0x50) ∧
  decodeFrame Params.suggested [0x30000750, 0x00000F50] = .ok (.patSubset 0x0750 0x0F50) ∧
  decodeFrame Params.suggested [0x60000F30, 0x0000000A] = .ok (.translate 0x0F30 10) ∧
  decodeFrame Params.suggested [0x70020000, 0x00000F50, 0x01000750] =
    .ok (.loadEvents [⟨0, .identity, 0x0F50⟩, ⟨1, .identity, 0x0750⟩]) ∧
  decodeFrame Params.suggested [0x9002BEEF] = .ok (.setHandler 2 0xBEEF) ∧
  decodeFrame Params.suggested [0xB0970000] = .ok (.decode 151) ∧
  decodeFrame Params.suggested [0xC0020003, 0x00000001, 0x00000002, 0x00000003] = .ok (.encodeSend 2 [1, 2, 3]) ∧
  decodeTableWord 8 0x85 = some (.wireEventTemperature 5)

/-- The invariants of the two catalogs and of the registry hold in the reset state, whatever the capacities. (R18, R20,
R22, R26) -/
def Obligations.ResetIsGood : Prop :=
  State.reset.Good ∧ ∀ cfg : Params, State.Good { State.reset with cfg := cfg }

/-- In a good state the catalogs are within capacity, every entry is the pattern of its valid mask, both catalogs pass the
overlap check, command names are unique, registered names are in the event catalog and the registry is in canonical
form. Every step from any good state that answers a next state answers a good state. (R18, R20, R22) -/
def Obligations.StepKeepsGood : Prop :=
  ∀ s t : State, s.Good → step s = .next t → t.Good

/-- From the reset state with any capacities and any sequence of inputs, in every state that any number of steps reaches
no byte is in the range of two entries of the event catalog, and no two entries of the command catalog claim a common
byte or share a name. (R18, R20, R88, R129) -/
def Obligations.ReachableCatalogMatchesOnce : Prop :=
  ∀ (cfg : Params) (inputs : List Input) (k : Nat) (t : State),
    Host.Core.run Sys2Proof.core k ({ State.reset with cfg := cfg, pending := inputs } : State) = .next t →
    (∀ (b : Byte) (i j : Nat) (e e' : EventEntry), t.ev[i]? = some e → t.ev[j]? = some e' →
      e.pat.low ≤ b ∧ b ≤ e.pat.high → e'.pat.low ≤ b ∧ b ≤ e'.pat.high → i = j) ∧
    (∀ (b : Byte) (i j : Nat) (c c' : CommandEntry), t.cmd[i]? = some c → t.cmd[j]? = some c' →
      c.pat.low ≤ b ∧ b ≤ c.pat.high → c'.pat.low ≤ b ∧ b ≤ c'.pat.high → i = j) ∧
    (∀ (i j : Nat) (c c' : CommandEntry), t.cmd[i]? = some c → t.cmd[j]? = some c' → c.name = c'.name → i = j)

/-- For every operation and state, exec answers a next state whose trace is the old one, then at most one dispatch record
(DECODE only) or TX byte (ENCODE_SEND only), then one response frame of one or two words; the capacities and the
waiting inputs are unchanged. The spec marks this, in whole or in part, as derived from other rules: "for each
request, first the optional output (`DISPATCH(rec)` or `TX(b)`), then the response frame." (R44) -/
def Obligations.EveryRequestAnsweredOnce : Prop :=
  ∀ (i : Instr) (s : State), isOperation i = true → ∃ t out ws, exec i s = .next t ∧
    t.trace = s.trace ++ (out ++ [.rsp ws]) ∧ (ws.length = 1 ∨ ws.length = 2) ∧
    (out = [] ∨ (∃ w0 w1 b, out = [.dispatch w0 w1] ∧ i = .decode b) ∨
      ∃ b n args, out = [.tx b] ∧ i = .encodeSend n args) ∧
    t.cfg = s.cfg ∧ t.pending = s.pending

/-- If the last response of an operation carries a status other than OK, the next state is the state before with that one
response appended to the trace: no state is written and nothing appears on DISPATCH or TX. The same holds for a frame
that spells no operation. The spec marks this, in whole or in part, as derived from other rules: "no state is written:
`EV`, `EV_COUNT`, `CMD`, `CMD_COUNT`, `HREG` and `DEF_H` are exactly as before the request" (R152) -/
def Obligations.ErrorChangesNothingButTrace : Prop :=
  (∀ (i : Instr) (s t : State), isOperation i = true → exec i s = .next t →
    ∃ ws, t.trace.getLast? = some (.rsp ws) ∧
      (responseStatus ws ≠ 0 → t = { s with trace := s.trace ++ [.rsp ws] })) ∧
  (∀ (s t : State) (fr : List Word) (rest : List Input) (c : IllegalCause), s.pending = .frame fr :: rest →
    decodeFrame s.cfg fr = .error c → step s = .next t →
    ∃ ws, responseStatus ws = 15 ∧ t = { s with pending := rest, trace := s.trace ++ [.rsp ws] })

/-- The response of each operation echoes its OP and carries OK or one of the error statuses listed for it; every OP has a
frame that is refused as IllegalRequest. The spec marks this, in whole or in part, as derived from other rules: "Every
operation can also return OK and `IllegalRequest`." (R154) -/
def Obligations.StatusesPerOperation : Prop :=
  (∀ (i : Instr) (s t : State), isOperation i = true → exec i s = .next t →
    ∃ ws h rest, t.trace.getLast? = some (.rsp ws) ∧ responseStatus ws ∈ ownStatuses i ∧
      encode i = .frame (h :: rest) ∧ (ws.headD 0).extractLsb' 28 4 = h.extractLsb' 28 4) ∧
  (∀ (cfg : Params) (op : BitVec 4), op ≠ 0 → decodeFrame cfg [op ++ (1#4 ++ 0#24)] = .error .reservedBit)

/-- LOAD_EVENTS can change the event catalog and the registry only, LOAD_COMMANDS the command catalog only, SET_HANDLER
one registry slot only, SET_DEFAULT_HANDLER the default handler only; every other operation leaves all four as they
were. (R24) -/
def Obligations.OnlyFourOperationsWriteState : Prop :=
  ∀ (i : Instr) (s t : State), isOperation i = true → exec i s = .next t →
    match i with
    | .loadEvents _ => t.cmd = s.cmd ∧ t.defH = s.defH
    | .loadCommands _ => t.ev = s.ev ∧ t.hreg = s.hreg ∧ t.defH = s.defH
    | .setHandler n _ => t.ev = s.ev ∧ t.cmd = s.cmd ∧ t.defH = s.defH ∧
        ∀ n', n' ≠ n → hregRead t.hreg n' = hregRead s.hreg n'
    | .setDefaultHandler _ => t.ev = s.ev ∧ t.cmd = s.cmd ∧ t.hreg = s.hreg
    | _ => t.ev = s.ev ∧ t.cmd = s.cmd ∧ t.hreg = s.hreg ∧ t.defH = s.defH

/-- For each of PAT_CONSTRUCT, PAT_MATCH, PAT_SUBSET, CHECK_OVERLAP, EXTRACT, TRANSLATE, ENC_SERVICES, ENC_RGB and
DEC_TEMP there is one response that it gives on every state, and nothing but the trace changes. The spec marks this,
in whole or in part, as derived from other rules: "calling them between catalog operations changes nothing that DECODE
or ENCODE_SEND can observe. They never emit on DISPATCH or TX." (R91, R118) -/
def Obligations.NineOperationsArePure : Prop :=
  ∀ i : Instr, touchesNoState i = true →
    ∃ ws : List Word, ∀ s : State, exec i s = .next { s with trace := s.trace ++ [.rsp ws] }

/-- An operation of the encode side leaves the decode side's state as it was, and its effect on the command catalog and
its outputs are the same from any two states with the same command catalog; and the same the other way round. (R140) -/
def Obligations.SubProtocolsDoNotInterfere : Prop :=
  (∀ (i : Instr) (s s' : State), encodeSide i = true → s.cmd = s'.cmd →
    ∃ t t' out, exec i s = .next t ∧ exec i s' = .next t' ∧ t.cmd = t'.cmd ∧
      t.trace = s.trace ++ out ∧ t'.trace = s'.trace ++ out ∧
      t.ev = s.ev ∧ t.hreg = s.hreg ∧ t.defH = s.defH) ∧
  (∀ (i : Instr) (s s' : State), decodeSide i = true → s.ev = s'.ev → s.hreg = s'.hreg → s.defH = s'.defH →
    ∃ t t' out, exec i s = .next t ∧ exec i s' = .next t' ∧ t.ev = t'.ev ∧ t.hreg = t'.hreg ∧ t.defH = t'.defH ∧
      t.trace = s.trace ++ out ∧ t'.trace = s'.trace ++ out ∧ t.cmd = s.cmd)

/-- If a step with an input waiting answers a next state, exactly the oldest input is gone, the capacities are unchanged,
and the new trace extends the old one. For request frames this is R37; that a reset event waits in turn and keeps the
later inputs, the capacities and the earlier outputs is the model's choice (assumption log 2, DESIGN CHOICE), and the
inputs rx and tx are the model's own (assumption logs 3 and 4). (R37) -/
def Obligations.StepsTakeInputsInOrder : Prop :=
  ∀ (s t : State) (input : Input) (rest : List Input), s.pending = input :: rest → step s = .next t →
    t.pending = rest ∧ t.cfg = s.cfg ∧ ∃ out, t.trace = s.trace ++ out

/-- Issuing LOAD_EVENTS, LOAD_COMMANDS, SET_HANDLER or SET_DEFAULT_HANDLER a second time on the state the first left
changes no piece of state. (R34) -/
def Obligations.StateWritersAreIdempotent : Prop :=
  ∀ (i : Instr) (s t u : State),
    ((∃ es, i = .loadEvents es) ∨ (∃ cs, i = .loadCommands cs) ∨ (∃ n k, i = .setHandler n k) ∨
      ∃ k, i = .setDefaultHandler k) →
    exec i s = .next t → exec i t = .next u →
    u.ev = t.ev ∧ u.cmd = t.cmd ∧ u.hreg = t.hreg ∧ u.defH = t.defH

/-- For the mask with k trailing wildcards under value bits v, PAT_CONSTRUCT answers OK with mb = k, high = v + 2^k - 1
and low = v; for every mask word that is not valid it answers InvalidMask with the mask word; nothing else changes.
(R75) -/
def Obligations.PatConstructGivesRange : Prop :=
  (∀ (s : State) (k : Nat) (v : Byte), k ≤ 8 → v.toNat % 2 ^ k = 0 →
    exec (.patConstruct (maskOf k v)) s = .next { s with trace := s.trace ++
      [.rsp [0x1#4 ++ (0#4 ++ (0#4 ++ (BitVec.ofNat 4 k ++ ((v + BitVec.ofNat 8 (2 ^ k - 1)) ++ v))))]] }) ∧
  (∀ (s : State) (m : MaskWord), ¬ValidMask m →
    exec (.patConstruct m) s = .next { s with trace := s.trace ++ [.rsp [0x1#4 ++ (1#4 ++ (m ++ 0#8))]] })

/-- For the mask with k wildcards under v, PAT_MATCH answers 1 exactly when v <= byte <= v + 2^k - 1, else 0; for an
invalid mask it answers InvalidMask; nothing else changes. The spec marks this, in whole or in part, as derived from
other rules: "`low ≤ byteValue ≤ high`. This is the *only* match primitive; it never inspects the mask symbol-by-
symbol at runtime" (R78) -/
def Obligations.PatMatchIsInclusiveRange : Prop :=
  (∀ (s : State) (k : Nat) (v b : Byte), k ≤ 8 → v.toNat % 2 ^ k = 0 →
    exec (.patMatch (maskOf k v) b) s = .next { s with trace := s.trace ++
      [.rsp [0x2#4 ++ (0#4 ++ (if v.toNat ≤ b.toNat ∧ b.toNat ≤ v.toNat + (2 ^ k - 1) then 1#24 else 0#24))]] }) ∧
  (∀ (k : Nat) (v b : Byte), k ≤ 8 → v.toNat % 2 ^ k = 0 →
    (v.toNat ≤ b.toNat ∧ b.toNat ≤ v.toNat + (2 ^ k - 1) ↔ b.toNat / 2 ^ k = v.toNat / 2 ^ k)) ∧
  (∀ (s : State) (m : MaskWord) (b : Byte), ¬ValidMask m →
    exec (.patMatch m b) s = .next { s with trace := s.trace ++ [.rsp [0x2#4 ++ (1#4 ++ (m ++ 0#8))]] })

/-- For two constructed masks PAT_SUBSET answers 1 exactly when the symbols agree from B's mb up to 7, which is when A is
no broader and has B's prefix, which is when A's range lies in B's; an invalid A is reported before an invalid B. The
spec marks this, in whole or in part, as derived from other rules: "compares the fixed-bit prefix of length `8 −
other.masked_bits` between the two masks for exact symbol equality. True means every byte matching `self` also matches
`other`." A part of it is a decision of the spec, 92_eei_decisions D18 (assumption log 5). (R80, R81) -/
def Obligations.PatSubsetIsContainment : Prop :=
  (∀ (s : State) (k j : Nat) (v w : Byte), k ≤ 8 → v.toNat % 2 ^ k = 0 → j ≤ 8 → w.toNat % 2 ^ j = 0 →
    ∃ bit : Bool,
      exec (.patSubset (maskOf k v) (maskOf j w)) s = .next { s with trace := s.trace ++
        [.rsp [0x3#4 ++ (0#4 ++ (if bit then 1#24 else 0#24))]] } ∧
      (bit = true ↔ ∀ i, j ≤ i → i < 8 → symbolAt (maskOf k v) i = symbolAt (maskOf j w) i) ∧
      (bit = true ↔ k ≤ j ∧ v.toNat / 2 ^ j = w.toNat / 2 ^ j) ∧
      (bit = true ↔ w.toNat ≤ v.toNat ∧ v.toNat + (2 ^ k - 1) ≤ w.toNat + (2 ^ j - 1))) ∧
  (∀ (s : State) (m m' : MaskWord), ¬ValidMask m →
    exec (.patSubset m m') s = .next { s with trace := s.trace ++ [.rsp [0x3#4 ++ (1#4 ++ (m ++ 0#8))]] }) ∧
  (∀ (s : State) (m m' : MaskWord), ValidMask m → ¬ValidMask m' →
    exec (.patSubset m m') s = .next { s with trace := s.trace ++ [.rsp [0x3#4 ++ (1#4 ++ (m' ++ 1#8))]] })

/-- On constructed patterns is_subset_of is reflexive and transitive, it holds both ways exactly for equal masks, and of
any two exactly one holds: the first is a subset of the second, the second is a strict subset of the first, or their
ranges are disjoint. The spec marks this, in whole or in part, as derived from other rules: "For any two constructed
patterns exactly one of these holds: `a` is a subset of `o`; `o` is a strict subset of `a`; or their ranges are
disjoint." (R82) -/
def Obligations.PatternRangesNestOrAreDisjoint : Prop :=
  ∀ (m m' m'' : MaskWord) (p q r : Pattern), construct m = some p → construct m' = some q → construct m'' = some r →
    isSubsetOf p p = true ∧
    (isSubsetOf p q = true → isSubsetOf q r = true → isSubsetOf p r = true) ∧
    (isSubsetOf p q = true ∧ isSubsetOf q p = true ↔ m = m') ∧
    (isSubsetOf p q = true ∨ (isSubsetOf q p = true ∧ m ≠ m') ∨ DisjointRanges m m') ∧
    ¬(isSubsetOf p q = true ∧ (isSubsetOf q p = true ∧ m ≠ m')) ∧
    ¬(isSubsetOf p q = true ∧ DisjointRanges m m') ∧
    ¬((isSubsetOf q p = true ∧ m ≠ m') ∧ DisjointRanges m m')

/-- For a list of constructible masks, CHECK_OVERLAP answers PatternOverlapError if some pattern is a subset of another
entry's, and OK with the count if none is, whatever the order of the list; nothing else changes. The spec marks this,
in whole or in part, as derived from other rules: "`assert_no_overlaps(P)` fails iff there are two different indices
`i != j` with `is_subset_of(P[i], P[j])`." (R86) -/
def Obligations.OverlapCheckIsComplete : Prop :=
  ∀ (s : State) (ms : List MaskWord) (ps : List Pattern), ms.map construct = ps.map some →
    ((∃ (i j : Nat) (p q : Pattern), i ≠ j ∧ ps[i]? = some p ∧ ps[j]? = some q ∧ isSubsetOf p q = true) →
      ∃ ws, responseStatus ws = 2 ∧ exec (.checkOverlap ms) s = .next { s with trace := s.trace ++ [.rsp ws] }) ∧
    ((∀ (i j : Nat) (p q : Pattern), i ≠ j → ps[i]? = some p → ps[j]? = some q → isSubsetOf p q = false) →
      exec (.checkOverlap ms) s = .next { s with trace := s.trace ++
        [.rsp [0x4#4 ++ (0#4 ++ (0#16 ++ BitVec.ofNat 8 ms.length))]] })

/-- When the check fails it names the pair (i, j) that the two loops meet first in the sorted order: i stands before j,
pattern j is a subset of pattern i, and every other such pair comes later; the response carries the two indices and
the two mask words. A part of it is a decision of the spec, 92_eei_decisions D19 (assumption log 5). (R85) -/
def Obligations.OverlapReportsFirstPair : Prop :=
  ∀ (s : State) (ms : List MaskWord) (ps : List Pattern), ms.map construct = ps.map some →
    (∃ (i j : Nat) (p q : Pattern), i ≠ j ∧ ps[i]? = some p ∧ ps[j]? = some q ∧ isSubsetOf p q = true) →
    ∃ (i j : Nat) (p q : Pattern), SortedBefore ps i j ∧ ps[i]? = some p ∧ ps[j]? = some q ∧ isSubsetOf q p = true ∧
      (∀ (x y : Nat) (p' q' : Pattern), SortedBefore ps x y → ps[x]? = some p' → ps[y]? = some q' → isSubsetOf q' p' = true →
        SortedBefore ps i x ∨ (x = i ∧ (y = j ∨ SortedBefore ps j y))) ∧
      exec (.checkOverlap ms) s = .next { s with trace := s.trace ++
        [.rsp [0x4#4 ++ (2#4 ++ (0#8 ++ (BitVec.ofNat 8 i ++ BitVec.ofNat 8 j))), p.mask ++ q.mask]] }

/-- In a list whose first invalid mask stands at some index, CHECK_OVERLAP, LOAD_EVENTS and LOAD_COMMANDS answer
InvalidMask with that mask and index, whatever overlaps the list holds, and nothing else changes. A part of it is a
decision of the spec, 92_eei_decisions D18 (assumption log 5). (R89) -/
def Obligations.FirstInvalidMaskIsReported : Prop :=
  (∀ (s : State) (pre : List MaskWord) (m : MaskWord) (post : List MaskWord),
    (∀ x ∈ pre, ValidMask x) → ¬ValidMask m →
    exec (.checkOverlap (pre ++ m :: post)) s = .next { s with trace := s.trace ++
      [.rsp [0x4#4 ++ (1#4 ++ (m ++ BitVec.ofNat 8 pre.length))]] }) ∧
  (∀ (s : State) (pre : List EventSpec) (e : EventSpec) (post : List EventSpec),
    (∀ x ∈ pre, ValidMask x.mask) → ¬ValidMask e.mask →
    exec (.loadEvents (pre ++ e :: post)) s = .next { s with trace := s.trace ++
      [.rsp [0x7#4 ++ (1#4 ++ (e.mask ++ BitVec.ofNat 8 pre.length))]] }) ∧
  (∀ (s : State) (pre : List CommandSpec) (c : CommandSpec) (post : List CommandSpec),
    (∀ x ∈ pre, ValidMask x.mask) → ¬ValidMask c.mask →
    exec (.loadCommands (pre ++ c :: post)) s = .next { s with trace := s.trace ++
      [.rsp [0x8#4 ++ (1#4 ++ (c.mask ++ BitVec.ofNat 8 pre.length))]] })

/-- If a list of constructed patterns passes the overlap check, a byte in the ranges of two of its patterns is in the
range of one entry only: the two indices are equal. The spec marks this, in whole or in part, as derived from other
rules: "the ranges `[P[i].low, P[i].high]` are pairwise disjoint, so every byte value matches at most one pattern of
the list." (R88) -/
def Obligations.PassingListClaimsEachByteOnce : Prop :=
  ∀ (ms : List MaskWord) (ps : List Pattern), ms.map construct = ps.map some → overlapError ps = none →
    ∀ (b : Byte) (i j : Nat) (p q : Pattern), ps[i]? = some p → ps[j]? = some q →
      p.low ≤ b ∧ b ≤ p.high → q.low ≤ b ∧ b ≤ q.high → i = j

/-- For the mask with k wildcards under v and a byte in its range, EXTRACT answers OK with mb = k and RAW = byte - v,
which is the low k bits of the byte and below 2^k; outside the range it answers PatternMismatch, and for an invalid
mask InvalidMask; nothing else changes. (R93) -/
def Obligations.ExtractGivesPayload : Prop :=
  (∀ (s : State) (k : Nat) (v b : Byte), k ≤ 8 → v.toNat % 2 ^ k = 0 →
    (v.toNat ≤ b.toNat ∧ b.toNat ≤ v.toNat + (2 ^ k - 1) →
      (b - v).toNat = b.toNat % 2 ^ k ∧
      exec (.extract (maskOf k v) b) s = .next { s with trace := s.trace ++
        [.rsp [0x5#4 ++ (0#4 ++ (0#4 ++ (BitVec.ofNat 4 k ++ (0#8 ++ (b - v)))))]] }) ∧
    (¬(v.toNat ≤ b.toNat ∧ b.toNat ≤ v.toNat + (2 ^ k - 1)) →
      exec (.extract (maskOf k v) b) s = .next { s with trace := s.trace ++
        [.rsp [0x5#4 ++ (7#4 ++ (0#16 ++ b))]] })) ∧
  (∀ (s : State) (m : MaskWord) (b : Byte), ¬ValidMask m →
    exec (.extract m b) s = .next { s with trace := s.trace ++ [.rsp [0x5#4 ++ (1#4 ++ (m ++ 0#8))]] })

/-- For the mask with k wildcards under v, TRANSLATE of a value below 2^k answers OK with the byte v + value; from 2^k on
it answers ValueOverflow with mb and the value; for an invalid mask InvalidMask; nothing is sent and nothing else
changes. (R99) -/
def Obligations.TranslateInsertsOrOverflows : Prop :=
  (∀ (s : State) (k : Nat) (v : Byte) (x : BitVec 32), k ≤ 8 → v.toNat % 2 ^ k = 0 →
    (x.toNat < 2 ^ k → exec (.translate (maskOf k v) x) s = .next { s with trace := s.trace ++
      [.rsp [0x6#4 ++ (0#4 ++ (0#16 ++ (v + x.setWidth 8)))]] }) ∧
    (2 ^ k ≤ x.toNat → exec (.translate (maskOf k v) x) s = .next { s with trace := s.trace ++
      [.rsp [0x6#4 ++ (6#4 ++ (0#20 ++ BitVec.ofNat 4 k)), x]] })) ∧
  (∀ (s : State) (m : MaskWord) (x : BitVec 32), ¬ValidMask m →
    exec (.translate m x) s = .next { s with trace := s.trace ++ [.rsp [0x6#4 ++ (1#4 ++ (m ++ 0#8))]] })

/-- For every constructed pattern, inserting a value below 2^mb gives a byte that matches the pattern and whose payload is
the value; and inserting the payload of a matching byte gives the byte. The spec marks this, in whole or in part, as
derived from other rules: "for every constructed pattern `p` and every `v < 2^p.mb`, `extract_arg(p, insert(p, v)) =
v`; and for every byte `b` with `matches(p, b)`, `insert(p, extract_arg(p, b)) = b`" (R102, R103) -/
def Obligations.PayloadRoundTrip : Prop :=
  ∀ (m : MaskWord) (p : Pattern), construct m = some p →
    (∀ v, v < 2 ^ p.mb → ∃ b, insertValue p v = some b ∧ p.low ≤ b ∧ b ≤ p.high ∧
      extractArg p b = some (BitVec.ofNat 8 v)) ∧
    (∀ b, inRange p b = true → ∃ raw, extractArg p b = some raw ∧ insertValue p raw.toNat = some b)

/-- For service ids 0 to 6, ENC_SERVICES answers OK with a value of at most 63 whose bit k (0 to 5) is set exactly when k
or 6 is among the arguments; at the first argument above 6 it answers UnknownServiceName with the argument and its
position; nothing else changes. (R108) -/
def Obligations.EncServicesOrsServiceBits : Prop :=
  (∀ (s : State) (args : List Arg), (∀ a ∈ args, a.toNat ≤ 6) → ∃ x : BitVec 24,
    x.toNat ≤ 63 ∧ (∀ k, k < 6 → (x.getLsbD k = true ↔ ∃ a ∈ args, a.toNat = k ∨ a.toNat = 6)) ∧
    exec (.encServices args) s = .next { s with trace := s.trace ++ [.rsp [0xD#4 ++ (0#4 ++ x)]] }) ∧
  (∀ (s : State) (pre : List Arg) (a : Arg) (post : List Arg), (∀ x ∈ pre, x.toNat ≤ 6) → 6 < a.toNat →
    exec (.encServices (pre ++ a :: post)) s = .next { s with trace := s.trace ++
      [.rsp [0xD#4 ++ (8#4 ++ (a ++ BitVec.ofNat 8 pre.length))]] })

/-- With one argument of at most 7 ENC_RGB answers the palette value, with one above 7 CodecArgError cause 2; with three
arguments it answers r*16 + g*4 + b exactly, no channel being checked; with any other number CodecArgError cause 1;
nothing else changes. A part of it is a decision of the spec, 92_eei_decisions D21 (assumption log 5). (R110) -/
def Obligations.EncRgbPaletteOrPacked : Prop :=
  (∀ (s : State) (a : Arg), a.toNat ≤ 7 → ∃ x : BitVec 24, [0, 48, 12, 3, 15, 51, 60, 63][a.toNat]? = some x.toNat ∧
    exec (.encRgb [a]) s = .next { s with trace := s.trace ++ [.rsp [0xE#4 ++ (0#4 ++ x)]] }) ∧
  (∀ (s : State) (a : Arg), 7 < a.toNat →
    exec (.encRgb [a]) s = .next { s with trace := s.trace ++ [.rsp [0xE#4 ++ (9#4 ++ 2#24)]] }) ∧
  (∀ (s : State) (r g b : Arg), ∃ x : BitVec 24, x.toNat = r.toNat * 16 + g.toNat * 4 + b.toNat ∧
    exec (.encRgb [r, g, b]) s = .next { s with trace := s.trace ++ [.rsp [0xE#4 ++ (0#4 ++ x)]] }) ∧
  (∀ (s : State) (args : List Arg), args.length ≠ 1 → args.length ≠ 3 →
    exec (.encRgb args) s = .next { s with trace := s.trace ++ [.rsp [0xE#4 ++ (9#4 ++ 1#24)]] })

/-- DEC_TEMP answers OK with VTYPE 2 and VALUE = raw + 20, which denotes raw / 2 + 10; nothing else changes. A part of it
is a decision of the spec, 92_eei_decisions D15 (assumption log 5). (R113) -/
def Obligations.DecTempCountsHalfUnits : Prop :=
  ∀ (s : State) (raw : Byte), ∃ x : BitVec 12, x.toNat = raw.toNat + 20 ∧
    exec (.decTemp raw) s = .next { s with trace := s.trace ++ [.rsp [0xF#4 ++ (0#4 ++ (0#10 ++ (2#2 ++ x)))]] }

/-- If every mask of the list is valid and the claimed ranges are pairwise disjoint, LOAD_EVENTS replaces the event
catalog by exactly the list's entries in order, each with its mask, low, high, mb, name and transform, empties the
registry, answers OK with the count, and changes nothing else. (R120, R121) -/
def Obligations.LoadEventsInstallsWholeCatalog : Prop :=
  ∀ (s : State) (es : List EventSpec), (∀ e ∈ es, ValidMask e.mask) →
    es.Pairwise (fun e e' => DisjointRanges e.mask e'.mask) →
    exec (.loadEvents es) s = .next { s with
      ev := es.map fun e => { name := e.name, pat := patternOf e.mask, xf := e.xf }
      hreg := []
      trace := s.trace ++ [.rsp [0x7#4 ++ (0#4 ++ (0#16 ++ BitVec.ofNat 8 es.length))]] }

/-- If every mask of the list is valid and the claimed ranges are pairwise disjoint, LOAD_COMMANDS replaces the command
catalog by exactly the list's entries in order, answers OK with the count, and changes nothing else: not the event
catalog, not the registry, not the default handler. (R135) -/
def Obligations.LoadCommandsInstallsWholeCatalog : Prop :=
  ∀ (s : State) (cs : List CommandSpec), (∀ c ∈ cs, ValidMask c.mask) →
    cs.Pairwise (fun c c' => DisjointRanges c.mask c'.mask) →
    exec (.loadCommands cs) s = .next { s with
      cmd := cs.map fun c => { name := c.name, pat := patternOf c.mask, xf := c.xf }
      trace := s.trace ++ [.rsp [0x8#4 ++ (0#4 ++ (0#16 ++ BitVec.ofNat 8 cs.length))]] }

/-- If some mask of the list is invalid the load answers InvalidMask; if all are valid and two of the claimed ranges meet
it answers PatternOverlapError; if its frame spells no operation it is answered IllegalRequest. In each case both
catalogs, the registry and the default handler are as before. The spec marks this, in whole or in part, as derived
from other rules: "the old catalog stays active and the old handlers stay registered." (R122) -/
def Obligations.RefusedLoadChangesNothing : Prop :=
  (∀ (s : State) (es : List EventSpec),
    ((∃ e ∈ es, ¬ValidMask e.mask) → ∃ ws, responseStatus ws = 1 ∧
      exec (.loadEvents es) s = .next { s with trace := s.trace ++ [.rsp ws] }) ∧
    ((∀ e ∈ es, ValidMask e.mask) → ¬es.Pairwise (fun e e' => DisjointRanges e.mask e'.mask) →
      ∃ ws, responseStatus ws = 2 ∧ exec (.loadEvents es) s = .next { s with trace := s.trace ++ [.rsp ws] })) ∧
  (∀ (s : State) (cs : List CommandSpec),
    ((∃ c ∈ cs, ¬ValidMask c.mask) → ∃ ws, responseStatus ws = 1 ∧
      exec (.loadCommands cs) s = .next { s with trace := s.trace ++ [.rsp ws] }) ∧
    ((∀ c ∈ cs, ValidMask c.mask) → ¬cs.Pairwise (fun c c' => DisjointRanges c.mask c'.mask) →
      ∃ ws, responseStatus ws = 2 ∧ exec (.loadCommands cs) s = .next { s with trace := s.trace ++ [.rsp ws] })) ∧
  (∀ (s : State) (fr : List Word) (rest : List Input) (c : IllegalCause), s.pending = .frame fr :: rest →
    decodeFrame s.cfg fr = .error c → ∃ ws, responseStatus ws = 15 ∧
      step s = .next { s with pending := rest, trace := s.trace ++ [.rsp ws] })

/-- If some entry of the event catalog has the name, SET_HANDLER writes the token into that name's slot, answers OK and
changes nothing else, every other slot included; if none has it, it answers UnknownEvent and changes nothing else.
(R123) -/
def Obligations.SetHandlerWritesOneSlot : Prop :=
  (∀ (s : State) (n : NameId) (t : Token), (∃ e ∈ s.ev, e.name = n) → ∃ h : List (NameId × Token),
    hregRead h n = some t ∧ (∀ n', n' ≠ n → hregRead h n' = hregRead s.hreg n') ∧
    exec (.setHandler n t) s = .next { s with hreg := h, trace := s.trace ++ [.rsp [0x9#4 ++ (0#4 ++ 0#24)]] }) ∧
  (∀ (s : State) (n : NameId) (t : Token), (∀ e ∈ s.ev, e.name ≠ n) →
    exec (.setHandler n t) s = .next { s with trace := s.trace ++ [.rsp [0x9#4 ++ (4#4 ++ (0#16 ++ n))]] })

/-- SET_DEFAULT_HANDLER writes the default handler, answers OK and changes nothing else, in every state. (R126) -/
def Obligations.SetDefaultHandlerIsUnconditional : Prop :=
  ∀ (s : State) (t : Token),
    exec (.setDefaultHandler t) s = .next { s with
      defH := some t
      trace := s.trace ++ [.rsp [0xA#4 ++ (0#4 ++ 0#24)]] }

/-- Let entry i be the first of the event catalog whose range holds the byte, and raw the byte minus its low. If its name
has a specific handler, DECODE emits a record with the transformed value and that token; else, if there is a default
handler, a record with the name and the raw payload; else no record. The response carries name, index, raw, the
handler kind, the transformed value and the token. Nothing else changes. A part of it is a decision of the spec,
92_eei_decisions D23 (assumption log 5). (R130, R131, R132) -/
def Obligations.DecodeDispatchesFirstMatch : Prop :=
  ∀ (s : State) (b : Byte) (i : Nat) (e : EventEntry), s.ev[i]? = some e → construct e.pat.mask = some e.pat →
    e.pat.low ≤ b ∧ b ≤ e.pat.high →
    (∀ j e', j < i → s.ev[j]? = some e' → ¬(e'.pat.low ≤ b ∧ b ≤ e'.pat.high)) →
    (∀ t, hregRead s.hreg e.name = some t →
      exec (.decode b) s = .next { s with trace := s.trace ++
        [.dispatch (1#2 ++ (transformedBits e.xf (b - e.pat.low) ++ t)) 0,
          .rsp [0xB#4 ++ (0#4 ++ (e.name ++ (BitVec.ofNat 8 i ++ (b - e.pat.low)))),
            1#2 ++ (transformedBits e.xf (b - e.pat.low) ++ t)]] }) ∧
    (∀ d, hregRead s.hreg e.name = none → s.defH = some d →
      exec (.decode b) s = .next { s with trace := s.trace ++
        [.dispatch (2#2 ++ (0#14 ++ d)) (0#16 ++ (e.name ++ (b - e.pat.low))),
          .rsp [0xB#4 ++ (0#4 ++ (e.name ++ (BitVec.ofNat 8 i ++ (b - e.pat.low)))),
            2#2 ++ (transformedBits e.xf (b - e.pat.low) ++ d)]] }) ∧
    (hregRead s.hreg e.name = none → s.defH = none →
      exec (.decode b) s = .next { s with trace := s.trace ++
        [.rsp [0xB#4 ++ (0#4 ++ (e.name ++ (BitVec.ofNat 8 i ++ (b - e.pat.low)))),
            0#2 ++ (transformedBits e.xf (b - e.pat.low) ++ 0#16)]] })

/-- If no entry of the event catalog has the byte in its range, DECODE answers UnrecognizedByte with the byte, emits
nothing and changes nothing else. (R128) -/
def Obligations.DecodeReportsUnclaimedByte : Prop :=
  ∀ (s : State) (b : Byte), (∀ e ∈ s.ev, ¬(e.pat.low ≤ b ∧ b ≤ e.pat.high)) →
    exec (.decode b) s = .next { s with trace := s.trace ++ [.rsp [0xB#4 ++ (3#4 ++ (0#16 ++ b))]] }

/-- An unknown name answers UnknownCommand whatever the arguments. For a known name: a transform error is reported as it
is; a result of 2^mb or more answers ValueOverflow with mb and the value; else exactly one byte, low + result, appears
on TX before the OK response with that byte. Nothing else changes. (R138) -/
def Obligations.EncodeSendStagesInOrder : Prop :=
  (∀ (s : State) (n : NameId) (args : List Arg), (∀ c ∈ s.cmd, c.name ≠ n) →
    exec (.encodeSend n args) s = .next { s with trace := s.trace ++ [.rsp [0xC#4 ++ (5#4 ++ (0#16 ++ n))]] }) ∧
  (∀ (s : State) (c : CommandEntry) (args : List Arg), (s.cmd.map CommandEntry.name).Nodup → c ∈ s.cmd →
    construct c.pat.mask = some c.pat →
    (∀ e, encodeTransform c.xf args = .error e →
      exec (.encodeSend c.name args) s = .next { s with trace := s.trace ++
        [.rsp ((0xC#4 ++ (errorStatus e ++ errorInfo e) : Word) :: (errorSecondWord e).toList)] }) ∧
    (∀ v, encodeTransform c.xf args = .ok v → 2 ^ c.pat.mb ≤ v →
      exec (.encodeSend c.name args) s = .next { s with trace := s.trace ++
        [.rsp [0xC#4 ++ (6#4 ++ (0#20 ++ BitVec.ofNat 4 c.pat.mb)), BitVec.ofNat 32 v]] }) ∧
    (∀ v, encodeTransform c.xf args = .ok v → v < 2 ^ c.pat.mb →
      exec (.encodeSend c.name args) s = .next { s with trace := s.trace ++
        [.tx (c.pat.low + BitVec.ofNat 8 v), .rsp [0xC#4 ++ (0#4 ++ (0#16 ++ (c.pat.low + BitVec.ofNat 8 v)))]] }))

/-- IDENTITY gives its one argument and refuses any other number with CodecArgError cause 1; SERVICES gives the value, or
raises the error, that ENC_SERVICES answers for the same arguments; RGB likewise with ENC_RGB. (R107, R104) -/
def Obligations.EncodeTransformsAsTheTableSays : Prop :=
  (∀ a : Arg, encodeTransform .identity [a] = .ok a.toNat) ∧
  (∀ args : List Arg, args.length ≠ 1 → encodeTransform .identity args = .error (.codecArg 1)) ∧
  (∀ (s : State) (args : List Arg) (v : Nat), encodeTransform .services args = .ok v →
    v ≤ 63 ∧ exec (.encServices args) s = .next { s with trace := s.trace ++
      [.rsp [0xD#4 ++ (0#4 ++ BitVec.ofNat 24 v)]] }) ∧
  (∀ (s : State) (args : List Arg) (e : OpError), encodeTransform .services args = .error e →
    errorStatus e = 8 ∧ exec (.encServices args) s = .next { s with trace := s.trace ++
      [.rsp [0xD#4 ++ (8#4 ++ errorInfo e)]] }) ∧
  (∀ (s : State) (args : List Arg) (v : Nat), encodeTransform .rgb args = .ok v →
    v < 2 ^ 21 ∧ exec (.encRgb args) s = .next { s with trace := s.trace ++
      [.rsp [0xE#4 ++ (0#4 ++ BitVec.ofNat 24 v)]] }) ∧
  (∀ (s : State) (args : List Arg) (e : OpError), encodeTransform .rgb args = .error e →
    errorStatus e = 9 ∧ exec (.encRgb args) s = .next { s with trace := s.trace ++
      [.rsp [0xE#4 ++ (9#4 ++ errorInfo e)]] })

/-- In a good state whose event catalog holds the row's entry (name id, mask and transform of the opcode table) and whose
registry holds a handler for the name, the wire row's instruction emits the record with the transformed payload and
answers as DECODE does. That the wire rows run as DECODE is the model's reading of the table's notes (assumption log
3). (30_encoding.md section 1, 43_dispatcher.md section 3) -/
def Obligations.WireEventReachesItsHandler : Prop :=
  (∀ (s : State) (p : BitVec 6) (i : Nat) (e : EventEntry) (t : Token), s.Good → s.ev[i]? = some e → e.name = 0 →
    e.pat = patternOf 0x3F00 → e.xf = .identity → hregRead s.hreg 0 = some t →
    exec (.wireEventLight p) s = .next { s with trace := s.trace ++
      [.dispatch (1#2 ++ (transformedBits .identity (0#2 ++ p) ++ t)) 0,
        .rsp [0xB#4 ++ (0#4 ++ (0#8 ++ (BitVec.ofNat 8 i ++ (0#2 ++ p)))),
          1#2 ++ (transformedBits .identity (0#2 ++ p) ++ t)]] }) ∧
  (∀ (s : State) (p : BitVec 6) (i : Nat) (e : EventEntry) (t : Token), s.Good → s.ev[i]? = some e → e.name = 1 →
    e.pat = patternOf 0x3F40 → e.xf = .identity → hregRead s.hreg 1 = some t →
    exec (.wireEventKnob p) s = .next { s with trace := s.trace ++
      [.dispatch (1#2 ++ (transformedBits .identity (0#2 ++ p) ++ t)) 0,
        .rsp [0xB#4 ++ (0#4 ++ (1#8 ++ (BitVec.ofNat 8 i ++ (0#2 ++ p)))),
          1#2 ++ (transformedBits .identity (0#2 ++ p) ++ t)]] }) ∧
  (∀ (s : State) (p : BitVec 6) (i : Nat) (e : EventEntry) (t : Token), s.Good → s.ev[i]? = some e → e.name = 2 →
    e.pat = patternOf 0x3F80 → e.xf = .temperature → hregRead s.hreg 2 = some t →
    exec (.wireEventTemperature p) s = .next { s with trace := s.trace ++
      [.dispatch (1#2 ++ (transformedBits .temperature (0#2 ++ p) ++ t)) 0,
        .rsp [0xB#4 ++ (0#4 ++ (2#8 ++ (BitVec.ofNat 8 i ++ (0#2 ++ p)))),
          1#2 ++ (transformedBits .temperature (0#2 ++ p) ++ t)]] })

/-- In a state whose command catalog has unique names and holds the row's entry (name id and mask of the opcode table)
with the identity transform, the wire row's instruction puts exactly the row's byte with its payload on TX and answers
OK with that byte. That the wire rows run as ENCODE_SEND is the model's reading of the table's notes (assumption log
4). (30_encoding.md section 1, 43_dispatcher.md section 5) -/
def Obligations.WireCommandSendsItsByte : Prop :=
  (∀ (s : State) (p : BitVec 5) (c : CommandEntry), (s.cmd.map CommandEntry.name).Nodup → c ∈ s.cmd → c.name = 0 →
    c.pat = patternOf 0x1F00 → c.xf = .identity →
    exec (.wireCommandServo p) s = .next { s with trace := s.trace ++
      [.tx (0b000#3 ++ p), .rsp [0xC#4 ++ (0#4 ++ (0#16 ++ (0b000#3 ++ p)))]] }) ∧
  (∀ (s : State) (p : BitVec 1) (c : CommandEntry), (s.cmd.map CommandEntry.name).Nodup → c ∈ s.cmd → c.name = 1 →
    c.pat = patternOf 0x0120 → c.xf = .identity →
    exec (.wireCommandLed p) s = .next { s with trace := s.trace ++
      [.tx (0b0010000#7 ++ p), .rsp [0xC#4 ++ (0#4 ++ (0#16 ++ (0b0010000#7 ++ p)))]] }) ∧
  (∀ (s : State) (p : BitVec 6) (c : CommandEntry), (s.cmd.map CommandEntry.name).Nodup → c ∈ s.cmd → c.name = 2 →
    c.pat = patternOf 0x3F40 → c.xf = .identity →
    exec (.wireCommandRgb p) s = .next { s with trace := s.trace ++
      [.tx (0b01#2 ++ p), .rsp [0xC#4 ++ (0#4 ++ (0#16 ++ (0b01#2 ++ p)))]] }) ∧
  (∀ (s : State) (p : BitVec 6) (c : CommandEntry), (s.cmd.map CommandEntry.name).Nodup → c ∈ s.cmd → c.name = 3 →
    c.pat = patternOf 0x3F80 → c.xf = .identity →
    exec (.wireCommandSubscribe p) s = .next { s with trace := s.trace ++
      [.tx (0b10#2 ++ p), .rsp [0xC#4 ++ (0#4 ++ (0#16 ++ (0b10#2 ++ p)))]] }) ∧
  (∀ (s : State) (p : BitVec 6) (c : CommandEntry), (s.cmd.map CommandEntry.name).Nodup → c ∈ s.cmd → c.name = 4 →
    c.pat = patternOf 0x3FC0 → c.xf = .identity →
    exec (.wireCommandQuery p) s = .next { s with trace := s.trace ++
      [.tx (0b11#2 ++ p), .rsp [0xC#4 ++ (0#4 ++ (0#16 ++ (0b11#2 ++ p)))]] })

/-- On every state each event row does what DECODE of its byte does, and each command row what ENCODE_SEND of its name id
with the payload as the one argument does. This is the model's reading of the opcode table's notes (assumption log 3
and 4). (30_encoding.md section 1) -/
def Obligations.WireRowsRunAsTheirOperation : Prop :=
  (∀ (p : BitVec 6) (s : State), exec (.wireEventLight p) s = exec (.decode (0b00#2 ++ p)) s ∧
    exec (.wireEventKnob p) s = exec (.decode (0b01#2 ++ p)) s ∧
    exec (.wireEventTemperature p) s = exec (.decode (0b10#2 ++ p)) s) ∧
  (∀ (p : BitVec 5) (s : State), exec (.wireCommandServo p) s = exec (.encodeSend 0 [0#11 ++ p]) s) ∧
  (∀ (p : BitVec 1) (s : State), exec (.wireCommandLed p) s = exec (.encodeSend 1 [0#15 ++ p]) s) ∧
  (∀ (p : BitVec 6) (s : State), exec (.wireCommandRgb p) s = exec (.encodeSend 2 [0#10 ++ p]) s ∧
    exec (.wireCommandSubscribe p) s = exec (.encodeSend 3 [0#10 ++ p]) s ∧
    exec (.wireCommandQuery p) s = exec (.encodeSend 4 [0#10 ++ p]) s)

/-- A mask text is rejected exactly when it has not eight characters or holds a character other than 0, 1 and the
underscore. In the word of an accepted text, symbol 7 - j is the (W, V) pair of character j: (0, 0) for 0, (0, 1) for
1, (1, 0) for the underscore. Every valid mask word is the word of some text. (R74, R11, R46) -/
def Obligations.MaskTextHasEightSymbols : Prop :=
  (∀ cs : List Char, maskOfText cs = none ↔ cs.length ≠ 8 ∨ ∃ c ∈ cs, c ≠ '0' ∧ c ≠ '1' ∧ c ≠ '_') ∧
  (∀ (cs : List Char) (m : MaskWord), maskOfText cs = some m → ∀ (j : Nat) (c : Char), cs[j]? = some c →
    (c = '0' → m.getLsbD (15 - j) = false ∧ m.getLsbD (7 - j) = false) ∧
    (c = '1' → m.getLsbD (15 - j) = false ∧ m.getLsbD (7 - j) = true) ∧
    (c = '_' → m.getLsbD (15 - j) = true ∧ m.getLsbD (7 - j) = false)) ∧
  (∀ m : MaskWord, ValidMask m → ∃ cs, maskOfText cs = some m)

/-- For PAT_CONSTRUCT, PAT_MATCH, PAT_SUBSET, EXTRACT, TRANSLATE, SET_HANDLER, SET_DEFAULT_HANDLER, DECODE and DEC_TEMP,
with the operands in the order of the table, each mask as a text or raw, each name symbolic (the id of R49) or a
number, each number within its field: the frame is the one word, or for PAT_SUBSET and TRANSLATE the two words, of the
format, each operand in its field. That a number is rejected where it does not fit its field is the model's choice
(assumption log 7) and not said here. (R74, R49, R53) -/
def Obligations.AssembledFixedFrames : Prop :=
  ∀ (x y : AsmMask) (m m' : MaskWord) (b : Byte) (v : BitVec 32) (e : AsmName EventName) (n : NameId) (t : Token),
    MaskSpells x m → MaskSpells y m' → EventSpells e n →
    assemble (.patConstruct x) = some [0x1#4 ++ (0#4 ++ (0#8 ++ m))] ∧
    assemble (.patMatch x b.toNat) = some [0x2#4 ++ (0#4 ++ (b ++ m))] ∧
    assemble (.patSubset x y) = some [0x3#4 ++ (0#4 ++ (0#8 ++ m)), 0#16 ++ m'] ∧
    assemble (.extract x b.toNat) = some [0x5#4 ++ (0#4 ++ (b ++ m))] ∧
    assemble (.translate x v.toNat) = some [0x6#4 ++ (0#4 ++ (0#8 ++ m)), v] ∧
    assemble (.setHandler e t.toNat) = some [0x9#4 ++ (0#4 ++ (n ++ t))] ∧
    assemble (.setDefaultHandler t.toNat) = some [0xA#4 ++ (0#4 ++ (0#8 ++ t))] ∧
    assemble (.decode b.toNat) = some [0xB#4 ++ (0#4 ++ (b ++ 0#16))] ∧
    assemble (.decTemp b.toNat) = some [0xF#4 ++ (0#4 ++ (b ++ 0#16))]

/-- For CHECK_OVERLAP, LOAD_EVENTS and LOAD_COMMANDS with at most 255 entries and ENCODE_SEND, ENC_SERVICES and ENC_RGB
with at most 255 arguments: the frame is the header with the count, then one word for each element in the order of the
line: the mask; the name id, the transform's code (identity when left out) and the mask; or the argument. (R74, R49,
R56, R59, R106) -/
def Obligations.AssembledListFrames : Prop :=
  (∀ (xs : List AsmMask) (ms : List MaskWord), xs.length ≤ 255 → List.Forall₂ MaskSpells xs ms →
    assemble (.checkOverlap xs) =
      some ((0x4#4 ++ (0#4 ++ (BitVec.ofNat 8 xs.length ++ 0#16)) : Word) :: ms.map fun m => 0#16 ++ m)) ∧
  (∀ (xs : List (AsmEntry EventName EventXf)) (ws : List Word), xs.length ≤ 255 →
    List.Forall₂ (fun (x : AsmEntry EventName EventXf) (w : Word) => ∃ n m c,
      EventSpells x.name n ∧ MaskSpells x.mask m ∧
      (x.xf, c) ∈ [(none, 0#4), (some .identity, 0#4), (some .boolean, 1#4), (some .temperature, 2#4)] ∧
      w = n ++ (c ++ (0#4 ++ m))) xs ws →
    assemble (.loadEvents xs) =
      some ((0x7#4 ++ (0#4 ++ (BitVec.ofNat 8 xs.length ++ 0#16)) : Word) :: ws)) ∧
  (∀ (xs : List (AsmEntry CommandName CommandXf)) (ws : List Word), xs.length ≤ 255 →
    List.Forall₂ (fun (x : AsmEntry CommandName CommandXf) (w : Word) => ∃ n m c,
      CommandSpells x.name n ∧ MaskSpells x.mask m ∧
      (x.xf, c) ∈ [(none, 0#4), (some .identity, 0#4), (some .services, 1#4), (some .rgb, 2#4)] ∧
      w = n ++ (c ++ (0#4 ++ m))) xs ws →
    assemble (.loadCommands xs) =
      some ((0x8#4 ++ (0#4 ++ (BitVec.ofNat 8 xs.length ++ 0#16)) : Word) :: ws)) ∧
  (∀ (e : AsmName CommandName) (n : NameId) (args : List Arg), args.length ≤ 255 → CommandSpells e n →
    assemble (.encodeSend e (args.map BitVec.toNat)) =
      some ((0xC#4 ++ (0#4 ++ (n ++ (0#8 ++ BitVec.ofNat 8 args.length))) : Word) :: args.map fun a => 0#16 ++ a) ∧
    assemble (.encServices (args.map BitVec.toNat)) =
      some ((0xD#4 ++ (0#4 ++ (0#8 ++ (0#8 ++ BitVec.ofNat 8 args.length))) : Word) :: args.map fun a => 0#16 ++ a) ∧
    assemble (.encRgb (args.map BitVec.toNat)) =
      some ((0xE#4 ++ (0#4 ++ (0#8 ++ (0#8 ++ BitVec.ofNat 8 args.length))) : Word) :: args.map fun a => 0#16 ++ a))

/-- The lines that the spec prints with formats P, PP, PV, H, B and A, and the LOAD_EVENTS line of its scenario S7, read
character by character, give the frames it prints beside them. (30_encoding.md section 3, 30_encoding.md section 6,
95_test_vectors.md section 1) -/
def Obligations.SpecExampleLinesAssemble : Prop :=
  assembleText "PAT_MATCH \"0101____\", 0x50".toList = some [0x20500F50] ∧
  assembleText "PAT_SUBSET \"01010___\", \"0101____\"".toList = some [0x30000750, 0x00000F50] ∧
  assembleText "TRANSLATE \"0011____\", 10".toList = some [0x60000F30, 0x0000000A] ∧
  assembleText "LOAD_EVENTS [(0,\"0101____\"), (1,\"01010___\")]".toList =
    some [0x70020000, 0x00000F50, 0x01000750] ∧
  assembleText "SET_HANDLER 2, 0xBEEF".toList = some [0x9002BEEF] ∧
  assembleText "DECODE 151".toList = some [0xB0970000] ∧
  assembleText "ENCODE_SEND 2, [1, 2, 3]".toList = some [0xC0020003, 0x00000001, 0x00000002, 0x00000003]

/-- For a frame with OP 7: a reserved header bit gives cause 2, else a wrong length cause 6, else a count above N_EV cause
3, else a reserved bit of an entry cause 2, else a reserved transform selector cause 4, else the frame is the load of
its entries, repeated names included. (R61, R56, R70) -/
def Obligations.LoadEventsFrameChecksInOrder : Prop :=
  ∀ (cfg : Params) (h : Word) (rest : List Word), h.extractLsb' 28 4 = 7#4 →
    if h.extractLsb' 24 4 ≠ 0#4 ∨ h.extractLsb' 0 16 ≠ 0#16 then decodeFrame cfg (h :: rest) = .error .reservedBit
    else if rest.length ≠ (h.extractLsb' 16 8).toNat then decodeFrame cfg (h :: rest) = .error .frameLength
    else if cfg.nEv.toNat < rest.length then decodeFrame cfg (h :: rest) = .error .overCapacity
    else if ∃ w ∈ rest, w.extractLsb' 16 4 ≠ 0#4 then decodeFrame cfg (h :: rest) = .error .reservedBit
    else if ∃ w ∈ rest, 3 ≤ (w.extractLsb' 20 4).toNat then decodeFrame cfg (h :: rest) = .error .reservedTransform
    else ∃ es : List EventSpec, decodeFrame cfg (h :: rest) = .ok (.loadEvents es) ∧
      es.map EventSpec.name = rest.map (fun w => w.extractLsb' 24 8) ∧
      es.map EventSpec.mask = rest.map (fun w => w.extractLsb' 0 16) ∧
      es.map (fun e => (match e.xf with
        | .identity => 0#4
        | .boolean => 1#4
        | .temperature => 2#4)) = rest.map (fun w => w.extractLsb' 20 4)

/-- For a frame with OP 4: a reserved header bit gives cause 2, else a wrong length cause 6, else a count above the larger
of N_EV and N_CMD cause 3, else a 1 in bits 31:16 of an entry cause 2, else the frame is the check of its masks. (R61,
R56, R70) -/
def Obligations.CheckOverlapFrameChecksInOrder : Prop :=
  ∀ (cfg : Params) (h : Word) (rest : List Word), h.extractLsb' 28 4 = 4#4 →
    if h.extractLsb' 24 4 ≠ 0#4 ∨ h.extractLsb' 0 16 ≠ 0#16 then decodeFrame cfg (h :: rest) = .error .reservedBit
    else if rest.length ≠ (h.extractLsb' 16 8).toNat then decodeFrame cfg (h :: rest) = .error .frameLength
    else if cfg.nEv.toNat < rest.length ∧ cfg.nCmd.toNat < rest.length then
      decodeFrame cfg (h :: rest) = .error .overCapacity
    else if ∃ w ∈ rest, w.extractLsb' 16 16 ≠ 0#16 then decodeFrame cfg (h :: rest) = .error .reservedBit
    else decodeFrame cfg (h :: rest) = .ok (.checkOverlap (rest.map fun w => w.extractLsb' 0 16))

/-- For a frame with OP 12, 13 or 14: a reserved header bit (the nibble Z, bits 15:8, and but for ENCODE_SEND the name)
gives cause 2, else a length other than 1 + ARGC cause 6, else a 1 in bits 31:16 of an argument cause 2, else the
frame is the operation with its arguments in order. (R61, R59, R70) -/
def Obligations.ArgumentFrameChecksInOrder : Prop :=
  ∀ (cfg : Params) (h : Word) (rest : List Word),
    h.extractLsb' 28 4 = 0xC#4 ∨ h.extractLsb' 28 4 = 0xD#4 ∨ h.extractLsb' 28 4 = 0xE#4 →
    if h.extractLsb' 24 4 ≠ 0#4 ∨ h.extractLsb' 8 8 ≠ 0#8 ∨
        (h.extractLsb' 28 4 ≠ 0xC#4 ∧ h.extractLsb' 16 8 ≠ 0#8) then
      decodeFrame cfg (h :: rest) = .error .reservedBit
    else if rest.length ≠ (h.extractLsb' 0 8).toNat then decodeFrame cfg (h :: rest) = .error .frameLength
    else if ∃ w ∈ rest, w.extractLsb' 16 16 ≠ 0#16 then decodeFrame cfg (h :: rest) = .error .reservedBit
    else
      (h.extractLsb' 28 4 = 0xC#4 → decodeFrame cfg (h :: rest) =
        .ok (.encodeSend (h.extractLsb' 16 8) (rest.map fun w => w.extractLsb' 0 16))) ∧
      (h.extractLsb' 28 4 = 0xD#4 → decodeFrame cfg (h :: rest) =
        .ok (.encServices (rest.map fun w => w.extractLsb' 0 16))) ∧
      (h.extractLsb' 28 4 = 0xE#4 → decodeFrame cfg (h :: rest) =
        .ok (.encRgb (rest.map fun w => w.extractLsb' 0 16)))

/-- For a frame of one of the nine operations of formats P, PP, PV, H and B: a reserved header bit of the format (the
nibble Z; bits 23:16 of PAT_CONSTRUCT, PAT_SUBSET, TRANSLATE and SET_DEFAULT_HANDLER; bits 15:0 of DECODE and
DEC_TEMP) gives cause 2, else a wrong length cause 6, else a 1 in bits 31:16 of the second word of PAT_SUBSET cause 2,
else the frame is the operation with its operands. (R61, R53, R60, R70) -/
def Obligations.FixedFrameChecksInOrder : Prop :=
  ∀ (cfg : Params) (h : Word) (rest : List Word),
    (h.extractLsb' 28 4 = 1#4 → decodeFrame cfg (h :: rest) =
      if h.extractLsb' 24 4 ≠ 0#4 ∨ h.extractLsb' 16 8 ≠ 0#8 then .error .reservedBit
      else if rest ≠ [] then .error .frameLength
      else .ok (.patConstruct (h.extractLsb' 0 16))) ∧
    (h.extractLsb' 28 4 = 2#4 → decodeFrame cfg (h :: rest) =
      if h.extractLsb' 24 4 ≠ 0#4 then .error .reservedBit
      else if rest ≠ [] then .error .frameLength
      else .ok (.patMatch (h.extractLsb' 0 16) (h.extractLsb' 16 8))) ∧
    (h.extractLsb' 28 4 = 3#4 → rest.length ≠ 1 → decodeFrame cfg (h :: rest) =
      if h.extractLsb' 24 4 ≠ 0#4 ∨ h.extractLsb' 16 8 ≠ 0#8 then .error .reservedBit else .error .frameLength) ∧
    (h.extractLsb' 28 4 = 3#4 → ∀ v : Word, decodeFrame cfg [h, v] =
      if h.extractLsb' 24 4 ≠ 0#4 ∨ h.extractLsb' 16 8 ≠ 0#8 then .error .reservedBit
      else if v.extractLsb' 16 16 ≠ 0#16 then .error .reservedBit
      else .ok (.patSubset (h.extractLsb' 0 16) (v.extractLsb' 0 16))) ∧
    (h.extractLsb' 28 4 = 5#4 → decodeFrame cfg (h :: rest) =
      if h.extractLsb' 24 4 ≠ 0#4 then .error .reservedBit
      else if rest ≠ [] then .error .frameLength
      else .ok (.extract (h.extractLsb' 0 16) (h.extractLsb' 16 8))) ∧
    (h.extractLsb' 28 4 = 6#4 → rest.length ≠ 1 → decodeFrame cfg (h :: rest) =
      if h.extractLsb' 24 4 ≠ 0#4 ∨ h.extractLsb' 16 8 ≠ 0#8 then .error .reservedBit else .error .frameLength) ∧
    (h.extractLsb' 28 4 = 6#4 → ∀ v : Word, decodeFrame cfg [h, v] =
      if h.extractLsb' 24 4 ≠ 0#4 ∨ h.extractLsb' 16 8 ≠ 0#8 then .error .reservedBit
      else .ok (.translate (h.extractLsb' 0 16) v)) ∧
    (h.extractLsb' 28 4 = 9#4 → decodeFrame cfg (h :: rest) =
      if h.extractLsb' 24 4 ≠ 0#4 then .error .reservedBit
      else if rest ≠ [] then .error .frameLength
      else .ok (.setHandler (h.extractLsb' 16 8) (h.extractLsb' 0 16))) ∧
    (h.extractLsb' 28 4 = 0xA#4 → decodeFrame cfg (h :: rest) =
      if h.extractLsb' 24 4 ≠ 0#4 ∨ h.extractLsb' 16 8 ≠ 0#8 then .error .reservedBit
      else if rest ≠ [] then .error .frameLength
      else .ok (.setDefaultHandler (h.extractLsb' 0 16))) ∧
    (h.extractLsb' 28 4 = 0xB#4 → decodeFrame cfg (h :: rest) =
      if h.extractLsb' 24 4 ≠ 0#4 ∨ h.extractLsb' 0 16 ≠ 0#16 then .error .reservedBit
      else if rest ≠ [] then .error .frameLength
      else .ok (.decode (h.extractLsb' 16 8))) ∧
    (h.extractLsb' 28 4 = 0xF#4 → decodeFrame cfg (h :: rest) =
      if h.extractLsb' 24 4 ≠ 0#4 ∨ h.extractLsb' 0 16 ≠ 0#16 then .error .reservedBit
      else if rest ≠ [] then .error .frameLength
      else .ok (.decTemp (h.extractLsb' 16 8)))
end

