-- ==== Sys2Proof/Laws/Assembler.lean ====
section
/-! SUPPORT. What the assembler's shared operations can answer (30_encoding R74). -/

namespace Sys2Proof.Machine

/-- A number that is a field's value fits the field and is that value. -/
@[simp] theorem fieldOf_toNat {w : Nat} (x : BitVec w) : fieldOf w x.toNat = some x := by
  simp [fieldOf, x.isLt]

/-- A converted list is the list of the converted elements. -/
theorem convertAll_eq_some_iff {α β : Type} (f : α → Option β) (xs : List α) (ys : List β) :
    convertAll f xs = some ys ↔ List.Forall₂ (fun x y => f x = some y) xs ys := by
  induction xs generalizing ys with
  | nil => cases ys <;> simp [convertAll]
  | cons x xs ih =>
    cases ys with
    | nil =>
      simp only [convertAll, List.forall₂_nil_right_iff, reduceCtorEq, iff_false]
      split <;> simp
    | cons y ys =>
      rw [List.forall₂_cons, ← ih]
      simp only [convertAll]
      cases f x <;> cases convertAll f xs <;> simp

/-- A list is not converted exactly where some element is not. -/
theorem convertAll_eq_none_iff {α β : Type} (f : α → Option β) (xs : List α) :
    convertAll f xs = none ↔ ∃ x ∈ xs, f x = none := by
  induction xs with
  | nil => simp [convertAll]
  | cons x xs ih =>
    simp only [List.mem_cons, exists_eq_or_imp, ← ih, convertAll]
    cases f x <;> cases convertAll f xs <;> simp

/-- Numbers that are field values convert to those values. -/
@[simp] theorem convertAll_fieldOf_toNat {w : Nat} (xs : List (BitVec w)) :
    convertAll (fieldOf w) (xs.map BitVec.toNat) = some xs := by
  rw [convertAll_eq_some_iff, List.forall₂_map_left_iff]
  exact List.forall₂_same.2 fun x _ => fieldOf_toNat x

/-- What a mask operand spells is what the assembler takes it for. -/
theorem asmMask_eq_some_iff (x : AsmMask) (m : MaskWord) : asmMask x = some m ↔ MaskSpells x m := by
  cases x <;> simp [asmMask, MaskSpells]

/-- What an event name spells is what the assembler takes it for. -/
theorem asmName_of_eventSpells {x : AsmName EventName} {n : NameId} (h : EventSpells x n) :
    asmName eventNameId x = some n := by
  rcases h with rfl | ⟨name, rfl, hm⟩
  · exact fieldOf_toNat n
  · simp only [List.mem_cons, Prod.mk.injEq, List.not_mem_nil, or_false] at hm
    rcases hm with ⟨rfl, rfl⟩ | ⟨rfl, rfl⟩ | ⟨rfl, rfl⟩ | ⟨rfl, rfl⟩ | ⟨rfl, rfl⟩ | ⟨rfl, rfl⟩ <;> rfl

/-- What a command name spells is what the assembler takes it for. -/
theorem asmName_of_commandSpells {x : AsmName CommandName} {n : NameId} (h : CommandSpells x n) :
    asmName commandNameId x = some n := by
  rcases h with rfl | ⟨name, rfl, hm⟩
  · exact fieldOf_toNat n
  · simp only [List.mem_cons, Prod.mk.injEq, List.not_mem_nil, or_false] at hm
    rcases hm with ⟨rfl, rfl⟩ | ⟨rfl, rfl⟩ | ⟨rfl, rfl⟩ | ⟨rfl, rfl⟩ | ⟨rfl, rfl⟩ <;> rfl

end Sys2Proof.Machine
end

