-- ==== Sys2Proof/Laws/Bits.lean ====
section
/-! SUPPORT. Reading fields of concatenated bit vectors. -/

namespace Sys2Proof

/-- The low part of a concatenation is its second half. -/
theorem extract_low {v w : Nat} (x : BitVec v) (y : BitVec w) : (x ++ y).extractLsb' 0 w = y := by
  ext i hi
  simp [BitVec.getLsbD_append, hi]

/-- The high part of a concatenation is its first half. -/
theorem extract_high {v w : Nat} (x : BitVec v) (y : BitVec w) : (x ++ y).extractLsb' w v = x := by
  ext i hi
  simp [BitVec.getLsbD_append, hi]

/-- A field that lies in the second half of a concatenation. -/
theorem extract_inLow {v w : Nat} (x : BitVec v) (y : BitVec w) (lo len : Nat) (h : lo + len ≤ w) :
    (x ++ y).extractLsb' lo len = y.extractLsb' lo len := by
  ext i hi
  have h1 : lo + i < w := by omega
  simp [BitVec.getLsbD_append, h1]

/-- A field that lies in the first half of a concatenation. -/
theorem extract_inHigh {v w : Nat} (x : BitVec v) (y : BitVec w) (lo len : Nat) :
    (x ++ y).extractLsb' (w + lo) len = x.extractLsb' lo len := by
  ext i hi
  simp [BitVec.getLsbD_append, Nat.add_assoc]

/-- A bit vector is its high part above its low part. -/
theorem eq_append_extract {v w : Nat} (x : BitVec (v + w)) : x = x.extractLsb' w v ++ x.extractLsb' 0 w := by
  ext i hi
  simp

end Sys2Proof
end

