-- ==== Sys2Proof/Laws/Operands.lean ====
section
/-! SUPPORT. What the pattern operations can answer: construction (40_bitpattern R75 to R77), the natural width and the
insertion (41_event_command R99 to R101), the extraction (R93). Later proofs cite these and do not unfold. -/

namespace Sys2Proof.Machine

@[simp] theorem wildcardFlags_maskOf (k : Nat) (v : Byte) :
    wildcardFlags (maskOf k v) = BitVec.ofNat 8 (2 ^ k - 1) := extract_high (BitVec.ofNat 8 (2 ^ k - 1)) v

@[simp] theorem valueBits_maskOf (k : Nat) (v : Byte) : valueBits (maskOf k v) = v :=
  extract_low (BitVec.ofNat 8 (2 ^ k - 1)) v

/-- A mask word is its flag byte above its value byte (30_encoding R46). -/
theorem mask_eq_append (m : MaskWord) : m = wildcardFlags m ++ valueBits m := eq_append_extract (v := 8) (w := 8) m

/-- The flag bytes that `construct` accepts are the runs `2^k - 1` (30_encoding R47). -/
theorem mem_trailingRuns_iff (w : Byte) : w ∈ trailingRuns ↔ ∃ k, k ≤ 8 ∧ w = BitVec.ofNat 8 (2 ^ k - 1) := by
  constructor
  · intro h
    simp only [trailingRuns, List.mem_cons, List.not_mem_nil, or_false] at h
    rcases h with h | h | h | h | h | h | h | h | h
    exacts [⟨0, by decide, h⟩, ⟨1, by decide, h⟩, ⟨2, by decide, h⟩, ⟨3, by decide, h⟩, ⟨4, by decide, h⟩,
      ⟨5, by decide, h⟩, ⟨6, by decide, h⟩, ⟨7, by decide, h⟩, ⟨8, by decide, h⟩]
  · rintro ⟨k, hk, rfl⟩
    interval_cases k <;> decide

/-- The number of wildcards of an accepted flag byte. -/
theorem popcount_run {k : Nat} (hk : k ≤ 8) : popcount (BitVec.ofNat 8 (2 ^ k - 1)) = k := by
  interval_cases k <;> decide

/-- No value bit under a wildcard: the value is a multiple of `2^k` (40_bitpattern R77). -/
theorem run_and_eq_zero_iff {k : Nat} (hk : k ≤ 8) (v : Byte) :
    BitVec.ofNat 8 (2 ^ k - 1) &&& v = 0 ↔ v.toNat % 2 ^ k = 0 := by
  revert v
  interval_cases k <;> decide

/-- `construct` succeeds exactly on the valid mask words (40_bitpattern R75). -/
theorem construct_isSome_iff (m : MaskWord) : (construct m).isSome ↔ ValidMask m := by
  unfold construct ValidMask
  rw [← mem_trailingRuns_iff]
  by_cases h : wildcardFlags m &&& valueBits m = 0 <;> by_cases h' : wildcardFlags m ∈ trailingRuns <;> simp [h, h']

/-- `construct` fails exactly on the other mask words (40_bitpattern R75). -/
theorem construct_eq_none_iff (m : MaskWord) : construct m = none ↔ ¬ValidMask m := by
  rw [← construct_isSome_iff]
  simp

/-- What a constructed pattern is made of: `k` wildcards under the bits `v` (40_bitpattern R76, R77). -/
theorem construct_cases {m : MaskWord} {p : Pattern} (h : construct m = some p) :
    ∃ k v, k ≤ 8 ∧ v.toNat % 2 ^ k = 0 ∧ m = maskOf k v ∧
      p = { mask := m, low := v, high := v ||| BitVec.ofNat 8 (2 ^ k - 1), mb := k } := by
  have hv : ValidMask m := (construct_isSome_iff m).1 (by simp [h])
  obtain ⟨h0, k, hk, hw⟩ := hv
  refine ⟨k, valueBits m, hk, (run_and_eq_zero_iff hk _).1 (hw ▸ h0), ?_, ?_⟩
  · rw [maskOf, ← hw]
    exact mask_eq_append m
  · have hmem : wildcardFlags m ∈ trailingRuns := (mem_trailingRuns_iff _).2 ⟨k, hk, hw⟩
    simp only [construct, h0, hmem, not_true_eq_false, ne_eq, if_false, Option.some.injEq] at h
    rw [← h, hw, popcount_run hk]

/-- Construction of the mask with `k` wildcards under `v` (40_bitpattern R75, R76). -/
theorem construct_maskOf {k : Nat} {v : Byte} (hk : k ≤ 8) (hv : v.toNat % 2 ^ k = 0) :
    construct (maskOf k v) =
      some { mask := maskOf k v, low := v, high := v ||| BitVec.ofNat 8 (2 ^ k - 1), mb := k } := by
  have h0 := (run_and_eq_zero_iff hk v).2 hv
  have hmem : BitVec.ofNat 8 (2 ^ k - 1) ∈ trailingRuns := (mem_trailingRuns_iff _).2 ⟨k, hk, rfl⟩
  simp only [construct, wildcardFlags_maskOf, valueBits_maskOf, h0, hmem, not_true_eq_false, ne_eq, if_false,
    popcount_run hk]

/-- A constructed pattern is the pattern of its mask. -/
theorem construct_mask {m : MaskWord} {p : Pattern} (h : construct m = some p) : p.mask = m := by
  obtain ⟨_, _, _, _, _, rfl⟩ := construct_cases h
  rfl

/-- `high = low + 2^mb - 1` (40_bitpattern R77). -/
theorem or_run_toNat {k : Nat} (hk : k ≤ 8) (v : Byte) (hv : v.toNat % 2 ^ k = 0) :
    (v ||| BitVec.ofNat 8 (2 ^ k - 1)).toNat = v.toNat + (2 ^ k - 1) := by
  revert v
  interval_cases k <;> decide

/-- The natural binary width of a number is at most `k` exactly when the number is below `2^k` (41_event_command
R101). -/
theorem naturalWidth_le_iff (v k : Nat) : naturalWidth v ≤ k ↔ v < 2 ^ k := by
  unfold naturalWidth
  split
  · subst_vars
    simp
  · rename_i h
    exact Nat.log2_lt h

/-- The insertion succeeds exactly when the value fits (41_event_command R99, R101). -/
theorem insertValue_eq (p : Pattern) (v : Nat) :
    insertValue p v = if v < 2 ^ p.mb then some (p.low ||| BitVec.ofNat 8 v) else none := by
  unfold insertValue
  by_cases h : v < 2 ^ p.mb
  · have := (naturalWidth_le_iff v p.mb).2 h
    simp [h, Nat.not_lt.2 this]
  · have := mt (naturalWidth_le_iff v p.mb).1 h
    simp [h, Nat.lt_of_not_le this]

/-- The extraction succeeds exactly on a matching byte (41_event_command R93). -/
theorem extractArg_isSome_iff (p : Pattern) (b : Byte) : (extractArg p b).isSome ↔ inRange p b = true := by
  unfold extractArg
  split <;> simp_all

theorem extractArg_of_inRange {p : Pattern} {b : Byte} (h : inRange p b = true) :
    extractArg p b = some (b &&& BitVec.ofNat 8 (2 ^ p.mb - 1)) := by
  simp [extractArg, h]

/-- The range test is the two comparisons (40_bitpattern R78). -/
theorem inRange_iff (p : Pattern) (b : Byte) : inRange p b = true ↔ p.low ≤ b ∧ b ≤ p.high := by
  simp [inRange]

/-- The symbol test looks at the positions from `mb` of the other pattern up to 7 (40_bitpattern R80). -/
theorem isSubsetOf_iff (a o : Pattern) :
    isSubsetOf a o = true ↔ ∀ i, o.mb ≤ i → i < 8 → symbolAt a.mask i = symbolAt o.mask i := by
  simp only [isSubsetOf, prefixPositions, List.all_reverse, List.all_eq_true, List.mem_range'_1, beq_iff_eq]
  constructor
  · intro h i h1 h2
    exact h i ⟨h1, by omega⟩
  · rintro h i ⟨h1, h2⟩
    by_cases h3 : i < 8
    · exact h i h1 h3
    · omega

end Sys2Proof.Machine
end

