-- ==== Sys2Proof/Laws/Ops.lean ====
section
/-! SUPPORT. What the shared operations can answer: the registry (10_state R21), the construction of a list (40_bitpattern
R89), the sort and the pair search of the overlap check (R83 to R85), the catalog look-ups (43_dispatcher R123, R129,
R137). -/

namespace Sys2Proof.Machine

/-! ### The registry -/

/-- The written slot reads as the token. -/
@[simp] theorem hregRead_hregWrite_same (h : List (NameId × Token)) (n : NameId) (t : Token) :
    hregRead (hregWrite h n t) n = some t := by
  induction h with
  | nil => simp [hregWrite, hregRead]
  | cons kt rest ih =>
    obtain ⟨k, u⟩ := kt
    unfold hregWrite
    split
    · simp [hregRead]
    · split
      · simp [hregRead]
      · rename_i hne
        simp [hregRead, Ne.symm hne, ih]

/-- Every other slot reads as before. -/
theorem hregRead_hregWrite_other (h : List (NameId × Token)) (n n' : NameId) (t : Token) (hn : n' ≠ n) :
    hregRead (hregWrite h n t) n' = hregRead h n' := by
  induction h with
  | nil => simp [hregWrite, hregRead, Ne.symm hn]
  | cons kt rest ih =>
    obtain ⟨k, u⟩ := kt
    unfold hregWrite
    split
    · simp [hregRead, Ne.symm hn]
    · split
      · rename_i heq
        subst heq
        simp [hregRead, Ne.symm hn]
      · by_cases hk : k = n' <;> simp [hregRead, hk, ih]

/-- The canonical form is the strict order of the names. -/
theorem hregSorted_iff (h : List (NameId × Token)) : hregSorted h = true ↔ h.Pairwise fun x y => x.1 < y.1 := by
  induction h with
  | nil => simp [hregSorted]
  | cons x rest ih =>
    cases rest with
    | nil => simp [hregSorted]
    | cons y rest =>
      simp only [hregSorted, Bool.and_eq_true, decide_eq_true_eq, ih]
      constructor
      · rintro ⟨h1, h2⟩
        refine List.pairwise_cons.2 ⟨?_, h2⟩
        intro z hz
        rcases List.mem_cons.1 hz with rfl | hz
        · exact h1
        · exact BitVec.lt_trans h1 ((List.pairwise_cons.1 h2).1 z hz)
      · intro h
        obtain ⟨h1, h2⟩ := List.pairwise_cons.1 h
        exact ⟨h1 y (by simp), h2⟩

/-- The names of a registry after a write: the old ones and the written one. -/
theorem mem_hregWrite {h : List (NameId × Token)} {n : NameId} {t : Token} {x : NameId × Token}
    (hx : x ∈ hregWrite h n t) : x = (n, t) ∨ x ∈ h := by
  induction h with
  | nil => simpa [hregWrite] using hx
  | cons kt rest ih =>
    obtain ⟨k, u⟩ := kt
    unfold hregWrite at hx
    split at hx
    · simpa using hx
    · split at hx
      · rcases List.mem_cons.1 hx with rfl | hx
        · exact .inl rfl
        · exact .inr (List.mem_cons_of_mem _ hx)
      · rcases List.mem_cons.1 hx with rfl | hx
        · exact .inr (by simp)
        · exact (ih hx).imp_right (List.mem_cons_of_mem _)

/-- A write keeps the canonical form. -/
theorem hregSorted_hregWrite {h : List (NameId × Token)} (n : NameId) (t : Token) (hs : hregSorted h = true) :
    hregSorted (hregWrite h n t) = true := by
  rw [hregSorted_iff] at hs ⊢
  induction h with
  | nil => simp [hregWrite]
  | cons kt rest ih =>
    obtain ⟨k, u⟩ := kt
    obtain ⟨h1, h2⟩ := List.pairwise_cons.1 hs
    unfold hregWrite
    split
    · rename_i hlt
      refine List.pairwise_cons.2 ⟨?_, hs⟩
      intro z hz
      rcases List.mem_cons.1 hz with rfl | hz
      · exact hlt
      · exact BitVec.lt_trans hlt (h1 z hz)
    · split
      · rename_i heq
        subst heq
        exact List.pairwise_cons.2 ⟨h1, h2⟩
      · rename_i hnlt hne
        refine List.pairwise_cons.2 ⟨?_, ih h2⟩
        intro z hz
        rcases mem_hregWrite hz with rfl | hz
        · have hne' : n.toNat ≠ k.toNat := fun h => hne (BitVec.eq_of_toNat_eq h)
          rw [BitVec.lt_def] at hnlt ⊢
          show k.toNat < n.toNat
          omega
        · exact h1 z hz

/-! ### Constructing a list -/

theorem constructAt_ok_iff (i : Nat) (m : MaskWord) (p : Pattern) : constructAt i m = .ok p ↔ construct m = some p := by
  unfold constructAt
  split <;> simp_all

theorem constructAt_error_iff (i : Nat) (m : MaskWord) (e : OpError) :
    constructAt i m = .error e ↔ ¬ValidMask m ∧ e = .invalidMask m (BitVec.ofNat 8 i) := by
  rw [← construct_eq_none_iff]
  unfold constructAt
  cases construct m <;> simp [eq_comm]

/-- A list constructs when each of its masks does. -/
theorem constructFrom_ok_iff (i : Nat) (ms : List MaskWord) (ps : List Pattern) :
    constructFrom i ms = .ok ps ↔ ms.map construct = ps.map some := by
  induction ms generalizing i ps with
  | nil => cases ps <;> simp [constructFrom]
  | cons m ms ih =>
    unfold constructFrom
    cases hm : constructAt i m with
    | error e =>
      have := (constructAt_error_iff i m e).1 hm
      have hn := (construct_eq_none_iff m).2 this.1
      cases ps <;> simp [hn]
    | ok p =>
      have hp := (constructAt_ok_iff i m p).1 hm
      cases hrest : constructFrom (i + 1) ms with
      | error e =>
        cases ps with
        | nil => simp
        | cons q qs =>
          have := (ih (i + 1) qs).not.1 (by simp [hrest])
          simp [this]
      | ok qs =>
        have := (ih (i + 1) qs).1 hrest
        have hinj : Function.Injective (some : Pattern → Option Pattern) := Option.some_injective _
        cases ps with
        | nil => simp
        | cons r rs => simp [hp, this, (List.map_injective_iff.2 hinj).eq_iff]

/-- A list that fails to construct reports its first invalid mask (40_bitpattern R89). -/
theorem constructFrom_error {i : Nat} {ms : List MaskWord} {e : OpError} (h : constructFrom i ms = .error e) :
    ∃ pre m post, ms = pre ++ m :: post ∧ (∀ x ∈ pre, ValidMask x) ∧ ¬ValidMask m ∧
      e = .invalidMask m (BitVec.ofNat 8 (i + pre.length)) := by
  induction ms generalizing i e with
  | nil => simp [constructFrom] at h
  | cons m ms ih =>
    unfold constructFrom at h
    cases hm : constructAt i m with
    | error e' =>
      obtain ⟨h1, h2⟩ := (constructAt_error_iff i m e').1 hm
      simp only [hm, Except.error.injEq] at h
      exact ⟨[], m, ms, rfl, by simp, h1, by simp [← h, h2]⟩
    | ok p =>
      have hv : ValidMask m := (construct_isSome_iff m).1 (by simp [(constructAt_ok_iff i m p).1 hm])
      simp only [hm] at h
      cases hrest : constructFrom (i + 1) ms with
      | ok qs => simp [hrest] at h
      | error e' =>
        simp only [hrest, Except.error.injEq] at h
        obtain ⟨pre, m', post, rfl, h1, h2, h3⟩ := ih hrest
        refine ⟨m :: pre, m', post, rfl, ?_, h2, ?_⟩
        · intro x hx
          rcases List.mem_cons.1 hx with rfl | hx
          · exact hv
          · exact h1 x hx
        · rw [← h, h3]
          congr 2
          simp only [List.length_cons]
          omega

/-! ### The overlap check -/

/-- The search finds nothing exactly when no later element is a subset of an earlier one. -/
theorem firstOverlap_eq_none_iff (l : List (Pattern × Nat)) :
    firstOverlap l = none ↔ l.Pairwise fun x y => isSubsetOf y.1 x.1 = false := by
  induction l with
  | nil => simp [firstOverlap]
  | cons x rest ih =>
    unfold firstOverlap
    rw [List.pairwise_cons]
    cases h : rest.find? fun y => isSubsetOf y.1 x.1 with
    | none =>
      rw [List.find?_eq_none] at h
      simp only [ih]
      exact ⟨fun h' => ⟨fun y hy => by simpa using h y hy, h'⟩, fun h' => h'.2⟩
    | some y =>
      have h1 := List.find?_some h
      have h2 := List.mem_of_find?_eq_some h
      simp only [reduceCtorEq, false_iff, not_and]
      intro h3
      have h4 := h3 y h2
      simp_all

/-- The pair the search finds: `y` is the first later subset of `x`, and nothing before `x` has a later subset
(40_bitpattern R85). -/
theorem firstOverlap_eq_some {l : List (Pattern × Nat)} {x y : Pattern × Nat} (h : firstOverlap l = some (x, y)) :
    ∃ pre mid post, l = pre ++ x :: (mid ++ y :: post) ∧ isSubsetOf y.1 x.1 = true ∧
      (∀ z ∈ mid, isSubsetOf z.1 x.1 = false) ∧
      ∀ pre' a post', pre = pre' ++ a :: post' → ∀ z ∈ post' ++ x :: (mid ++ y :: post), isSubsetOf z.1 a.1 = false := by
  induction l with
  | nil => simp [firstOverlap] at h
  | cons a rest ih =>
    unfold firstOverlap at h
    cases hf : rest.find? fun z => isSubsetOf z.1 a.1 with
    | some z =>
      simp only [hf, Option.some.injEq, Prod.mk.injEq] at h
      obtain ⟨rfl, rfl⟩ := h
      obtain ⟨h1, mid, post, h2, h3⟩ := List.find?_eq_some_iff_append.1 hf
      refine ⟨[], mid, post, by simp [h2], by simpa using h1, ?_, ?_⟩
      · intro w hw
        simpa using h3 w hw
      · intro pre' b post' hb
        simp at hb
    | none =>
      simp only [hf] at h
      obtain ⟨pre, mid, post, h1, h2, h3, h4⟩ := ih h
      refine ⟨a :: pre, mid, post, by simp [h1], h2, h3, ?_⟩
      intro pre' b post' hb z hz
      cases pre' with
      | nil =>
        simp only [List.nil_append, List.cons.injEq] at hb
        obtain ⟨rfl, rfl⟩ := hb
        rw [List.find?_eq_none] at hf
        have := hf z (by rw [h1]; exact hz)
        simpa using this
      | cons c pre' =>
        simp only [List.cons_append, List.cons.injEq] at hb
        exact h4 pre' b post' hb.2 z hz

/-- The sorted list is a rearrangement of the indexed list. -/
theorem sortByBreadth_perm (ps : List Pattern) : (sortByBreadth ps).Perm ps.zipIdx := List.perm_insertionSort _ _

/-- Inserting an element of smaller index than every other keeps the order of 40_bitpattern R84. -/
theorem orderedInsert_before {x : Pattern × Nat} {l : List (Pattern × Nat)} (hx : ∀ y ∈ l, x.2 < y.2)
    (hl : l.Pairwise fun a b => b.1.mb < a.1.mb ∨ (a.1.mb = b.1.mb ∧ a.2 < b.2)) :
    (l.orderedInsert (fun a b => b.1.mb ≤ a.1.mb) x).Pairwise
      fun a b => b.1.mb < a.1.mb ∨ (a.1.mb = b.1.mb ∧ a.2 < b.2) := by
  induction l with
  | nil => simp
  | cons y l ih =>
    obtain ⟨h1, h2⟩ := List.pairwise_cons.1 hl
    rw [List.orderedInsert_cons]
    split
    · rename_i hle
      refine List.pairwise_cons.2 ⟨?_, hl⟩
      intro z hz
      have hlt := hx z hz
      rcases List.mem_cons.1 hz with rfl | hz
      · omega
      · have := h1 z hz
        omega
    · rename_i hlt
      refine List.pairwise_cons.2 ⟨?_, ih (fun z hz => hx z (List.mem_cons_of_mem _ hz)) h2⟩
      intro z hz
      rcases List.mem_cons.1 ((List.perm_orderedInsert _ x l).mem_iff.1 hz) with rfl | hz
      · omega
      · exact h1 z hz

theorem sort_before (l : List (Pattern × Nat)) (hl : l.Pairwise fun a b => a.2 < b.2) :
    (l.insertionSort fun a b => b.1.mb ≤ a.1.mb).Pairwise
      fun a b => b.1.mb < a.1.mb ∨ (a.1.mb = b.1.mb ∧ a.2 < b.2) := by
  induction l with
  | nil => simp
  | cons x l ih =>
    obtain ⟨h1, h2⟩ := List.pairwise_cons.1 hl
    rw [List.insertionSort_cons]
    refine orderedInsert_before ?_ (ih h2)
    intro y hy
    exact h1 y ((List.perm_insertionSort _ l).mem_iff.1 hy)

/-- The sorted list goes from broad to narrow, equal widths in list order (40_bitpattern R84). -/
theorem sortByBreadth_before (ps : List Pattern) :
    (sortByBreadth ps).Pairwise fun a b => b.1.mb < a.1.mb ∨ (a.1.mb = b.1.mb ∧ a.2 < b.2) := by
  refine sort_before _ ?_
  rw [List.pairwise_iff_getElem]
  intro i j hi hj hij
  simp only [List.getElem_zipIdx]
  omega

/-- An element of the sorted list is a pattern of the list with its index. -/
theorem mem_sortByBreadth {ps : List Pattern} {p : Pattern} {i : Nat} :
    (p, i) ∈ sortByBreadth ps ↔ ps[i]? = some p := by
  rw [(sortByBreadth_perm ps).mem_iff]
  exact List.mk_mem_zipIdx_iff_getElem?

/-- The check passes exactly when no element of the sorted list has a later subset (40_bitpattern R83). -/
theorem overlapError_eq_none_iff (ps : List Pattern) :
    overlapError ps = none ↔ (sortByBreadth ps).Pairwise fun x y => isSubsetOf y.1 x.1 = false := by
  rw [← firstOverlap_eq_none_iff]
  unfold overlapError
  split <;> simp_all

/-- What a validated list is: every mask constructed, and no overlap. -/
theorem checkedPatterns_ok_iff (ms : List MaskWord) (ps : List Pattern) :
    checkedPatterns ms = .ok ps ↔ ms.map construct = ps.map some ∧ overlapError ps = none := by
  rw [← constructFrom_ok_iff 0]
  unfold checkedPatterns
  cases h : constructFrom 0 ms with
  | error e => simp
  | ok qs =>
    simp only [Except.ok.injEq]
    cases ho : overlapError qs with
    | none =>
      simp only [Except.ok.injEq]
      constructor
      · rintro rfl
        exact ⟨rfl, ho⟩
      · exact fun h => h.1
    | some e =>
      simp only [reduceCtorEq, false_iff, not_and]
      rintro rfl
      simp [ho]

/-- A validated list has one pattern a mask. -/
theorem checkedPatterns_length {ms : List MaskWord} {ps : List Pattern} (h : checkedPatterns ms = .ok ps) :
    ps.length = ms.length := by
  have := congrArg List.length ((checkedPatterns_ok_iff ms ps).1 h).1
  simpa using this.symm

/-! ### The catalogs -/

/-- The scan answers the matching entry of least index (43_dispatcher R129). -/
theorem firstMatch_eq_some {s : State} {b : Byte} {e : EventEntry} {i : Nat} (h : firstMatch s b = some (e, i)) :
    s.ev[i]? = some e ∧ inRange e.pat b = true := by
  have h1 := List.find?_some h
  have h2 := List.mem_of_find?_eq_some h
  exact ⟨List.mk_mem_zipIdx_iff_getElem?.1 h2, h1⟩

/-- The scan answers nothing exactly when no entry matches (43_dispatcher R128). -/
theorem firstMatch_eq_none_iff (s : State) (b : Byte) :
    firstMatch s b = none ↔ ∀ e ∈ s.ev, inRange e.pat b = false := by
  unfold firstMatch
  rw [List.find?_eq_none]
  constructor
  · intro h e he
    obtain ⟨i, hi, rfl⟩ := List.getElem_of_mem he
    have := h (s.ev[i], i) (List.mk_mem_zipIdx_iff_getElem?.2 (by simp [hi]))
    simpa using this
  · rintro h ⟨e, i⟩ hx
    have := h e (List.mem_of_getElem? (List.mk_mem_zipIdx_iff_getElem?.1 hx))
    simp [this]

/-- A name is known exactly when some valid entry has it (43_dispatcher R123). -/
theorem eventNamed_iff (s : State) (n : NameId) : eventNamed s n = true ↔ ∃ e ∈ s.ev, e.name = n := by
  simp [eventNamed]

/-- The command found has the name and is in the catalog (43_dispatcher R137). -/
theorem commandNamed_eq_some {s : State} {n : NameId} {c : CommandEntry} (h : commandNamed s n = some c) :
    c ∈ s.cmd ∧ c.name = n := by
  have h1 := List.find?_some h
  exact ⟨List.mem_of_find?_eq_some h, by simpa using h1⟩

/-- A name is unknown exactly when no valid entry has it (43_dispatcher R137). -/
theorem commandNamed_eq_none_iff (s : State) (n : NameId) : commandNamed s n = none ↔ ∀ c ∈ s.cmd, c.name ≠ n := by
  simp [commandNamed]

end Sys2Proof.Machine
end

