-- ==== Sys2Proof/Laws/Codecs.lean ====
section
/-! SUPPORT. What the transform unit can answer (42_codecs R106 to R113). -/

namespace Sys2Proof.Machine

/-- A known service id has a bit pattern of at most six bits (42_codecs R109). -/
theorem serviceBits_eq_some {a : Arg} {v : Nat} (h : serviceBits a = some v) : a.toNat ≤ 6 ∧ v ≤ 63 := by
  unfold serviceBits at h
  obtain ⟨hlt, hv⟩ := List.getElem?_eq_some_iff.1 h
  have h6 : a.toNat ≤ 6 := by
    simp only [List.length_cons, List.length_nil] at hlt
    omega
  refine ⟨h6, ?_⟩
  generalize a.toNat = n at hlt hv h6
  subst hv
  interval_cases n <;> simp

/-- An id above 6 is unrecognized (42_codecs R109). -/
theorem serviceBits_eq_none_iff (a : Arg) : serviceBits a = none ↔ 6 < a.toNat := by
  unfold serviceBits
  rw [List.getElem?_eq_none_iff]
  exact Iff.rfl

/-- The bits of a known service id: its own bit, or all six for the id 6 (42_codecs R109). -/
theorem serviceBits_testBit {a : Arg} {v : Nat} (h : serviceBits a = some v) {k : Nat} (hk : k < 6) :
    v.testBit k = true ↔ a.toNat = k ∨ a.toNat = 6 := by
  have h6 := (serviceBits_eq_some h).1
  unfold serviceBits at h
  generalize a.toNat = n at h h6
  interval_cases n <;> interval_cases k <;> simp at h <;> subst h <;> decide

/-- The loop over known ids ORs their bits (42_codecs R108). -/
theorem servicesFrom_ok {j acc v : Nat} {args : List Arg} (h : servicesFrom j acc args = .ok v) :
    (∀ a ∈ args, a.toNat ≤ 6) ∧
      ∀ k, k < 6 → (v.testBit k = true ↔ acc.testBit k = true ∨ ∃ a ∈ args, a.toNat = k ∨ a.toNat = 6) := by
  induction args generalizing j acc with
  | nil =>
    simp only [servicesFrom, Except.ok.injEq] at h
    simp [h]
  | cons a rest ih =>
    unfold servicesFrom at h
    cases hb : serviceBits a with
    | none => simp [hb] at h
    | some bits =>
      simp only [hb] at h
      obtain ⟨h1, h2⟩ := ih h
      refine ⟨fun x hx => ?_, fun k hk => ?_⟩
      · rcases List.mem_cons.1 hx with rfl | hx
        · exact (serviceBits_eq_some hb).1
        · exact h1 x hx
      · rw [h2 k hk, Nat.testBit_or, Bool.or_eq_true, serviceBits_testBit hb hk]
        simp only [List.mem_cons, exists_eq_or_imp, or_assoc]

/-- The loop over known ids stays within six bits (42_codecs R108). -/
theorem servicesFrom_le {j acc v : Nat} {args : List Arg} (hacc : acc ≤ 63) (h : servicesFrom j acc args = .ok v) :
    v ≤ 63 := by
  induction args generalizing j acc with
  | nil =>
    simp only [servicesFrom, Except.ok.injEq] at h
    omega
  | cons a rest ih =>
    unfold servicesFrom at h
    cases hb : serviceBits a with
    | none => simp [hb] at h
    | some bits =>
      simp only [hb] at h
      refine ih ?_ h
      have h1 : acc < 2 ^ 6 := by omega
      have h2 : bits < 2 ^ 6 := by
        have := (serviceBits_eq_some hb).2
        omega
      have := Nat.or_lt_two_pow h1 h2
      omega

/-- The loop fails at the first unknown id, with its position (42_codecs R108). -/
theorem servicesFrom_error {j acc : Nat} {args : List Arg} {e : OpError} (h : servicesFrom j acc args = .error e) :
    ∃ pre a post, args = pre ++ a :: post ∧ (∀ x ∈ pre, x.toNat ≤ 6) ∧ 6 < a.toNat ∧
      e = .unknownServiceName a (BitVec.ofNat 8 (j + pre.length)) := by
  induction args generalizing j acc with
  | nil => simp [servicesFrom] at h
  | cons a rest ih =>
    unfold servicesFrom at h
    cases hb : serviceBits a with
    | none =>
      simp only [hb, Except.error.injEq] at h
      exact ⟨[], a, rest, rfl, by simp, (serviceBits_eq_none_iff a).1 hb, by simp [← h]⟩
    | some bits =>
      simp only [hb] at h
      obtain ⟨pre, b, post, rfl, h1, h2, h3⟩ := ih h
      refine ⟨a :: pre, b, post, rfl, fun x hx => ?_, h2, ?_⟩
      · rcases List.mem_cons.1 hx with rfl | hx
        · exact (serviceBits_eq_some hb).1
        · exact h1 x hx
      · rw [h3]
        congr 2
        simp only [List.length_cons]
        omega

end Sys2Proof.Machine
end

