-- ==== Sys2Proof/Laws/Decode.lean ====
section
/-! SUPPORT. Reading back the fields of the words the encoder writes, and what the decoder's list readers answer. -/

namespace Sys2Proof

@[simp] theorem opField_header (op : Opcode) (x : BitVec 24) : opField (header op x) = op.code :=
  extract_high op.code (0#4 ++ x)

/-- Every operation is found under its own number (30_encoding R52). -/
@[simp] theorem opcodeOf_code (op : Opcode) : opcodeOf op.code = some op := by cases op <;> decide

/-- `OP = 0` names no operation (30_encoding R62). -/
theorem opcodeOf_zero : opcodeOf 0 = none := by decide

/-- The operation found under a number has that number. -/
theorem code_of_opcodeOf {c : BitVec 4} {op : Opcode} (h : opcodeOf c = some op) : op.code = c := by
  have := List.find?_some h
  simpa using this

/-- The operand bits of a header are the 24 bits the encoder gives it. -/
theorem header_bits (op : Opcode) (x : BitVec 24) (lo len : Nat) (h : lo + len ≤ 24) :
    bitsAt (header op x) lo len = x.extractLsb' lo len :=
  (extract_inLow op.code (0#4 ++ x) lo len (by omega)).trans (extract_inLow 0#4 x lo len h)

@[simp] theorem midField_header (op : Opcode) (mid : BitVec 8) (low : BitVec 16) :
    midField (header op (operandsMid mid low)) = mid :=
  (header_bits op _ 16 8 (by decide)).trans (extract_high mid low)

@[simp] theorem lowHalf_header (op : Opcode) (mid : BitVec 8) (low : BitVec 16) :
    lowHalf (header op (operandsMid mid low)) = low :=
  (header_bits op _ 0 16 (by decide)).trans (extract_low mid low)

@[simp] theorem midField_headerArgs (op : Opcode) (n : NameId) (args : List Arg) :
    midField (header op (operandsArgs n args)) = n :=
  (header_bits op _ 16 8 (by decide)).trans (extract_high n (0#8 ++ BitVec.ofNat 8 args.length))

@[simp] theorem argCount_headerArgs (op : Opcode) (n : NameId) (args : List Arg) :
    bitsAt (header op (operandsArgs n args)) 0 8 = BitVec.ofNat 8 args.length :=
  (header_bits op _ 0 8 (by decide)).trans
    ((extract_inLow n (0#8 ++ BitVec.ofNat 8 args.length) 0 8 (by decide)).trans
      (extract_low 0#8 (BitVec.ofNat 8 args.length)))

@[simp] theorem lowHalf_halfWord (x : BitVec 16) : lowHalf (halfWord x) = x := extract_low 0#16 x

@[simp] theorem highHalf_halfWord (x : BitVec 16) : highHalf (halfWord x) = 0 := extract_high 0#16 x

@[simp] theorem lowHalf_entryWord (n : NameId) (c : BitVec 4) (m : MaskWord) : lowHalf (entryWord n c m) = m :=
  (extract_inLow n (c ++ (0#4 ++ m)) 0 16 (by decide)).trans
    ((extract_inLow c (0#4 ++ m) 0 16 (by decide)).trans (extract_low 0#4 m))

@[simp] theorem name_entryWord (n : NameId) (c : BitVec 4) (m : MaskWord) : bitsAt (entryWord n c m) 24 8 = n :=
  extract_high n (c ++ (0#4 ++ m))

@[simp] theorem selector_entryWord (n : NameId) (c : BitVec 4) (m : MaskWord) : bitsAt (entryWord n c m) 20 4 = c :=
  (extract_inLow n (c ++ (0#4 ++ m)) 20 4 (by decide)).trans (extract_high c (0#4 ++ m))

@[simp] theorem reserved_entryWord (n : NameId) (c : BitVec 4) (m : MaskWord) : bitsAt (entryWord n c m) 16 4 = 0 :=
  (extract_inLow n (c ++ (0#4 ++ m)) 16 4 (by decide)).trans
    ((extract_inLow c (0#4 ++ m) 16 4 (by decide)).trans (extract_high 0#4 m))

@[simp] theorem eventXfOf_code (xf : EventXf) : eventXfOf xf.code = some xf := by cases xf <;> decide

@[simp] theorem commandXfOf_code (xf : CommandXf) : commandXfOf xf.code = some xf := by cases xf <;> decide

/-- No argument or mask word that the encoder writes has a bit in its reserved half. -/
theorem anyHighHalf_halfWords (xs : List (BitVec 16)) : anyHighHalf (xs.map halfWord) = false := by
  simp [anyHighHalf]

theorem lowHalf_halfWords (xs : List (BitVec 16)) : (xs.map halfWord).map lowHalf = xs := by
  simp [Function.comp_def]

/-- The entries written for a LOAD_EVENTS frame are read back. -/
theorem eventSpecs_entryWords (es : List EventSpec) :
    eventSpecs (es.map fun e => entryWord e.name e.xf.code e.mask) = some es := by
  induction es with
  | nil => rfl
  | cons e es ih => simp [eventSpecs, ih]

/-- The entries written for a LOAD_COMMANDS frame are read back. -/
theorem commandSpecs_entryWords (cs : List CommandSpec) :
    commandSpecs (cs.map fun c => entryWord c.name c.xf.code c.mask) = some cs := by
  induction cs with
  | nil => rfl
  | cons c cs ih => simp [commandSpecs, ih]

/-- An accepted entry list has one entry a word. -/
theorem eventSpecs_length {ws : List Word} {es : List EventSpec} (h : eventSpecs ws = some es) :
    es.length = ws.length := by
  induction ws generalizing es with
  | nil => simp [eventSpecs] at h; simp [← h]
  | cons w ws ih =>
    unfold eventSpecs at h
    split at h
    · rename_i es' _ hes
      cases h
      simp [ih hes]
    · cases h

theorem commandSpecs_length {ws : List Word} {cs : List CommandSpec} (h : commandSpecs ws = some cs) :
    cs.length = ws.length := by
  induction ws generalizing cs with
  | nil => simp [commandSpecs] at h; simp [← h]
  | cons w ws ih =>
    unfold commandSpecs at h
    split at h
    · rename_i cs' _ hcs
      cases h
      simp [ih hcs]
    · cases h

/-! ### The structural checks (30_encoding R61) -/

/-- A field of a word is zero exactly when the word has no 1 under the field's bits. -/
theorem and_field_eq_zero_iff (h : Word) (lo len : Nat) (hl : lo + len ≤ 32) :
    h &&& ((BitVec.allOnes len).setWidth 32 <<< lo) = 0 ↔ h.extractLsb' lo len = 0 := by
  constructor
  · intro e
    ext i hi
    have := congrArg (fun x => x.getLsbD (lo + i)) e
    simpa [show lo + i < 32 by omega, show ¬lo + i < lo by omega, show i < 32 by omega, hi] using this
  · intro e
    ext i hi
    by_cases h1 : lo ≤ i ∧ i < lo + len
    · have := congrArg (fun x => x.getLsbD (i - lo)) e
      simp only [BitVec.getLsbD_extractLsb', show i - lo < len by omega, show lo + (i - lo) = i by omega,
        decide_true, Bool.true_and, BitVec.getLsbD_eq_getElem hi, BitVec.ofNat_eq_ofNat, BitVec.getLsbD_zero] at this
      simp [this]
    · rcases (by omega : i < lo ∨ ¬i - lo < len) with h2 | h2 <;> simp [h2]

/-- A word has no 1 under the union of two masks exactly when it has none under either. -/
theorem and_or_eq_zero_iff (h a b : Word) : h &&& (a ||| b) = 0 ↔ h &&& a = 0 ∧ h &&& b = 0 := by
  rw [BitVec.and_or_distrib_left]
  exact BitVec.or_eq_zero_iff

/-- The reserved header bits of PAT_MATCH, EXTRACT and SET_HANDLER: the nibble `Z`. -/
theorem reserved_nibble_iff (h : Word) : h &&& 0x0F000000 = 0 ↔ h.extractLsb' 24 4 = 0 :=
  and_field_eq_zero_iff h 24 4 (by decide)

/-- The reserved header bits of the formats whose bits 23:16 must be 0. -/
theorem reserved_mid_iff (h : Word) :
    h &&& 0x0FFF0000 = 0 ↔ h.extractLsb' 24 4 = 0 ∧ h.extractLsb' 16 8 = 0 := by
  rw [← and_field_eq_zero_iff h 24 4 (by decide), ← and_field_eq_zero_iff h 16 8 (by decide), ← and_or_eq_zero_iff]
  rfl

/-- The reserved header bits of formats L and B. -/
theorem reserved_low_iff (h : Word) :
    h &&& 0x0F00FFFF = 0 ↔ h.extractLsb' 24 4 = 0 ∧ h.extractLsb' 0 16 = 0 := by
  rw [← and_field_eq_zero_iff h 24 4 (by decide), ← and_field_eq_zero_iff h 0 16 (by decide), ← and_or_eq_zero_iff]
  rfl

/-- The reserved header bits of ENCODE_SEND. -/
theorem reserved_gap_iff (h : Word) :
    h &&& 0x0F00FF00 = 0 ↔ h.extractLsb' 24 4 = 0 ∧ h.extractLsb' 8 8 = 0 := by
  rw [← and_field_eq_zero_iff h 24 4 (by decide), ← and_field_eq_zero_iff h 8 8 (by decide), ← and_or_eq_zero_iff]
  rfl

/-- The reserved header bits of ENC_SERVICES and ENC_RGB. -/
theorem reserved_name_gap_iff (h : Word) :
    h &&& 0x0FFFFF00 = 0 ↔ h.extractLsb' 24 4 = 0 ∧ h.extractLsb' 8 8 = 0 ∧ h.extractLsb' 16 8 = 0 := by
  rw [← and_field_eq_zero_iff h 24 4 (by decide), ← and_field_eq_zero_iff h 8 8 (by decide),
    ← and_field_eq_zero_iff h 16 8 (by decide), ← and_or_eq_zero_iff, ← and_or_eq_zero_iff]
  rfl

/-- The header and length checks of a frame whose `OP` is known (R61 steps 3 and 4). -/
theorem decodeFrame_cons (cfg : Params) {op : Opcode} {h : Word} (rest : List Word) (e : h.extractLsb' 28 4 = op.code) :
    decodeFrame cfg (h :: rest) =
      if h &&& op.reservedHeaderBits ≠ 0 then .error .reservedBit
      else if rest.length ≠ op.laterWords h then .error .frameLength
      else decodeOperands cfg op h rest := by
  have e' : opcodeOf (opField h) = some op := (congrArg opcodeOf e).trans (opcodeOf_code op)
  simp only [decodeFrame, e']

theorem anyHighHalf_iff (ws : List Word) : anyHighHalf ws = true ↔ ∃ w ∈ ws, w.extractLsb' 16 16 ≠ 0 := by
  simp [anyHighHalf, highHalf, bitsAt]

theorem anyEntryReserved_iff (ws : List Word) : anyEntryReserved ws = true ↔ ∃ w ∈ ws, w.extractLsb' 16 4 ≠ 0 := by
  simp [anyEntryReserved, bitsAt]

/-- A decode transform's code: 3 to 15 name none, and a code names the transform that has it (42_codecs R106). -/
theorem eventXfOf_cases (c : BitVec 4) :
    (eventXfOf c = none ↔ 3 ≤ c.toNat) ∧ ∀ xf, eventXfOf c = some xf → xf.code = c := by
  revert c
  decide

/-- An encode transform's code: 3 to 15 name none, and a code names the transform that has it (42_codecs R107). -/
theorem commandXfOf_cases (c : BitVec 4) :
    (commandXfOf c = none ↔ 3 ≤ c.toNat) ∧ ∀ xf, commandXfOf c = some xf → xf.code = c := by
  revert c
  decide

/-- A list of event entries is refused exactly where a selector is reserved (R61 step 7). -/
theorem eventSpecs_eq_none_iff (ws : List Word) :
    eventSpecs ws = none ↔ ∃ w ∈ ws, 3 ≤ (w.extractLsb' 20 4).toNat := by
  induction ws with
  | nil => simp [eventSpecs]
  | cons w ws ih =>
    simp only [List.mem_cons, exists_eq_or_imp, ← ih, ← (eventXfOf_cases (w.extractLsb' 20 4)).1, eventSpecs, bitsAt]
    cases eventXfOf (w.extractLsb' 20 4) <;> cases eventSpecs ws <;> simp

/-- A list of command entries is refused exactly where a selector is reserved (R61 step 7). -/
theorem commandSpecs_eq_none_iff (ws : List Word) :
    commandSpecs ws = none ↔ ∃ w ∈ ws, 3 ≤ (w.extractLsb' 20 4).toNat := by
  induction ws with
  | nil => simp [commandSpecs]
  | cons w ws ih =>
    simp only [List.mem_cons, exists_eq_or_imp, ← ih, ← (commandXfOf_cases (w.extractLsb' 20 4)).1, commandSpecs, bitsAt]
    cases commandXfOf (w.extractLsb' 20 4) <;> cases commandSpecs ws <;> simp

/-- The fields of accepted event entries (30_encoding R56). -/
theorem eventSpecs_fields {ws : List Word} {es : List EventSpec} (h : eventSpecs ws = some es) :
    es.map EventSpec.name = ws.map (bitsAt · 24 8) ∧ es.map EventSpec.mask = ws.map lowHalf ∧
      es.map (fun e => e.xf.code) = ws.map (bitsAt · 20 4) := by
  induction ws generalizing es with
  | nil =>
    obtain rfl : [] = es := by simpa [eventSpecs] using h
    simp
  | cons w ws ih =>
    simp only [eventSpecs] at h
    split at h
    · rename_i xf es' h1 h2
      obtain rfl := Option.some.inj h
      obtain ⟨hn, hm, hx⟩ := ih h2
      exact ⟨by simp [hn], by simp [hm], by simp [hx, (eventXfOf_cases _).2 xf h1]⟩
    · cases h

/-- The fields of accepted command entries (30_encoding R56). -/
theorem commandSpecs_fields {ws : List Word} {cs : List CommandSpec} (h : commandSpecs ws = some cs) :
    cs.map CommandSpec.name = ws.map (bitsAt · 24 8) ∧ cs.map CommandSpec.mask = ws.map lowHalf ∧
      cs.map (fun c => c.xf.code) = ws.map (bitsAt · 20 4) := by
  induction ws generalizing cs with
  | nil =>
    obtain rfl : [] = cs := by simpa [commandSpecs] using h
    simp
  | cons w ws ih =>
    simp only [commandSpecs] at h
    split at h
    · rename_i xf cs' h1 h2
      obtain rfl := Option.some.inj h
      obtain ⟨hn, hm, hx⟩ := ih h2
      exact ⟨by simp [hn], by simp [hm], by simp [hx, (commandXfOf_cases _).2 xf h1]⟩
    · cases h

end Sys2Proof
end

