-- ==== Sys2Proof/Laws/State.lean ====
section
/-! SUPPORT. One lemma per field per update of the state, true by unfolding, so that no later proof unfolds an update. -/

namespace Sys2Proof.Machine

@[simp] theorem emit_cfg (e : PortEvent) (s : State) : (emit e s).cfg = s.cfg := rfl
@[simp] theorem emit_ev (e : PortEvent) (s : State) : (emit e s).ev = s.ev := rfl
@[simp] theorem emit_cmd (e : PortEvent) (s : State) : (emit e s).cmd = s.cmd := rfl
@[simp] theorem emit_hreg (e : PortEvent) (s : State) : (emit e s).hreg = s.hreg := rfl
@[simp] theorem emit_defH (e : PortEvent) (s : State) : (emit e s).defH = s.defH := rfl
@[simp] theorem emit_pending (e : PortEvent) (s : State) : (emit e s).pending = s.pending := rfl
@[simp] theorem emit_trace (e : PortEvent) (s : State) : (emit e s).trace = s.trace ++ [e] := rfl

@[simp] theorem installEvents_cfg (es : List EventEntry) (s : State) : (installEvents es s).cfg = s.cfg := rfl
@[simp] theorem installEvents_ev (es : List EventEntry) (s : State) : (installEvents es s).ev = es := rfl
@[simp] theorem installEvents_cmd (es : List EventEntry) (s : State) : (installEvents es s).cmd = s.cmd := rfl
@[simp] theorem installEvents_hreg (es : List EventEntry) (s : State) : (installEvents es s).hreg = [] := rfl
@[simp] theorem installEvents_defH (es : List EventEntry) (s : State) : (installEvents es s).defH = s.defH := rfl
@[simp] theorem installEvents_pending (es : List EventEntry) (s : State) : (installEvents es s).pending = s.pending := rfl
@[simp] theorem installEvents_trace (es : List EventEntry) (s : State) : (installEvents es s).trace = s.trace := rfl

@[simp] theorem installCommands_cfg (cs : List CommandEntry) (s : State) : (installCommands cs s).cfg = s.cfg := rfl
@[simp] theorem installCommands_ev (cs : List CommandEntry) (s : State) : (installCommands cs s).ev = s.ev := rfl
@[simp] theorem installCommands_cmd (cs : List CommandEntry) (s : State) : (installCommands cs s).cmd = cs := rfl
@[simp] theorem installCommands_hreg (cs : List CommandEntry) (s : State) : (installCommands cs s).hreg = s.hreg := rfl
@[simp] theorem installCommands_defH (cs : List CommandEntry) (s : State) : (installCommands cs s).defH = s.defH := rfl
@[simp] theorem installCommands_pending (cs : List CommandEntry) (s : State) : (installCommands cs s).pending = s.pending := rfl
@[simp] theorem installCommands_trace (cs : List CommandEntry) (s : State) : (installCommands cs s).trace = s.trace := rfl

@[simp] theorem setSlot_cfg (n : NameId) (t : Token) (s : State) : (setSlot n t s).cfg = s.cfg := rfl
@[simp] theorem setSlot_ev (n : NameId) (t : Token) (s : State) : (setSlot n t s).ev = s.ev := rfl
@[simp] theorem setSlot_cmd (n : NameId) (t : Token) (s : State) : (setSlot n t s).cmd = s.cmd := rfl
@[simp] theorem setSlot_hreg (n : NameId) (t : Token) (s : State) : (setSlot n t s).hreg = hregWrite s.hreg n t := rfl
@[simp] theorem setSlot_defH (n : NameId) (t : Token) (s : State) : (setSlot n t s).defH = s.defH := rfl
@[simp] theorem setSlot_pending (n : NameId) (t : Token) (s : State) : (setSlot n t s).pending = s.pending := rfl
@[simp] theorem setSlot_trace (n : NameId) (t : Token) (s : State) : (setSlot n t s).trace = s.trace := rfl

@[simp] theorem setDefault_cfg (t : Token) (s : State) : (setDefault t s).cfg = s.cfg := rfl
@[simp] theorem setDefault_ev (t : Token) (s : State) : (setDefault t s).ev = s.ev := rfl
@[simp] theorem setDefault_cmd (t : Token) (s : State) : (setDefault t s).cmd = s.cmd := rfl
@[simp] theorem setDefault_hreg (t : Token) (s : State) : (setDefault t s).hreg = s.hreg := rfl
@[simp] theorem setDefault_defH (t : Token) (s : State) : (setDefault t s).defH = some t := rfl
@[simp] theorem setDefault_pending (t : Token) (s : State) : (setDefault t s).pending = s.pending := rfl
@[simp] theorem setDefault_trace (t : Token) (s : State) : (setDefault t s).trace = s.trace := rfl

@[simp] theorem resetState_cfg (s : State) : (resetState s).cfg = s.cfg := rfl
@[simp] theorem resetState_ev (s : State) : (resetState s).ev = [] := rfl
@[simp] theorem resetState_cmd (s : State) : (resetState s).cmd = [] := rfl
@[simp] theorem resetState_hreg (s : State) : (resetState s).hreg = [] := rfl
@[simp] theorem resetState_defH (s : State) : (resetState s).defH = none := rfl
@[simp] theorem resetState_pending (s : State) : (resetState s).pending = s.pending := rfl
@[simp] theorem resetState_trace (s : State) : (resetState s).trace = s.trace := rfl

@[simp] theorem present_cfg (i : Input) (s : State) : (present i s).cfg = s.cfg := rfl
@[simp] theorem present_ev (i : Input) (s : State) : (present i s).ev = s.ev := rfl
@[simp] theorem present_cmd (i : Input) (s : State) : (present i s).cmd = s.cmd := rfl
@[simp] theorem present_hreg (i : Input) (s : State) : (present i s).hreg = s.hreg := rfl
@[simp] theorem present_defH (i : Input) (s : State) : (present i s).defH = s.defH := rfl
@[simp] theorem present_pending (i : Input) (s : State) : (present i s).pending = i :: s.pending := rfl
@[simp] theorem present_trace (i : Input) (s : State) : (present i s).trace = s.trace := rfl

@[simp] theorem dispatchEvent_cfg (e : EventEntry) (i : Nat) (raw : Byte) (s : State) :
    (dispatchEvent e i raw s).cfg = s.cfg := rfl
@[simp] theorem dispatchEvent_ev (e : EventEntry) (i : Nat) (raw : Byte) (s : State) :
    (dispatchEvent e i raw s).ev = s.ev := rfl
@[simp] theorem dispatchEvent_cmd (e : EventEntry) (i : Nat) (raw : Byte) (s : State) :
    (dispatchEvent e i raw s).cmd = s.cmd := rfl
@[simp] theorem dispatchEvent_hreg (e : EventEntry) (i : Nat) (raw : Byte) (s : State) :
    (dispatchEvent e i raw s).hreg = s.hreg := rfl
@[simp] theorem dispatchEvent_defH (e : EventEntry) (i : Nat) (raw : Byte) (s : State) :
    (dispatchEvent e i raw s).defH = s.defH := rfl
@[simp] theorem dispatchEvent_pending (e : EventEntry) (i : Nat) (raw : Byte) (s : State) :
    (dispatchEvent e i raw s).pending = s.pending := rfl

/-- What a DECODE that matched puts on the ports: the record of the chosen handler, if any, then the response. -/
theorem dispatchEvent_trace (e : EventEntry) (i : Nat) (raw : Byte) (s : State) :
    (dispatchEvent e i raw s).trace =
      s.trace ++ ((dispatchRecord (chooseHandler s e.name) (decodeTransform e.xf raw) e.name raw).toList ++
        [.rsp [responseWord Opcode.decode.code statusOk (infoDecode e.name i raw),
          decodeSecondWord (chooseHandler s e.name) (decodeTransform e.xf raw)]]) := rfl

/-- Ending a step with a response always gives a next state. -/
theorem respondOk_eq (op : Opcode) (info : BitVec 24) (s : State) :
    respondOk op info s = .next (emit (.rsp (okFrame op.code info)) s) := rfl

/-- Taking an error always gives a next state that differs in the trace alone (60_exceptions R152). -/
theorem raise_eq (op : BitVec 4) (e : OpError) (s : State) :
    raise op e s = .next (emit (.rsp (errorFrame op e)) s) := rfl

end Sys2Proof.Machine
end

