-- ==== Sys2Proof/Laws/Exec.lean ====
section
/-! SUPPORT. What each meaning can answer, said once: the cases of a load, of SET_HANDLER, of DECODE and of ENCODE_SEND.
Every meaning answers a next state. -/

namespace Sys2Proof.Machine

/-- LOAD_EVENTS reports an error and changes nothing else, or installs the entries and clears the registry (43_dispatcher
R119, R122). -/
theorem execLoadEvents_cases (es : List EventSpec) (s : State) :
    (∃ e, checkedPatterns (es.map EventSpec.mask) = .error e ∧
      execLoadEvents es s = raise Opcode.loadEvents.code e s) ∨
    ∃ ps, checkedPatterns (es.map EventSpec.mask) = .ok ps ∧
      execLoadEvents es s = respondOk .loadEvents (infoByte (BitVec.ofNat 8 es.length))
        (installEvents (eventEntries es ps) s) := by
  unfold execLoadEvents
  cases h : checkedPatterns (es.map EventSpec.mask) with
  | error e => exact .inl ⟨e, rfl, rfl⟩
  | ok ps => exact .inr ⟨ps, rfl, rfl⟩

/-- LOAD_COMMANDS reports an error and changes nothing else, or installs the entries (43_dispatcher R134, R135). -/
theorem execLoadCommands_cases (cs : List CommandSpec) (s : State) :
    (∃ e, checkedPatterns (cs.map CommandSpec.mask) = .error e ∧
      execLoadCommands cs s = raise Opcode.loadCommands.code e s) ∨
    ∃ ps, checkedPatterns (cs.map CommandSpec.mask) = .ok ps ∧
      execLoadCommands cs s = respondOk .loadCommands (infoByte (BitVec.ofNat 8 cs.length))
        (installCommands (commandEntries cs ps) s) := by
  unfold execLoadCommands
  cases h : checkedPatterns (cs.map CommandSpec.mask) with
  | error e => exact .inl ⟨e, rfl, rfl⟩
  | ok ps => exact .inr ⟨ps, rfl, rfl⟩

/-- DECODE reports an unclaimed byte, or dispatches the event of the first matching entry (43_dispatcher R127). -/
theorem decodeByte_cases (b : Byte) (s : State) :
    (firstMatch s b = none ∧ decodeByte b s = raise Opcode.decode.code (.unrecognizedByte b) s) ∨
    ∃ e i, firstMatch s b = some (e, i) ∧
      decodeByte b s = .next (dispatchEvent e i (b &&& BitVec.ofNat 8 (2 ^ e.pat.mb - 1)) s) := by
  unfold decodeByte
  cases h : firstMatch s b with
  | none => exact .inl ⟨rfl, rfl⟩
  | some x =>
    obtain ⟨e, i⟩ := x
    refine .inr ⟨e, i, rfl, ?_⟩
    simp only [extractArg_of_inRange (firstMatch_eq_some h).2]

/-- ENCODE_SEND reports an unknown name, the transform's error or an overflow, or sends one byte (43_dispatcher R137,
R138). -/
theorem encodeAndSend_cases (n : NameId) (args : List Arg) (s : State) :
    (commandNamed s n = none ∧ encodeAndSend n args s = raise Opcode.encodeSend.code (.unknownCommand n) s) ∨
    (∃ c e, commandNamed s n = some c ∧ encodeTransform c.xf args = .error e ∧
      encodeAndSend n args s = raise Opcode.encodeSend.code e s) ∨
    (∃ c v, commandNamed s n = some c ∧ encodeTransform c.xf args = .ok v ∧ 2 ^ c.pat.mb ≤ v ∧
      encodeAndSend n args s = raise Opcode.encodeSend.code (.valueOverflow c.pat.mb v) s) ∨
    ∃ c v, commandNamed s n = some c ∧ encodeTransform c.xf args = .ok v ∧ v < 2 ^ c.pat.mb ∧
      encodeAndSend n args s = respondOk .encodeSend (infoByte (c.pat.low ||| BitVec.ofNat 8 v))
        (emit (.tx (c.pat.low ||| BitVec.ofNat 8 v)) s) := by
  unfold encodeAndSend
  cases h : commandNamed s n with
  | none => exact .inl ⟨rfl, rfl⟩
  | some c =>
    right
    cases ht : encodeTransform c.xf args with
    | error e => exact .inl ⟨c, e, rfl, ht, by simp [ht]⟩
    | ok v =>
      right
      by_cases hv : v < 2 ^ c.pat.mb
      · exact .inr ⟨c, v, rfl, ht, hv, by simp [ht, insertValue_eq, hv]⟩
      · exact .inl ⟨c, v, rfl, ht, Nat.le_of_not_lt hv, by simp [ht, insertValue_eq, hv]⟩

/-- SET_HANDLER writes the slot of a known name, and reports an unknown one (43_dispatcher R123). -/
theorem execSetHandler_cases (n : NameId) (t : Token) (s : State) :
    (eventNamed s n = true ∧ execSetHandler n t s = respondOk .setHandler 0 (setSlot n t s)) ∨
    (eventNamed s n = false ∧ execSetHandler n t s = raise Opcode.setHandler.code (.unknownEvent n) s) := by
  unfold execSetHandler
  cases eventNamed s n
  · exact .inr ⟨rfl, rfl⟩
  · exact .inl ⟨rfl, rfl⟩

end Sys2Proof.Machine
end

