-- ==== Sys2Proof/Laws/PerInstr.lean ====
section
/-! SUPPORT. Facts stated for every instruction, one lemma per constructor. -/

namespace Sys2Proof.Laws

/-- A request frame has 1 to 256 words (30_encoding R60); a wire row has no frame. -/
def FrameLength.Statement (i : Instr) : Prop :=
  ∀ cfg : Params, i.wellFormed cfg = true →
    match encode i with
    | .frame ws => 1 ≤ ws.length ∧ ws.length ≤ 256
    | .rst => False
    | .rx _ => True
    | .tx _ => True

/-- A header and a list bounded by an 8-bit capacity make at most 256 words. -/
theorem frameLength_of_le {n : Nat} (c : BitVec 8) (h : n ≤ c.toNat) : n ≤ 255 := by
  have := c.isLt
  omega

theorem FrameLength.patConstruct (m : MaskWord) : FrameLength.Statement (.patConstruct m) := by
  intro cfg _
  simp [encode]

theorem FrameLength.patMatch (m : MaskWord) (b : Byte) : FrameLength.Statement (.patMatch m b) := by
  intro cfg _
  simp [encode]

theorem FrameLength.patSubset (ma : MaskWord) (mb : MaskWord) : FrameLength.Statement (.patSubset ma mb) := by
  intro cfg _
  simp [encode]

theorem FrameLength.checkOverlap (ms : List MaskWord) : FrameLength.Statement (.checkOverlap ms) := by
  intro cfg h
  simp only [Instr.wellFormed, decide_eq_true_eq] at h
  have h1 := cfg.nEv.isLt
  have h2 := cfg.nCmd.isLt
  simp only [encode, List.length_cons, List.length_map]
  omega

theorem FrameLength.extract (m : MaskWord) (b : Byte) : FrameLength.Statement (.extract m b) := by
  intro cfg _
  simp [encode]

theorem FrameLength.translate (m : MaskWord) (v : BitVec 32) : FrameLength.Statement (.translate m v) := by
  intro cfg _
  simp [encode]

theorem FrameLength.loadEvents (es : List EventSpec) : FrameLength.Statement (.loadEvents es) := by
  intro cfg h
  simp only [Instr.wellFormed, decide_eq_true_eq] at h
  have := frameLength_of_le cfg.nEv h
  simp only [encode, List.length_cons, List.length_map]
  omega

theorem FrameLength.loadCommands (cs : List CommandSpec) : FrameLength.Statement (.loadCommands cs) := by
  intro cfg h
  simp only [Instr.wellFormed, Bool.and_eq_true, decide_eq_true_eq] at h
  have := frameLength_of_le cfg.nCmd h.1
  simp only [encode, List.length_cons, List.length_map]
  omega

theorem FrameLength.setHandler (n : NameId) (t : Token) : FrameLength.Statement (.setHandler n t) := by
  intro cfg _
  simp [encode]

theorem FrameLength.setDefaultHandler (t : Token) : FrameLength.Statement (.setDefaultHandler t) := by
  intro cfg _
  simp [encode]

theorem FrameLength.decode (b : Byte) : FrameLength.Statement (.decode b) := by
  intro cfg _
  simp [encode]

theorem FrameLength.encodeSend (n : NameId) (args : List Arg) : FrameLength.Statement (.encodeSend n args) := by
  intro cfg h
  simp only [Instr.wellFormed, decide_eq_true_eq] at h
  simp only [encode, List.length_cons, List.length_map]
  omega

theorem FrameLength.encServices (args : List Arg) : FrameLength.Statement (.encServices args) := by
  intro cfg h
  simp only [Instr.wellFormed, decide_eq_true_eq] at h
  simp only [encode, List.length_cons, List.length_map]
  omega

theorem FrameLength.encRgb (args : List Arg) : FrameLength.Statement (.encRgb args) := by
  intro cfg h
  simp only [Instr.wellFormed, decide_eq_true_eq] at h
  simp only [encode, List.length_cons, List.length_map]
  omega

theorem FrameLength.decTemp (raw : Byte) : FrameLength.Statement (.decTemp raw) := by
  intro cfg _
  simp [encode]

theorem FrameLength.wireEventLight (p : BitVec 6) : FrameLength.Statement (.wireEventLight p) := by
  intro cfg _
  trivial

theorem FrameLength.wireEventKnob (p : BitVec 6) : FrameLength.Statement (.wireEventKnob p) := by
  intro cfg _
  trivial

theorem FrameLength.wireEventTemperature (p : BitVec 6) : FrameLength.Statement (.wireEventTemperature p) := by
  intro cfg _
  trivial

theorem FrameLength.wireCommandServo (p : BitVec 5) : FrameLength.Statement (.wireCommandServo p) := by
  intro cfg _
  trivial

theorem FrameLength.wireCommandLed (p : BitVec 1) : FrameLength.Statement (.wireCommandLed p) := by
  intro cfg _
  trivial

theorem FrameLength.wireCommandRgb (p : BitVec 6) : FrameLength.Statement (.wireCommandRgb p) := by
  intro cfg _
  trivial

theorem FrameLength.wireCommandSubscribe (p : BitVec 6) : FrameLength.Statement (.wireCommandSubscribe p) := by
  intro cfg _
  trivial

theorem FrameLength.wireCommandQuery (p : BitVec 6) : FrameLength.Statement (.wireCommandQuery p) := by
  intro cfg _
  trivial

end Sys2Proof.Laws
end

