-- ==== Sys2Proof/Tests/Slice0.lean ====
section
/-! SUPPORT. Tests: what WellFormed refuses, words written out from the spec's encodings, one-step runs with the results
that spec/95_test_vectors.md prints (or hand calculation from a rule, said at the test), and for every obligation with
hypotheses a concrete witness of them. -/

namespace Sys2Proof.Tests

open Sys2Proof Sys2Proof.Machine

/-! ### Helpers -/

/-- The next state of an outcome. -/
def nextOf (o : Host.Outcome State Fault Refusal) : Option State :=
  match o with
  | .next t => some t
  | .fault _ => none
  | .refused _ => none

/-- What an outcome added to the ports. -/
def outputs (o : Host.Outcome State Fault Refusal) : Option (List PortEvent) := (nextOf o).map State.trace

/-- Three event entries of the default catalog, and one boolean entry of the tests' own (95_test_vectors section 2.4
does the same). -/
def demoEvents : List EventEntry :=
  [⟨0, ⟨0x3F00, 0x00, 0x3F, 6⟩, .identity⟩, ⟨1, ⟨0x3F40, 0x40, 0x7F, 6⟩, .identity⟩,
    ⟨2, ⟨0x3F80, 0x80, 0xBF, 6⟩, .temperature⟩, ⟨3, ⟨0x01C0, 0xC0, 0xC1, 1⟩, .boolean⟩]

/-- The default command catalog, every transform the identity. -/
def demoCommands : List CommandEntry :=
  [⟨0, ⟨0x1F00, 0x00, 0x1F, 5⟩, .identity⟩, ⟨1, ⟨0x0120, 0x20, 0x21, 1⟩, .identity⟩,
    ⟨2, ⟨0x3F40, 0x40, 0x7F, 6⟩, .identity⟩, ⟨3, ⟨0x3F80, 0x80, 0xBF, 6⟩, .identity⟩,
    ⟨4, ⟨0x3FC0, 0xC0, 0xFF, 6⟩, .identity⟩]

/-- A state with both catalogs, three specific handlers and no default handler. -/
def demo : State :=
  { State.reset with
    ev := demoEvents
    cmd := demoCommands
    hreg := [(0, 0x0A0A), (1, 0x0B0B), (2, 0xBEEF)] }

/-- `demo` with an entry of the SERVICES transform under name 5 in the place of the commands. -/
def demoServices : State := { demo with cmd := [⟨5, ⟨0x1F80, 0x80, 0x9F, 5⟩, .services⟩] }

/-! ### WellFormed: one ill-formed term for each check -/

/-- Two catalogs of capacity 1. -/
def tiny : Params := { nEv := 1, nCmd := 1 }

theorem test_checkOverlap_over_capacity_refused : (Instr.checkOverlap [1, 2]).wellFormed tiny = false := by decide
theorem test_checkOverlap_larger_capacity_counts :
    (Instr.checkOverlap [1, 2]).wellFormed { nEv := 1, nCmd := 2 } = true := by decide
theorem test_loadEvents_over_capacity_refused :
    (Instr.loadEvents [⟨0, .identity, 0⟩, ⟨1, .identity, 1⟩]).wellFormed tiny = false := by decide
theorem test_loadCommands_over_capacity_refused :
    (Instr.loadCommands [⟨0, .identity, 0⟩, ⟨1, .identity, 1⟩]).wellFormed tiny = false := by decide
theorem test_loadCommands_repeated_name_refused :
    (Instr.loadCommands [⟨7, .identity, 0⟩, ⟨7, .identity, 1⟩]).wellFormed Params.suggested = false := by decide
theorem test_encodeSend_256_args_refused :
    (Instr.encodeSend 0 (List.replicate 256 0)).wellFormed tiny = false := by decide +kernel
theorem test_encServices_256_args_refused :
    (Instr.encServices (List.replicate 256 0)).wellFormed tiny = false := by decide +kernel
theorem test_encRgb_256_args_refused : (Instr.encRgb (List.replicate 256 0)).wellFormed tiny = false := by
  decide +kernel

/-! ### Decoding: words written out from the encoding tables of 30_encoding R53 to R59 and spec/opcode_table.json -/

/-- A frame as the decoder reads it at the suggested capacities. -/
def read (ws : List Word) : Option Instr :=
  match decodeFrame Params.suggested ws with
  | .ok i => some i
  | .error _ => none

/-- The cause for which the decoder refuses a frame. -/
def cause (ws : List Word) : Option IllegalCause :=
  match decodeFrame Params.suggested ws with
  | .ok _ => none
  | .error c => some c

theorem test_decode_patConstruct :
    read [0b0001_0000_00000000_00001111_01010000#32] = some (.patConstruct 0x0F50) := by decide
theorem test_decode_patMatch :
    read [0b0010_0000_01010000_00001111_01010000#32] = some (.patMatch 0x0F50 0x50) := by decide
theorem test_decode_patSubset :
    read [0b0011_0000_00000000_00000111_01010000#32, 0b0000000000000000_00001111_01010000#32] =
      some (.patSubset 0x0750 0x0F50) := by decide
theorem test_decode_checkOverlap :
    read [0b0100_0000_00000010_0000000000000000#32, 0x00000F50, 0x00000750] =
      some (.checkOverlap [0x0F50, 0x0750]) := by decide
theorem test_decode_extract :
    read [0b0101_0000_10010111_00111111_10000000#32] = some (.extract 0x3F80 0x97) := by decide
theorem test_decode_translate :
    read [0b0110_0000_00000000_00001111_00110000#32, 0x0000000A] = some (.translate 0x0F30 10) := by decide
theorem test_decode_loadEvents :
    read [0b0111_0000_00000001_0000000000000000#32, 0b00000010_0010_0000_00111111_10000000#32] =
      some (.loadEvents [⟨2, .temperature, 0x3F80⟩]) := by decide
theorem test_decode_loadCommands :
    read [0b1000_0000_00000001_0000000000000000#32, 0b00000011_0001_0000_00111111_10000000#32] =
      some (.loadCommands [⟨3, .services, 0x3F80⟩]) := by decide
theorem test_decode_setHandler :
    read [0b1001_0000_00000010_1011111011101111#32] = some (.setHandler 2 0xBEEF) := by decide
theorem test_decode_setDefaultHandler :
    read [0b1010_0000_00000000_0000000011010000#32] = some (.setDefaultHandler 0xD0) := by decide
theorem test_decode_decode : read [0b1011_0000_10010111_0000000000000000#32] = some (.decode 0x97) := by decide
theorem test_decode_encodeSend :
    read [0b1100_0000_00000010_00000000_00000010#32, 1, 0xFFFF] = some (.encodeSend 2 [1, 0xFFFF]) := by decide
theorem test_decode_encServices :
    read [0b1101_0000_00000000_00000000_00000010#32, 5, 0] = some (.encServices [5, 0]) := by decide
theorem test_decode_encRgb :
    read [0b1110_0000_00000000_00000000_00000011#32, 1, 2, 3] = some (.encRgb [1, 2, 3]) := by decide
theorem test_decode_decTemp : read [0b1111_0000_00010111_0000000000000000#32] = some (.decTemp 23) := by decide
theorem test_decode_wireEventLight : decodeRx 0b00_101010#8 = .wireEventLight 0b101010 := by decide
theorem test_decode_wireEventKnob : decodeRx 0b01_000001#8 = .wireEventKnob 1 := by decide
theorem test_decode_wireEventTemperature : decodeRx 0b10_010111#8 = .wireEventTemperature 23 := by decide
theorem test_decode_unlisted_event_byte : decodeRx 0b11_000000#8 = .decode 0xC0 := by decide
theorem test_decode_wireCommandServo : decodeTx 0b000_10001#8 = some (.wireCommandServo 17) := by decide
theorem test_decode_wireCommandLed : decodeTx 0b0010000_1#8 = some (.wireCommandLed 1) := by decide
theorem test_decode_wireCommandRgb : decodeTx 0b01_111111#8 = some (.wireCommandRgb 63) := by decide
theorem test_decode_wireCommandSubscribe : decodeTx 0b10_100000#8 = some (.wireCommandSubscribe 32) := by decide
theorem test_decode_wireCommandQuery : decodeTx 0b11_000010#8 = some (.wireCommandQuery 2) := by decide
theorem test_decode_unlisted_command_bytes : decodeTx 0x22 = none ∧ decodeTx 0x3F = none := by decide

/-- 30_encoding R61, R62, R70: one frame for each cause, two of them with a later fault as well. -/
theorem test_illegal_causes :
    cause [] = some .frameLength ∧ cause [0x00000000, 1, 2] = some .reservedOpcode ∧
    cause [0x21500F50, 7] = some .reservedBit ∧ cause [0x20500F50, 0] = some .frameLength ∧
    cause (0x70210000 :: List.replicate 33 0xFFFFFFFF#32) = some .overCapacity ∧
    cause [0x70010000, 0x00310F50] = some .reservedBit ∧
    cause [0x70010000, 0x00300F50] = some .reservedTransform ∧
    cause [0x80020000, 0x01000F50, 0x01000F60] = some .repeatedName := by decide

theorem test_table_word_of_32_bits : decodeTableWord 32 0xB0970000 = some (.decode 0x97) := by decide
theorem test_table_word_short_operands :
    decodeTableWord 32 0x70020000 = some (.loadEvents [⟨0, .identity, 0⟩, ⟨0, .identity, 0⟩]) := by decide
theorem test_table_word_of_8_bits :
    decodeTableWord 8 0x20 = some (.wireCommandLed 0) ∧ decodeTableWord 8 0x7F = some (.wireEventKnob 63) := by
  decide

/-! ### One step of each instruction; results from spec/95_test_vectors.md unless the docstring says otherwise -/

/-- 2.1: `PAT_CONSTRUCT "10101___"`, `PAT_CONSTRUCT "________"`. -/
theorem test_patConstruct_ranges :
    outputs (exec (.patConstruct 0x07A8) .reset) = some [.rsp [0x1003AFA8]] ∧
    outputs (exec (.patConstruct 0xFF00) .reset) = some [.rsp [0x1008FF00]] := by decide
/-- 2.1: a wildcard run that is not trailing, and the symbol code (1,1). -/
theorem test_patConstruct_invalid :
    outputs (exec (.patConstruct 0x2F40) .reset) = some [.rsp [0x112F4000]] ∧
    outputs (exec (.patConstruct 0x0F51) .reset) = some [.rsp [0x110F5100]] := by decide
/-- S1: both ends of the range, and the bytes just outside. -/
theorem test_patMatch_bounds :
    outputs (exec (.patMatch 0x0F50 0x5F) .reset) = some [.rsp [0x20000001]] ∧
    outputs (exec (.patMatch 0x0F50 0x4F) .reset) = some [.rsp [0x20000000]] ∧
    outputs (exec (.patMatch 0x0F50 0x60) .reset) = some [.rsp [0x20000000]] := by decide
/-- S7: narrower in broader, and not the other way round. -/
theorem test_patSubset_direction :
    outputs (exec (.patSubset 0x0750 0x0F50) .reset) = some [.rsp [0x30000001]] ∧
    outputs (exec (.patSubset 0x0F50 0x0750) .reset) = some [.rsp [0x30000000]] := by decide
/-- S7: the broader entry first, and by 40_bitpattern R85 with the list turned round the broader is still named first. -/
theorem test_checkOverlap_names_broader_first :
    outputs (exec (.checkOverlap [0x0F50, 0x0750]) .reset) = some [.rsp [0x42000001, 0x0F500750]] ∧
    outputs (exec (.checkOverlap [0x0750, 0x0F50]) .reset) = some [.rsp [0x42000100, 0x0F500750]] := by
  decide
/-- S3, and 41_event_command R93 for a byte outside. -/
theorem test_extract_payload :
    outputs (exec (.extract 0x3F80 0x97) .reset) = some [.rsp [0x50060017]] ∧
    outputs (exec (.extract 0x3F80 0x7F) .reset) = some [.rsp [0x5700007F]] := by decide
/-- S6, and 41_event_command R99 for the first value that does not fit. -/
theorem test_translate_boundary :
    outputs (exec (.translate 0x0F30 10) .reset) = some [.rsp [0x6000003A]] ∧
    outputs (exec (.translate 0x0F30 16) .reset) = some [.rsp [0x66000004, 0x00000010]] := by decide
/-- S3: the entry the load installs; 43_dispatcher R121: the registry is cleared. -/
theorem test_loadEvents_installs :
    (nextOf (exec (.loadEvents [⟨2, .temperature, 0x3F80⟩]) demo)).map (fun t => (t.ev, t.hreg, t.trace)) =
      some ([⟨2, ⟨0x3F80, 0x80, 0xBF, 6⟩, .temperature⟩], [], [.rsp [0x70000001]]) := by decide
/-- S7: the refused load installs nothing. -/
theorem test_loadEvents_refused :
    (nextOf (exec (.loadEvents [⟨0, .identity, 0x0F50⟩, ⟨1, .identity, 0x0750⟩]) demo)).map
      (fun t => (t.ev, t.hreg, t.trace)) = some (demo.ev, demo.hreg, [.rsp [0x72000001, 0x0F500750]]) := by
  decide
/-- 43_dispatcher R134, R135, by hand: the catalog replaced, the registry kept. -/
theorem test_loadCommands_installs :
    (nextOf (exec (.loadCommands [⟨1, .identity, 0x0120⟩]) demo)).map (fun t => (t.cmd, t.hreg, t.trace)) =
      some ([⟨1, ⟨0x0120, 0x20, 0x21, 1⟩, .identity⟩], demo.hreg, [.rsp [0x80000001]]) := by decide
/-- S3's response; by hand from 43_dispatcher R123 the slot of name 2 is replaced and no other. -/
theorem test_setHandler_replaces :
    (nextOf (exec (.setHandler 2 0xCAFE) demo)).map (fun t => (t.hreg, t.trace)) =
      some ([(0, 0x0A0A), (1, 0x0B0B), (2, 0xCAFE)], [.rsp [0x90000000]]) := by decide
/-- 43_dispatcher R123, by hand: no entry has name 4. -/
theorem test_setHandler_unknown : outputs (exec (.setHandler 4 1) demo) = some [.rsp [0x94000004]] := by
  decide
/-- 43_dispatcher R126, by hand. -/
theorem test_setDefaultHandler :
    (nextOf (exec (.setDefaultHandler 0xD0) .reset)).map (fun t => (t.defH, t.trace)) =
      some (some 0xD0, [.rsp [0xA0000000]]) := by decide
/-- S3: the record with HALF 43 before the response (index 2 here). -/
theorem test_decode_specific :
    outputs (exec (.decode 0x97) demo) =
      some [.dispatch 0x602BBEEF 0, .rsp [0xB0020217, 0x602BBEEF]] := by decide
/-- 43_dispatcher R130, R131, by hand: byte 0xC1 is boolean 1 under name 3, which has no specific handler; the default
handler gets the name and the raw payload. -/
theorem test_decode_default :
    outputs (exec (.decode 0xC1) { demo with defH := some 0x00D0 }) =
      some [.dispatch 0x800000D0 0x00000301, .rsp [0xB0030301, 0x900100D0]] := by decide
/-- 43_dispatcher R138, by hand: led with value 1 sends 0x21; value 2 does not fit one bit. -/
theorem test_encodeSend_led :
    outputs (exec (.encodeSend 1 [1]) demo) = some [.tx 0x21, .rsp [0xC0000021]] ∧
    outputs (exec (.encodeSend 1 [2]) demo) = some [.rsp [0xC6000001, 0x00000002]] := by decide
/-- 43_dispatcher R138, by hand: an unknown name; a service id 7, reported with its position. -/
theorem test_encodeSend_errors :
    outputs (exec (.encodeSend 9 []) demo) = some [.rsp [0xC5000009]] ∧
    outputs (exec (.encodeSend 5 [0, 7]) demoServices) = some [.rsp [0xC8000701]] := by decide
/-- S4; by 42_codecs R108 the unknown id 7 at position 1. -/
theorem test_encServices :
    outputs (exec (.encServices [5, 0]) .reset) = some [.rsp [0xD0000021]] ∧
    outputs (exec (.encServices [0, 7]) .reset) = some [.rsp [0xD8000701]] := by decide
/-- S5; by 42_codecs R111 palette id 5 is magenta, 51. -/
theorem test_encRgb :
    outputs (exec (.encRgb [1, 2, 3]) .reset) = some [.rsp [0xE000001B]] ∧
    outputs (exec (.encRgb [5]) .reset) = some [.rsp [0xE0000033]] := by decide
/-- S3: 23 denotes 21.5, 71 denotes 45.5. -/
theorem test_decTemp :
    outputs (exec (.decTemp 23) .reset) = some [.rsp [0xF000202B]] ∧
    outputs (exec (.decTemp 71) .reset) = some [.rsp [0xF000205B]] := by decide
/-- By hand from 43_dispatcher R127 and the row's name, mask and transform. -/
theorem test_wireEventLight :
    outputs (exec (.wireEventLight 63) demo) = some [.dispatch 0x403F0A0A 0, .rsp [0xB000003F, 0x403F0A0A]] := by
  decide
theorem test_wireEventKnob :
    outputs (exec (.wireEventKnob 0) demo) = some [.dispatch 0x40000B0B 0, .rsp [0xB0010100, 0x40000B0B]] := by
  decide
theorem test_wireEventTemperature :
    outputs (exec (.wireEventTemperature 23) demo) =
      some [.dispatch 0x602BBEEF 0, .rsp [0xB0020217, 0x602BBEEF]] := by decide
/-- By hand from 43_dispatcher R138 and the row's mask. -/
theorem test_wireCommandServo :
    outputs (exec (.wireCommandServo 31) demo) = some [.tx 0x1F, .rsp [0xC000001F]] := by decide
theorem test_wireCommandLed :
    outputs (exec (.wireCommandLed 1) demo) = some [.tx 0x21, .rsp [0xC0000021]] := by decide
theorem test_wireCommandRgb :
    outputs (exec (.wireCommandRgb 27) demo) = some [.tx 0x5B, .rsp [0xC000005B]] := by decide
theorem test_wireCommandSubscribe :
    outputs (exec (.wireCommandSubscribe 33) demo) = some [.tx 0xA1, .rsp [0xC00000A1]] := by decide
theorem test_wireCommandQuery :
    outputs (exec (.wireCommandQuery 63) demo) = some [.tx 0xFF, .rsp [0xC00000FF]] := by decide

/-! ### Steps -/

/-- S1 through the port: the frame is taken and answered. -/
theorem test_step_takes_frame :
    (nextOf (step (State.reset.withFetchWord 32 0x20500F50))).map (fun t => (t.pending, t.trace)) =
      some ([], [.rsp [0x20000001]]) := by decide
/-- 43_dispatcher R128: a wire event right after reset. -/
theorem test_step_takes_wire_byte :
    outputs (step (State.reset.withFetchWord 8 0x97)) = some [.rsp [0xB3000097]] := by decide
/-- 70_reset_and_hazards R163: a reset event leaves the catalogs empty and answers nothing. -/
theorem test_step_reset_event :
    nextOf (step { demo with pending := [.rst] }) = some State.reset := by decide
/-- 30_encoding R66, R70: an empty frame echoes OP 0, cause 6. -/
theorem test_step_empty_frame :
    outputs (step { State.reset with pending := [.frame []] }) = some [.rsp [0x0F000006]] := by decide
/-- Assumption log 4: a byte to be sent that no command row claims. -/
theorem test_step_unlisted_command_byte :
    nextOf (step { demo with pending := [.tx 0x22] }) = none := by decide

/-! ### Assembler (30_encoding R74) -/

/-- S1's mask text and request line. -/
theorem test_assemble_patMatch :
    maskOfText ['0', '1', '0', '1', '_', '_', '_', '_'] = some 0x0F50 ∧
    assemble (.patMatch (.text ['0', '1', '0', '1', '_', '_', '_', '_']) 0x5F) = some [0x205F0F50] := by
  decide
/-- S3's load line, the name and the transform written symbolically. -/
theorem test_assemble_loadEvents :
    assemble (.loadEvents [⟨.symbol .temperature, .text ['1', '0', '_', '_', '_', '_', '_', '_'],
      some .temperature⟩]) = some [0x70010000, 0x02203F80] := by decide
/-- S3's load line, read character by character. -/
theorem test_assemble_text :
    assembleText "LOAD_EVENTS [(temperature,\"10______\",temperature)]".toList = some [0x70010000, 0x02203F80] := by
  decide
/-- A mask of seven symbols, and a missing operand. -/
theorem test_assemble_text_rejects :
    assembleText "EXTRACT \"0101___\", 1".toList = none ∧ assembleText "EXTRACT \"0101____\"".toList = none := by
  decide
theorem test_assemble_rejects :
    assemble (.decode 256) = none ∧
    assemble (.patConstruct (.text ['1', '1', '0', '0', '0', '0', '_', '*'])) = none := by decide

/-! ### Witnesses: concrete states and operands that meet the hypotheses of each obligation -/

/-- The masks of the tests are valid, by the two conditions of 30_encoding R47. -/
theorem valid_0F50 : ValidMask 0x0F50 := ⟨by decide, 4, by decide, by decide⟩
theorem valid_0750 : ValidMask 0x0750 := ⟨by decide, 3, by decide, by decide⟩
theorem valid_3F80 : ValidMask 0x3F80 := ⟨by decide, 6, by decide, by decide⟩
theorem valid_3F40 : ValidMask 0x3F40 := ⟨by decide, 6, by decide, by decide⟩
/-- The extremes: every position fixed, every position a wildcard. -/
theorem valid_00FF : ValidMask 0x00FF := ⟨by decide, 0, by decide, by decide⟩
theorem valid_FF00 : ValidMask 0xFF00 := ⟨by decide, 8, by decide, by decide⟩

/-- A mask whose wildcards are no trailing run is not valid. -/
theorem invalid_2F40 : ¬ValidMask 0x2F40 := by
  rintro ⟨-, k, hk, h⟩
  interval_cases k <;> revert h <;> decide

/-- A mask with the symbol code (1,1) is not valid. -/
theorem invalid_0F51 : ¬ValidMask 0x0F51 := fun h => absurd h.1 (by decide)

/-- Two masks of the default catalog claim no common byte; a pattern and its part do. -/
theorem disjoint_3F80_3F40 : DisjointRanges 0x3F80 0x3F40 := by unfold DisjointRanges; decide
theorem meet_0F50_0750 : ¬DisjointRanges 0x0F50 0x0750 := fun h => h 0x50 (by decide)

/-- `demo` is a good state. -/
theorem demo_good : demo.Good :=
  ⟨⟨by decide, by decide, by decide⟩,
    ⟨by decide, by decide, by decide, by decide⟩,
    ⟨by decide, by decide⟩⟩

theorem witness_ResetEventEmptiesState :
    ({ demo with pending := [.rst, .frame []] } : State).pending = .rst :: [.frame []] ∧
    nextOf (exec (.decode 0) { demo with defH := some 1 }) ≠ none ∧ ({ demo with defH := some 1 } : State).defH ≠ none := by
  decide
theorem witness_StepRunsDecodedInstruction :
    (demo.withFetchWord 32 0xB0970000).pending = .frame [0xB0970000] :: [] ∧
    decodeInput demo.cfg (.frame [0xB0970000]) = .instr (.decode 0x97) ∧
    decodeInput demo.cfg (.tx 0x21) = .instr (.wireCommandLed 1) ∧ demo.pending = [] := by decide
theorem witness_IllegalFrameAnsweredOnly :
    ({ demo with pending := [.frame [0]] } : State).pending = .frame [0] :: [] ∧
    decodeFrame demo.cfg [0] = .error .reservedOpcode ∧ decodeFrame demo.cfg [] = .error .frameLength := ⟨rfl, rfl, rfl⟩
/-- A header with OP 8 for each arm of the chain. -/
theorem witness_LoadCommandsFrameChecksInOrder :
    (0x81000000 : Word).extractLsb' 28 4 = 8#4 ∧ (0x80010000 : Word).extractLsb' 28 4 = 8#4 ∧
    cause [0x81000000] = some .reservedBit ∧ cause [0x80000001] = some .reservedBit ∧
    cause [0x80010000] = some .frameLength ∧
    cause (0x80210000 :: List.replicate 33 0#32) = some .overCapacity ∧
    cause [0x80010000, 0x00010000] = some .reservedBit ∧
    cause [0x80010000, 0x00300000] = some .reservedTransform ∧
    cause [0x80020000, 0x05000000, 0x05100000] = some .repeatedName ∧
    read [0x80010000, 0x05200F50] = some (.loadCommands [⟨5, .rgb, 0x0F50⟩]) := by decide
/-- A header with OP 7 for each arm; names may repeat. -/
theorem witness_LoadEventsFrameChecksInOrder :
    (0x70200000 : Word).extractLsb' 28 4 = 7#4 ∧ cause [0x71000000] = some .reservedBit ∧
    cause [0x70000001] = some .reservedBit ∧ cause [0x70010000] = some .frameLength ∧
    cause (0x70210000 :: List.replicate 33 0#32) = some .overCapacity ∧
    cause [0x70010000, 0x00010000] = some .reservedBit ∧ cause [0x70010000, 0x00300000] = some .reservedTransform ∧
    read [0x70020000, 0x05200F50, 0x05000750] = some (.loadEvents [⟨5, .temperature, 0x0F50⟩, ⟨5, .identity, 0x0750⟩]) := by
  decide
/-- A header with OP 4 for each arm; the last frame is as long as the larger capacity allows. -/
theorem witness_CheckOverlapFrameChecksInOrder :
    (0x40200000 : Word).extractLsb' 28 4 = 4#4 ∧ cause [0x41000000] = some .reservedBit ∧
    cause [0x40000001] = some .reservedBit ∧ cause [0x40010000] = some .frameLength ∧
    cause (0x40210000 :: List.replicate 33 0#32) = some .overCapacity ∧
    cause [0x40010000, 0x00010000] = some .reservedBit ∧
    read (0x40200000 :: List.replicate 32 0#32) = some (.checkOverlap (List.replicate 32 0)) := by decide
theorem witness_ArgumentFrameChecksInOrder :
    (0xC0FF0001 : Word).extractLsb' 28 4 = 0xC#4 ∧ (0xD0000001 : Word).extractLsb' 28 4 = 0xD#4 ∧
    (0xE0000001 : Word).extractLsb' 28 4 = 0xE#4 ∧ cause [0xC0000100] = some .reservedBit ∧
    cause [0xD0010000] = some .reservedBit ∧ cause [0xE0000001] = some .frameLength ∧
    cause [0xC0FF0001, 0x00010000] = some .reservedBit ∧ read [0xC0FF0001, 0xFFFF] = some (.encodeSend 255 [0xFFFF]) := by
  decide
theorem witness_FixedFrameChecksInOrder :
    (0x30000750 : Word).extractLsb' 28 4 = 3#4 ∧ cause [0x30010750] = some .reservedBit ∧
    cause [0x30000750] = some .frameLength ∧ cause [0x30000750, 0x00010F50] = some .reservedBit ∧
    (0xF0170000 : Word).extractLsb' 28 4 = 0xF#4 ∧ cause [0xF0170001] = some .reservedBit ∧
    cause [0xF0170000, 0] = some .frameLength := by decide
theorem witness_EmptyOrReservedOpcodeRefused :
    (0x0FFFFFFF : Word).extractLsb' 28 4 = 0#4 ∧ (1 : BitVec 4) ≠ 0 ∧ (15 : BitVec 4) ≠ 0 := by decide
/-- Well-formed instructions at the boundary: a full catalog, an empty list, 255 arguments. -/
theorem witness_DecodeOfEncodeIsInstruction :
    (Instr.loadEvents (List.replicate 32 ⟨0, .boolean, 0xFFFF⟩)).wellFormed Params.suggested = true ∧
    (Instr.loadCommands []).wellFormed Params.suggested = true ∧
    (Instr.encodeSend 0xFF (List.replicate 255 0xFFFF)).wellFormed Params.suggested = true ∧
    (Instr.wireCommandQuery 63).wellFormed Params.suggested = true := by decide +kernel
theorem witness_AcceptedFrameIsEncoding :
    decodeFrame Params.suggested [0x70010000, 0x02203F80] = .ok (.loadEvents [⟨2, .temperature, 0x3F80⟩]) := rfl
theorem witness_FixedFormatFieldsDecode : (1 : Byte) ≠ 0 ∧ (0xFF : NameId) ≠ 0 := by decide
theorem witness_ListFormatFieldsDecode :
    (List.replicate 32 (0 : MaskWord)).length ≤ max Params.suggested.nEv.toNat Params.suggested.nCmd.toNat ∧
    (List.replicate 32 (⟨0, .identity, 0⟩ : EventSpec)).length ≤ Params.suggested.nEv.toNat ∧
    (([⟨0, .rgb, 0⟩, ⟨1, .rgb, 0⟩] : List CommandSpec).map CommandSpec.name).Nodup ∧
    (List.replicate 255 (0 : Arg)).length ≤ 255 := by decide +kernel
theorem witness_StepKeepsGood :
    demo.Good ∧ nextOf (step demo) ≠ none ∧
    nextOf (step { demo with pending := [.frame [0x70010000, 0x02203F80]] }) ≠ none :=
  ⟨demo_good, by decide, by decide⟩
/-- A load and a DECODE from reset: two steps, both answered. -/
theorem witness_ReachableCatalogMatchesOnce :
    nextOf (Host.Core.run Sys2Proof.core 2
      ({ State.reset with pending := [.frame [0x70010000, 0x02203F80], .frame [0xB0970000]] } : State)) =
    some { State.reset with
      ev := [⟨2, ⟨0x3F80, 0x80, 0xBF, 6⟩, .temperature⟩]
      trace := [.rsp [0x70000001], .rsp [0xB0020017, 0x202B0000]] } := by decide
theorem witness_EveryRequestAnsweredOnce : isOperation (.decode 0) = true ∧ isOperation (.encodeSend 0 []) = true := by
  decide
/-- An operation that answers an error, one that answers OK, and a frame that spells no operation. -/
theorem witness_ErrorChangesNothingButTrace :
    isOperation (.decode 0xFF) = true ∧
    nextOf (exec (.decode 0xFF) demo) = some { demo with trace := [.rsp [0xB30000FF]] } ∧
    responseStatus [0xB30000FF] ≠ 0 ∧
    ({ demo with pending := [.frame [0]] } : State).pending = .frame [0] :: [] ∧
    nextOf (step { demo with pending := [.frame [0]] }) = some { demo with trace := [.rsp [0x0F000001]] } := by
  decide
theorem witness_StatusesPerOperation :
    isOperation (.translate 0x0F30 16) = true ∧ nextOf (exec (.translate 0x0F30 16) demo) ≠ none ∧
    responseStatus [0x66000004, 0x00000010] ∈ ownStatuses (.translate 0x0F30 16) ∧ (0xF : BitVec 4) ≠ 0 := by
  decide
theorem witness_OnlyFourOperationsWriteState :
    isOperation (.loadEvents []) = true ∧ nextOf (exec (.loadEvents []) demo) ≠ none ∧
    isOperation (.loadCommands []) = true ∧ nextOf (exec (.loadCommands []) demo) ≠ none ∧
    isOperation (.setHandler 0 7) = true ∧ nextOf (exec (.setHandler 0 7) demo) ≠ none ∧
    isOperation (.decTemp 0) = true ∧ nextOf (exec (.decTemp 0) demo) ≠ none ∧ (1 : NameId) ≠ 0 := by decide
theorem witness_NineOperationsArePure : touchesNoState (.checkOverlap []) = true ∧ touchesNoState (.encRgb []) = true := by
  decide
theorem witness_SubProtocolsDoNotInterfere :
    encodeSide (.encodeSend 1 [1]) = true ∧ demo.cmd = ({ State.reset with cmd := demoCommands } : State).cmd ∧
    decodeSide (.decode 0x97) = true ∧ demo.ev = ({ demo with cmd := [] } : State).ev ∧
    demo.hreg = ({ demo with cmd := [] } : State).hreg ∧ demo.defH = ({ demo with cmd := [] } : State).defH := by
  decide
theorem witness_StepsTakeInputsInOrder :
    ({ demo with pending := [.rst, .rst] } : State).pending = .rst :: [.rst] ∧
    nextOf (step { demo with pending := [.rst, .rst] }) = some { State.reset with pending := [.rst] } := by
  decide
theorem witness_StateWritersAreIdempotent :
    (nextOf (exec (.setHandler 3 9) demo)).bind (fun t => nextOf (exec (.setHandler 3 9) t)) ≠ none := by
  decide
/-- The least and the greatest number of wildcards, and masks that are not valid: the hypotheses of the statements
about PAT_CONSTRUCT, PAT_MATCH, PAT_SUBSET, EXTRACT and TRANSLATE. -/
theorem witness_PatConstructGivesRange :
    (0xFF : Byte).toNat % 2 ^ 0 = 0 ∧ (0 : Byte).toNat % 2 ^ 8 = 0 ∧ maskOf 0 0xFF = 0x00FF ∧ maskOf 8 0 = 0xFF00 ∧
    maskOf 4 0x50 = 0x0F50 ∧ ¬ValidMask 0x2F40 ∧ ¬ValidMask 0x0F51 :=
  ⟨by decide, by decide, by decide, by decide, by decide, invalid_2F40, invalid_0F51⟩
theorem witness_PatMatchIsInclusiveRange :
    (0x50 : Byte).toNat % 2 ^ 4 = 0 ∧ (0x50 : Byte).toNat + (2 ^ 4 - 1) = 0x5F ∧ ¬ValidMask 0x2F40 :=
  ⟨by decide, by decide, invalid_2F40⟩
theorem witness_PatSubsetIsContainment :
    (0x50 : Byte).toNat % 2 ^ 3 = 0 ∧ (0x50 : Byte).toNat % 2 ^ 4 = 0 ∧ (0 : Byte).toNat % 2 ^ 8 = 0 ∧
    ValidMask 0x0F50 ∧ ¬ValidMask 0x2F40 :=
  ⟨by decide, by decide, by decide, valid_0F50, invalid_2F40⟩
theorem witness_PatternRangesNestOrAreDisjoint :
    construct 0x0750 = some ⟨0x0750, 0x50, 0x57, 3⟩ ∧ construct 0x0F50 = some ⟨0x0F50, 0x50, 0x5F, 4⟩ ∧
    construct 0xFF00 = some ⟨0xFF00, 0x00, 0xFF, 8⟩ ∧
    isSubsetOf ⟨0x0750, 0x50, 0x57, 3⟩ ⟨0x0F50, 0x50, 0x5F, 4⟩ = true ∧
    isSubsetOf ⟨0x0F50, 0x50, 0x5F, 4⟩ ⟨0xFF00, 0x00, 0xFF, 8⟩ = true := by decide
/-- A list with a conflict and a list without. -/
theorem witness_OverlapCheckIsComplete :
    [0x0750, 0x0F50].map construct = [(⟨0x0750, 0x50, 0x57, 3⟩ : Pattern), ⟨0x0F50, 0x50, 0x5F, 4⟩].map some ∧
    isSubsetOf ⟨0x0750, 0x50, 0x57, 3⟩ ⟨0x0F50, 0x50, 0x5F, 4⟩ = true ∧
    [0x3F40, 0x3F80].map construct = [(⟨0x3F40, 0x40, 0x7F, 6⟩ : Pattern), ⟨0x3F80, 0x80, 0xBF, 6⟩].map some ∧
    isSubsetOf ⟨0x3F40, 0x40, 0x7F, 6⟩ ⟨0x3F80, 0x80, 0xBF, 6⟩ = false ∧
    isSubsetOf ⟨0x3F80, 0x80, 0xBF, 6⟩ ⟨0x3F40, 0x40, 0x7F, 6⟩ = false := by decide
theorem witness_OverlapReportsFirstPair :
    [0x0750, 0x0F50].map construct = [(⟨0x0750, 0x50, 0x57, 3⟩ : Pattern), ⟨0x0F50, 0x50, 0x5F, 4⟩].map some ∧
    SortedBefore [⟨0x0750, 0x50, 0x57, 3⟩, ⟨0x0F50, 0x50, 0x5F, 4⟩] 1 0 :=
  ⟨by decide, _, _, rfl, rfl, .inl (by decide)⟩
/-- An invalid mask after a valid one and before a conflict. -/
theorem witness_FirstInvalidMaskIsReported :
    (∀ x ∈ ([0x0F50] : List MaskWord), ValidMask x) ∧ ¬ValidMask 0x2F40 ∧
    outputs (exec (.checkOverlap ([0x0F50] ++ 0x2F40 :: [0x0750])) demo) = some [.rsp [0x412F4001]] :=
  ⟨by simpa using valid_0F50, invalid_2F40, by decide⟩
theorem witness_PassingListClaimsEachByteOnce :
    [0x3F40, 0x3F80].map construct = [(⟨0x3F40, 0x40, 0x7F, 6⟩ : Pattern), ⟨0x3F80, 0x80, 0xBF, 6⟩].map some ∧
    overlapError [⟨0x3F40, 0x40, 0x7F, 6⟩, ⟨0x3F80, 0x80, 0xBF, 6⟩] = none ∧
    (0x40 : Byte) ≤ 0x40 ∧ (0x40 : Byte) ≤ 0x7F := by decide
/-- Both ends of the range `0x50` to `0x5F`, and the bytes next to it. -/
theorem witness_ExtractGivesPayload :
    (0x50 : Byte).toNat % 2 ^ 4 = 0 ∧
    ((0x50 : Byte).toNat ≤ (0x50 : Byte).toNat ∧ (0x50 : Byte).toNat ≤ (0x50 : Byte).toNat + (2 ^ 4 - 1)) ∧
    ((0x50 : Byte).toNat ≤ (0x5F : Byte).toNat ∧ (0x5F : Byte).toNat ≤ (0x50 : Byte).toNat + (2 ^ 4 - 1)) ∧
    ¬((0x50 : Byte).toNat ≤ (0x4F : Byte).toNat) ∧ ¬((0x60 : Byte).toNat ≤ (0x50 : Byte).toNat + (2 ^ 4 - 1)) ∧
    ¬ValidMask 0x2F40 :=
  ⟨by decide, by decide, by decide, by decide, by decide, invalid_2F40⟩
theorem witness_TranslateInsertsOrOverflows :
    (0x30 : Byte).toNat % 2 ^ 4 = 0 ∧ (15 : BitVec 32).toNat < 2 ^ 4 ∧ 2 ^ 4 ≤ (16 : BitVec 32).toNat ∧
    (0 : BitVec 32).toNat < 2 ^ 0 ∧ 2 ^ 0 ≤ (1 : BitVec 32).toNat ∧ ¬ValidMask 0x2F40 :=
  ⟨by decide, by decide, by decide, by decide, by decide, invalid_2F40⟩
theorem witness_PayloadRoundTrip :
    construct 0x0F50 = some ⟨0x0F50, 0x50, 0x5F, 4⟩ ∧ 15 < 2 ^ 4 ∧ inRange ⟨0x0F50, 0x50, 0x5F, 4⟩ 0x5F = true := by
  decide
theorem witness_EncServicesOrsServiceBits :
    (∀ a ∈ ([0, 5, 6] : List Arg), a.toNat ≤ 6) ∧ 6 < (7 : Arg).toNat ∧ 6 < (0xFFFF : Arg).toNat := by simp
theorem witness_EncRgbPaletteOrPacked :
    (7 : Arg).toNat ≤ 7 ∧ 7 < (8 : Arg).toNat ∧ ([] : List Arg).length ≠ 1 ∧ ([] : List Arg).length ≠ 3 := by decide
theorem witness_LoadEventsInstallsWholeCatalog :
    (∀ e ∈ ([⟨2, .temperature, 0x3F80⟩, ⟨1, .identity, 0x3F40⟩] : List EventSpec), ValidMask e.mask) ∧
    ([⟨2, .temperature, 0x3F80⟩, ⟨1, .identity, 0x3F40⟩] : List EventSpec).Pairwise
      (fun e e' => DisjointRanges e.mask e'.mask) :=
  ⟨by simpa using And.intro valid_3F80 valid_3F40, by simpa using disjoint_3F80_3F40⟩
theorem witness_LoadCommandsInstallsWholeCatalog :
    (∀ c ∈ ([⟨3, .services, 0x3F80⟩, ⟨2, .rgb, 0x3F40⟩] : List CommandSpec), ValidMask c.mask) ∧
    ([⟨3, .services, 0x3F80⟩, ⟨2, .rgb, 0x3F40⟩] : List CommandSpec).Pairwise
      (fun c c' => DisjointRanges c.mask c'.mask) :=
  ⟨by simpa using And.intro valid_3F80 valid_3F40, by simpa using disjoint_3F80_3F40⟩
/-- A list with an invalid mask, a valid list with a conflict, a frame that spells no operation. -/
theorem witness_RefusedLoadChangesNothing :
    (∃ e ∈ ([⟨0, .identity, 0x2F40⟩] : List EventSpec), ¬ValidMask e.mask) ∧
    (∀ e ∈ ([⟨0, .identity, 0x0F50⟩, ⟨1, .identity, 0x0750⟩] : List EventSpec), ValidMask e.mask) ∧
    ¬([⟨0, .identity, 0x0F50⟩, ⟨1, .identity, 0x0750⟩] : List EventSpec).Pairwise
      (fun e e' => DisjointRanges e.mask e'.mask) ∧
    (∃ c ∈ ([⟨0, .identity, 0x2F40⟩] : List CommandSpec), ¬ValidMask c.mask) ∧
    (∀ c ∈ ([⟨0, .identity, 0x0F50⟩, ⟨1, .identity, 0x0750⟩] : List CommandSpec), ValidMask c.mask) ∧
    ¬([⟨0, .identity, 0x0F50⟩, ⟨1, .identity, 0x0750⟩] : List CommandSpec).Pairwise
      (fun c c' => DisjointRanges c.mask c'.mask) ∧
    decodeFrame demo.cfg [0x70010000] = .error .frameLength :=
  ⟨⟨_, .head _, invalid_2F40⟩, by simpa using And.intro valid_0F50 valid_0750, by simpa using meet_0F50_0750,
    ⟨_, .head _, invalid_2F40⟩, by simpa using And.intro valid_0F50 valid_0750, by simpa using meet_0F50_0750, rfl⟩
theorem witness_SetHandlerWritesOneSlot :
    (∃ e ∈ demo.ev, e.name = 3) ∧ (∀ e ∈ demo.ev, e.name ≠ 4) ∧ (2 : NameId) ≠ 3 := by decide
/-- Entry 2 is the first that claims byte 0x97: with its own handler, with the default handler alone, with neither. -/
theorem witness_DecodeDispatchesFirstMatch :
    demo.ev[2]? = some ⟨2, ⟨0x3F80, 0x80, 0xBF, 6⟩, .temperature⟩ ∧
    construct 0x3F80 = some ⟨0x3F80, 0x80, 0xBF, 6⟩ ∧ ((0x80 : Byte) ≤ 0x97 ∧ (0x97 : Byte) ≤ 0xBF) ∧
    (∀ j < 2, ∀ e' ∈ demo.ev[j]?, ¬(e'.pat.low ≤ 0x97 ∧ (0x97 : Byte) ≤ e'.pat.high)) ∧
    hregRead demo.hreg 2 = some 0xBEEF ∧ hregRead ({ demo with hreg := [], defH := some 5 } : State).hreg 2 = none ∧
    ({ demo with hreg := [], defH := some 5 } : State).defH = some 5 ∧
    ({ demo with hreg := [] } : State).defH = none := by decide
theorem witness_DecodeReportsUnclaimedByte :
    (∀ e ∈ demo.ev, ¬(e.pat.low ≤ 0xC2 ∧ (0xC2 : Byte) ≤ e.pat.high)) ∧
    (∀ e ∈ State.reset.ev, ¬(e.pat.low ≤ 0 ∧ (0 : Byte) ≤ e.pat.high)) := by decide
/-- An unknown name; a transform error; the first value that does not fit; the last one that does. -/
theorem witness_EncodeSendStagesInOrder :
    (∀ c ∈ demo.cmd, c.name ≠ 5) ∧ (demo.cmd.map CommandEntry.name).Nodup ∧
    ⟨1, ⟨0x0120, 0x20, 0x21, 1⟩, .identity⟩ ∈ demo.cmd ∧ construct 0x0120 = some ⟨0x0120, 0x20, 0x21, 1⟩ ∧
    (match encodeTransform .identity [] with
      | .error e => e = .codecArg 1
      | .ok _ => False) ∧
    (match encodeTransform .identity [2] with
      | .error _ => False
      | .ok v => v = 2 ∧ 2 ^ 1 ≤ v) ∧
    (match encodeTransform .identity [1] with
      | .error _ => False
      | .ok v => v = 1 ∧ v < 2 ^ 1) := by
  refine ⟨by decide, by decide, by decide, by decide, rfl, ⟨rfl, ?_⟩, ⟨rfl, ?_⟩⟩ <;>
    decide
theorem witness_EncodeTransformsAsTheTableSays :
    ([] : List Arg).length ≠ 1 ∧ encodeTransform .services [6] = .ok 63 ∧
    encodeTransform .services [7] = .error (.unknownServiceName 7 0) ∧
    encodeTransform .rgb [0xFFFF, 0xFFFF, 0xFFFF] = .ok 1376235 ∧ encodeTransform .rgb [8] = .error (.codecArg 2) :=
  ⟨by decide, rfl, rfl, by simp [encodeTransform, encodeRgb], rfl⟩
theorem witness_WireEventReachesItsHandler :
    demo.Good ∧ demo.ev[0]? = some ⟨0, patternOf 0x3F00, .identity⟩ ∧ hregRead demo.hreg 0 = some 0x0A0A ∧
    demo.ev[1]? = some ⟨1, patternOf 0x3F40, .identity⟩ ∧ hregRead demo.hreg 1 = some 0x0B0B ∧
    demo.ev[2]? = some ⟨2, patternOf 0x3F80, .temperature⟩ ∧ hregRead demo.hreg 2 = some 0xBEEF :=
  ⟨demo_good, by decide⟩
theorem witness_WireCommandSendsItsByte :
    (demo.cmd.map CommandEntry.name).Nodup ∧ ⟨0, patternOf 0x1F00, .identity⟩ ∈ demo.cmd ∧
    ⟨1, patternOf 0x0120, .identity⟩ ∈ demo.cmd ∧ ⟨2, patternOf 0x3F40, .identity⟩ ∈ demo.cmd ∧
    ⟨3, patternOf 0x3F80, .identity⟩ ∈ demo.cmd ∧ ⟨4, patternOf 0x3FC0, .identity⟩ ∈ demo.cmd := by decide
theorem witness_MaskTextHasEightSymbols :
    ValidMask 0xFF00 ∧ ValidMask 0x00FF ∧ maskOfText ['0', '1', '0', '1', '_', '_', '_', '_'] = some 0x0F50 ∧
    ['0', '1', '0', '1', '_', '_', '_', '_'][0]? = some '0' ∧ ['0', '1', '0', '1', '_', '_', '_', '_'][7]? = some '_' :=
  ⟨valid_FF00, valid_00FF, by decide, rfl, rfl⟩
/-- Masks as a text and raw, a name as a symbol and as a number. -/
theorem witness_AssembledFixedFrames :
    MaskSpells (.text ['0', '1', '0', '1', '_', '_', '_', '_']) 0x0F50 ∧ MaskSpells (.raw 0xFFFF) 0xFFFF ∧
    EventSpells (.symbol .button2) 5 ∧ EventSpells (.number 255) 255 :=
  ⟨.inr ⟨_, rfl, by decide⟩, .inl rfl, .inr ⟨_, rfl, by decide⟩, .inl rfl⟩
theorem witness_AssembledListFrames :
    List.Forall₂ MaskSpells [.raw 0x0F50] [0x0F50] ∧
    EventSpells (.symbol .motion) 3 ∧ ((none : Option EventXf), 0#4) ∈ [(none, 0#4), (some .boolean, 1#4)] ∧
    CommandSpells (.symbol .query) 4 ∧ CommandSpells (.number 9) 9 ∧ (List.replicate 255 (0xFFFF : Arg)).length ≤ 255 ∧
    assemble (.loadEvents [⟨.symbol .motion, .raw 0x01C0, none⟩]) = some [0x70010000, 0x030001C0] :=
  ⟨.cons (.inl rfl) .nil, .inr ⟨_, rfl, by decide⟩, by decide, .inr ⟨_, rfl, by decide⟩, .inl rfl, by decide +kernel,
    by decide⟩

end Sys2Proof.Tests
end

section
/-! PROOFS. Family 30_encoding: the frames that name no operation (R62), and the frames of the fixed formats P, PP, PV,
H and B read field by field (R53, R54, R55, R57, R58). -/

namespace Sys2Proof

/-! ### The operation number -/

/-- `OP = 0` is refused before any other check (30_encoding R61 step 2). -/
theorem decodeFrame_cons_zeroOp (cfg : Params) {h : Word} (rest : List Word) (e : opField h = 0) :
    decodeFrame cfg (h :: rest) = .error .reservedOpcode := by
  have e' : opcodeOf (opField h) = none := (congrArg opcodeOf e).trans opcodeOf_zero
  simp only [decodeFrame, e']

/-- `OP = 0` is the only value that names no operation (30_encoding R52, R62). -/
theorem opcodeOf_isSome_iff (c : BitVec 4) : (opcodeOf c).isSome ↔ c ≠ 0 := by
  revert c
  decide

/-- Settles O6: the empty frame is a branch of the decoder, and the operation table has every number but 0. -/
theorem emptyOrReservedOpcodeRefused : Obligations.EmptyOrReservedOpcodeRefused :=
  ⟨fun _ => rfl, fun cfg _ rest e => decodeFrame_cons_zeroOp cfg rest e,
    fun c hc => Option.isSome_iff_exists.1 ((opcodeOf_isSome_iff c).2 hc)⟩

/-! ### The must-be-0 bits of a written header -/

/-- The encoder leaves the nibble `Z` of a header zero (30_encoding R51). -/
@[simp] theorem zNibble_header (op : Opcode) (x : BitVec 24) : (header op x).extractLsb' 24 4 = 0 :=
  (extract_inLow op.code (0#4 ++ x) 24 4 (by decide)).trans (extract_high 0#4 x)

/-- Where only `Z` is reserved, a written header passes. -/
theorem header_and_nibble (op : Opcode) (x : BitVec 24) : header op x &&& 0x0F000000 = 0 :=
  (reserved_nibble_iff _).2 (zNibble_header op x)

/-- Where bits 23:16 are reserved, a written header passes exactly when that field is 0. -/
theorem header_and_mid_iff (op : Opcode) (mid : BitVec 8) (low : BitVec 16) :
    header op (operandsMid mid low) &&& 0x0FFF0000 = 0 ↔ mid = 0 := by
  have hmid : (header op (operandsMid mid low)).extractLsb' 16 8 = mid := midField_header op mid low
  rw [reserved_mid_iff, zNibble_header, hmid]
  exact and_iff_right rfl

/-- Where bits 15:0 are reserved, a written header passes exactly when that field is 0. -/
theorem header_and_low_iff (op : Opcode) (mid : BitVec 8) (low : BitVec 16) :
    header op (operandsMid mid low) &&& 0x0F00FFFF = 0 ↔ low = 0 := by
  have hlow : (header op (operandsMid mid low)).extractLsb' 0 16 = low := lowHalf_header op mid low
  rw [reserved_low_iff, zNibble_header, hlow]
  exact and_iff_right rfl

/-! ### Written headers through the first checks (30_encoding R61 steps 2 to 4) -/

section
variable (cfg : Params) {op : Opcode} {x : BitVec 24} {rest : List Word}

/-- A written header with its reserved bits clear and the right number of later words is read by its operands. -/
theorem decodeFrame_header (hz : header op x &&& op.reservedHeaderBits = 0)
    (hl : rest.length = op.laterWords (header op x)) :
    decodeFrame cfg (header op x :: rest) = decodeOperands cfg op (header op x) rest := by
  rw [decodeFrame_cons cfg rest (opField_header op x), if_neg (not_not.2 hz), if_neg (not_not.2 hl)]

/-- A written header with a reserved bit set is refused, whatever follows it. -/
theorem decodeFrame_header_reservedBit (hz : header op x &&& op.reservedHeaderBits ≠ 0) :
    decodeFrame cfg (header op x :: rest) = .error .reservedBit := by
  rw [decodeFrame_cons cfg rest (opField_header op x), if_pos hz]

end

/-! ### The fixed formats -/

section
variable (cfg : Params)

/-- Format P with `BYTE` 0 (30_encoding R53). -/
theorem decodeFrame_patConstruct (m : MaskWord) :
    decodeFrame cfg [header .patConstruct (operandsMid 0 m)] = .ok (.patConstruct m) := by
  rw [decodeFrame_header cfg ((header_and_mid_iff _ _ _).2 rfl) rfl]
  simp [decodeOperands]

/-- Format P: PAT_CONSTRUCT has no `BYTE` (30_encoding R53). -/
theorem decodeFrame_patConstruct_reservedBit {b : Byte} (hb : b ≠ 0) (m : MaskWord) :
    decodeFrame cfg [header .patConstruct (operandsMid b m)] = .error .reservedBit :=
  decodeFrame_header_reservedBit cfg (mt (header_and_mid_iff _ _ _).1 hb)

/-- Format P (30_encoding R53). -/
theorem decodeFrame_patMatch (m : MaskWord) (b : Byte) :
    decodeFrame cfg [header .patMatch (operandsMid b m)] = .ok (.patMatch m b) := by
  rw [decodeFrame_header cfg (header_and_nibble _ _) rfl]
  simp [decodeOperands]

/-- Format P (30_encoding R53). -/
theorem decodeFrame_extract (m : MaskWord) (b : Byte) :
    decodeFrame cfg [header .extract (operandsMid b m)] = .ok (.extract m b) := by
  rw [decodeFrame_header cfg (header_and_nibble _ _) rfl]
  simp [decodeOperands]

/-- Format PP: the second word passes the check on its high half (30_encoding R54). -/
theorem decodeFrame_patSubset (m m' : MaskWord) :
    decodeFrame cfg [header .patSubset (operandsMid 0 m), halfWord m'] = .ok (.patSubset m m') := by
  have hrest : anyHighHalf [halfWord m'] = false := anyHighHalf_halfWords [m']
  rw [decodeFrame_header cfg ((header_and_mid_iff _ _ _).2 rfl) rfl]
  simp [decodeOperands, hrest]

/-- Format PV: the second word is the value, unchecked (30_encoding R55). -/
theorem decodeFrame_translate (m : MaskWord) (v : BitVec 32) :
    decodeFrame cfg [header .translate (operandsMid 0 m), v] = .ok (.translate m v) := by
  rw [decodeFrame_header cfg ((header_and_mid_iff _ _ _).2 rfl) rfl]
  simp [decodeOperands]

/-- Format H (30_encoding R57). -/
theorem decodeFrame_setHandler (n : NameId) (t : Token) :
    decodeFrame cfg [header .setHandler (operandsMid n t)] = .ok (.setHandler n t) := by
  rw [decodeFrame_header cfg (header_and_nibble _ _) rfl]
  simp [decodeOperands]

/-- Format H with `NAME` 0 (30_encoding R57). -/
theorem decodeFrame_setDefaultHandler (t : Token) :
    decodeFrame cfg [header .setDefaultHandler (operandsMid 0 t)] = .ok (.setDefaultHandler t) := by
  rw [decodeFrame_header cfg ((header_and_mid_iff _ _ _).2 rfl) rfl]
  simp [decodeOperands]

/-- Format H: SET_DEFAULT_HANDLER has no `NAME` (30_encoding R57). -/
theorem decodeFrame_setDefaultHandler_reservedBit {n : NameId} (hn : n ≠ 0) (t : Token) :
    decodeFrame cfg [header .setDefaultHandler (operandsMid n t)] = .error .reservedBit :=
  decodeFrame_header_reservedBit cfg (mt (header_and_mid_iff _ _ _).1 hn)

/-- Format B (30_encoding R58). -/
theorem decodeFrame_decode (b : Byte) :
    decodeFrame cfg [header .decode (operandsMid b 0)] = .ok (.decode b) := by
  rw [decodeFrame_header cfg ((header_and_low_iff _ _ _).2 rfl) rfl]
  simp [decodeOperands]

/-- Format B (30_encoding R58). -/
theorem decodeFrame_decTemp (b : Byte) :
    decodeFrame cfg [header .decTemp (operandsMid b 0)] = .ok (.decTemp b) := by
  rw [decodeFrame_header cfg ((header_and_low_iff _ _ _).2 rfl) rfl]
  simp [decodeOperands]

end

/-- Settles O9, format by format: each literal frame is, by its bits, a header and later words as the lemmas above
read them. -/
theorem fixedFormatFieldsDecode : Obligations.FixedFormatFieldsDecode := fun cfg m m' b v n t =>
  ⟨decodeFrame_patConstruct cfg m,
    fun hb => decodeFrame_patConstruct_reservedBit cfg hb m,
    decodeFrame_patMatch cfg m b,
    decodeFrame_patSubset cfg m m',
    decodeFrame_extract cfg m b,
    decodeFrame_translate cfg m v,
    decodeFrame_setHandler cfg n t,
    decodeFrame_setDefaultHandler cfg t,
    fun hn => decodeFrame_setDefaultHandler_reservedBit cfg hn t,
    decodeFrame_decode cfg b,
    decodeFrame_decTemp cfg b⟩

end Sys2Proof
end

section
/-! PROOFS. Family 40_bitpattern: the range of a constructed mask (R75), the first invalid mask of a list (R89), and the
pair an overlap error names (R85). -/

namespace Sys2Proof.Machine

/-! ### Construction (40_bitpattern R75) -/

/-- The high end of a range: no value bit stands under a wildcard, so the bits are joined without a carry. -/
theorem or_run_eq_add {k : Nat} (hk : k ≤ 8) {v : Byte} (hv : v.toNat % 2 ^ k = 0) :
    v ||| BitVec.ofNat 8 (2 ^ k - 1) = v + BitVec.ofNat 8 (2 ^ k - 1) := by
  have hdisjoint : v &&& BitVec.ofNat 8 (2 ^ k - 1) = 0#8 := by
    rw [BitVec.and_comm]
    exact (run_and_eq_zero_iff hk v).2 hv
  exact (BitVec.add_eq_or_of_and_eq_zero _ _ hdisjoint).symm

/-- PAT_CONSTRUCT answers the fields of the pattern it constructs (30_encoding R68). -/
theorem execPatConstruct_of_construct {m : MaskWord} {p : Pattern} (h : construct m = some p) (s : State) :
    execPatConstruct m s = respondOk .patConstruct (infoPattern p) s := by
  simp only [execPatConstruct, (constructAt_ok_iff 0 m p).2 h]

/-- PAT_CONSTRUCT reports a mask that is not valid (40_bitpattern R75). -/
theorem execPatConstruct_of_not_validMask {m : MaskWord} (h : ¬ValidMask m) (s : State) :
    execPatConstruct m s = raise Opcode.patConstruct.code (.invalidMask m 0) s := by
  simp only [execPatConstruct, (constructAt_error_iff 0 m _).2 ⟨h, rfl⟩]
  rfl

/-- Settles O23: the mask with `k` wildcards constructs, with the high end a sum. -/
theorem patConstructGivesRange : Obligations.PatConstructGivesRange := by
  refine ⟨fun s k v hk hv => ?_, fun s m hm => execPatConstruct_of_not_validMask hm s⟩
  have hp := construct_maskOf hk hv
  rw [or_run_eq_add hk hv] at hp
  exact execPatConstruct_of_construct hp s

/-! ### The first invalid mask of a list (40_bitpattern R89) -/

/-- Construction in list order stops at the first invalid mask, whatever follows it. -/
theorem constructFrom_first_invalid {pre : List MaskWord} (hpre : ∀ x ∈ pre, ValidMask x) {m : MaskWord}
    (hm : ¬ValidMask m) (post : List MaskWord) (i : Nat) :
    constructFrom i (pre ++ m :: post) = .error (.invalidMask m (BitVec.ofNat 8 (i + pre.length))) := by
  induction pre generalizing i with
  | nil => simp only [List.nil_append, constructFrom, (constructAt_error_iff i m _).2 ⟨hm, rfl⟩, List.length_nil,
      Nat.add_zero]
  | cons x pre ih =>
    obtain ⟨hx, hrest⟩ := List.forall_mem_cons.1 hpre
    obtain ⟨p, hp⟩ := Option.isSome_iff_exists.1 ((construct_isSome_iff x).2 hx)
    simp only [List.cons_append, constructFrom, (constructAt_ok_iff i x p).2 hp, ih hrest (i + 1), List.length_cons,
      Nat.add_assoc, Nat.add_comm 1]

/-- The overlap check does not run on a list with an invalid mask. -/
theorem checkedPatterns_first_invalid {pre : List MaskWord} (hpre : ∀ x ∈ pre, ValidMask x) {m : MaskWord}
    (hm : ¬ValidMask m) (post : List MaskWord) :
    checkedPatterns (pre ++ m :: post) = .error (.invalidMask m (BitVec.ofNat 8 pre.length)) := by
  simp only [checkedPatterns, constructFrom_first_invalid hpre hm post 0, Nat.zero_add]

/-- CHECK_OVERLAP reports the error of its list. -/
theorem execCheckOverlap_of_error {ms : List MaskWord} {e : OpError} (h : checkedPatterns ms = .error e) (s : State) :
    execCheckOverlap ms s = raise Opcode.checkOverlap.code e s := by
  simp only [execCheckOverlap, h]

/-- LOAD_EVENTS reports the error of its masks (43_dispatcher R122). -/
theorem execLoadEvents_of_error {es : List EventSpec} {e : OpError}
    (h : checkedPatterns (es.map EventSpec.mask) = .error e) (s : State) :
    execLoadEvents es s = raise Opcode.loadEvents.code e s := by
  simp only [execLoadEvents, h]

/-- LOAD_COMMANDS reports the error of its masks (43_dispatcher R122). -/
theorem execLoadCommands_of_error {cs : List CommandSpec} {e : OpError}
    (h : checkedPatterns (cs.map CommandSpec.mask) = .error e) (s : State) :
    execLoadCommands cs s = raise Opcode.loadCommands.code e s := by
  simp only [execLoadCommands, h]

/-- A list of entries whose first invalid mask stands after `pre` (`mask` is the entry's mask field). -/
theorem checkedPatterns_map_first_invalid {α : Type} (mask : α → MaskWord) {pre : List α}
    (hpre : ∀ x ∈ pre, ValidMask (mask x)) {a : α} (ha : ¬ValidMask (mask a)) (post : List α) :
    checkedPatterns ((pre ++ a :: post).map mask) =
      .error (.invalidMask (mask a) (BitVec.ofNat 8 pre.length)) := by
  have h := checkedPatterns_first_invalid (List.forall_mem_map.2 hpre) ha (post.map mask)
  rwa [List.length_map, ← List.map_cons, ← List.map_append] at h

/-- Settles O29: the three operations validate their list with the same function, which stops at the first invalid
mask. -/
theorem firstInvalidMaskIsReported : Obligations.FirstInvalidMaskIsReported :=
  ⟨fun s _ _ post hpre hm => execCheckOverlap_of_error (checkedPatterns_first_invalid hpre hm post) s,
    fun s _ _ post hpre he =>
      execLoadEvents_of_error (checkedPatterns_map_first_invalid EventSpec.mask hpre he post) s,
    fun s _ _ post hpre hc =>
      execLoadCommands_of_error (checkedPatterns_map_first_invalid CommandSpec.mask hpre hc post) s⟩

/-! ### Subsets and breadth (40_bitpattern R80) -/

/-- The wildcards of a mask are its positions below `k`. -/
theorem symbolAt_maskOf_fst (k : Nat) (v : Byte) {i : Nat} (hi : i < 8) :
    (symbolAt (maskOf k v) i).1 = decide (i < k) := by
  simp only [symbolAt, wildcardFlags_maskOf, BitVec.getLsbD_ofNat, hi, decide_true, Bool.true_and,
    Nat.testBit_two_pow_sub_one]

/-- A subset is no broader: a broader pattern has a wildcard at the lowest fixed position of the other. -/
theorem mb_le_of_isSubsetOf {m n : MaskWord} {p q : Pattern} (hp : construct m = some p) (hq : construct n = some q)
    (h : isSubsetOf p q = true) : p.mb ≤ q.mb := by
  obtain ⟨k, v, hk, -, rfl, rfl⟩ := construct_cases hp
  obtain ⟨j, w, -, -, rfl, rfl⟩ := construct_cases hq
  by_contra hlt
  have hjk : j < k := Nat.lt_of_not_le hlt
  have hj8 : j < 8 := Nat.lt_of_lt_of_le hjk hk
  have hsym : symbolAt (maskOf k v) j = symbolAt (maskOf j w) j := (isSubsetOf_iff _ _).1 h j (Nat.le_refl j) hj8
  have hflag := congrArg Prod.fst hsym
  rw [symbolAt_maskOf_fst k v hj8, symbolAt_maskOf_fst j w hj8] at hflag
  simp [hjk] at hflag

/-- Between equally broad patterns the symbol test is symmetric. -/
theorem isSubsetOf_symm_of_mb_eq {p q : Pattern} (hmb : p.mb = q.mb) (h : isSubsetOf p q = true) :
    isSubsetOf q p = true :=
  (isSubsetOf_iff q p).2 fun i hi hi8 => ((isSubsetOf_iff p q).1 h i (hmb ▸ hi) hi8).symm

/-- Every pattern of a list that constructs is the pattern of its mask. -/
theorem construct_of_getElem? {ms : List MaskWord} {ps : List Pattern} (hc : ms.map construct = ps.map some) {i : Nat}
    {p : Pattern} (hp : ps[i]? = some p) : ∃ m, construct m = some p := by
  have hmem : some p ∈ ms.map construct := hc ▸ List.mem_map_of_mem (List.mem_of_getElem? hp)
  obtain ⟨m, -, hm⟩ := List.mem_map.1 hmem
  exact ⟨m, hm⟩

/-! ### The order of the check (40_bitpattern R84) -/

/-- `SortedBefore` on patterns that carry their index: the relation `sortByBreadth` sorts by. -/
def Precedes (x y : Pattern × Nat) : Prop := y.1.mb < x.1.mb ∨ (x.1.mb = y.1.mb ∧ x.2 < y.2)

theorem Precedes.asymm {x y : Pattern × Nat} (h : Precedes x y) : ¬Precedes y x := by
  unfold Precedes at *
  omega

/-- Two patterns at different indices: one of them stands before the other. -/
theorem precedes_or_precedes {x y : Pattern × Nat} (h : x.2 ≠ y.2) : Precedes x y ∨ Precedes y x := by
  unfold Precedes
  omega

theorem sortByBreadth_pairwise_precedes (ps : List Pattern) : (sortByBreadth ps).Pairwise Precedes :=
  sortByBreadth_before ps

/-- `SortedBefore` of two indices is `Precedes` of the patterns that stand there. -/
theorem sortedBefore_iff_precedes {ps : List Pattern} {i j : Nat} {p q : Pattern} (hp : ps[i]? = some p)
    (hq : ps[j]? = some q) : SortedBefore ps i j ↔ Precedes (p, i) (q, j) := by
  simp only [SortedBefore, Precedes, hp, hq, Option.some.injEq, exists_and_left, exists_eq_left']

/-- In a list in this order, what an element precedes stands after it. -/
theorem mem_after_of_precedes {pre post : List (Pattern × Nat)} {x y : Pattern × Nat}
    (hl : (pre ++ x :: post).Pairwise Precedes) (hy : y ∈ pre ++ x :: post) (h : Precedes x y) : y ∈ post := by
  obtain ⟨-, -, hpre⟩ := List.pairwise_append.1 hl
  rcases List.mem_append.1 hy with hy | hy
  · exact absurd (hpre y hy x List.mem_cons_self) h.asymm
  · rcases List.mem_cons.1 hy with rfl | hy
    · exact absurd h h.asymm
    · exact hy

/-! ### The first pair of the check (40_bitpattern R83, R85) -/

/-- Of two constructed patterns of which one is a subset of the other, the check meets the pair in sorted order: the
subset stands after the other, or the two are equally broad and each is a subset of the other. -/
theorem precedes_or_symm_of_isSubsetOf {m n : MaskWord} {p q : Pattern} (hp : construct m = some p)
    (hq : construct n = some q) (h : isSubsetOf p q = true) {i j : Nat} (hij : i ≠ j) :
    Precedes (q, j) (p, i) ∨ (Precedes (p, i) (q, j) ∧ isSubsetOf q p = true) := by
  have hle : p.mb ≤ q.mb := mb_le_of_isSubsetOf hp hq h
  rcases precedes_or_precedes (x := (p, i)) (y := (q, j)) hij with hpq | hqp
  · have hmb : p.mb = q.mb := hpq.elim (fun hlt => absurd hlt (Nat.not_lt.2 hle)) And.left
    exact .inr ⟨hpq, isSubsetOf_symm_of_mb_eq hmb h⟩
  · exact .inl hqp

/-- A search that finds nothing: no element is a subset of one that precedes it. -/
theorem not_isSubsetOf_of_firstOverlap_none {ps : List Pattern} (hnone : firstOverlap (sortByBreadth ps) = none)
    {x y : Pattern × Nat} (hx : x ∈ sortByBreadth ps) (hy : y ∈ sortByBreadth ps) (hxy : Precedes x y) :
    isSubsetOf y.1 x.1 = false := by
  have hno := (firstOverlap_eq_none_iff _).1 hnone
  have hsorted := sortByBreadth_pairwise_precedes ps
  obtain ⟨pre, post, hl⟩ := List.append_of_mem hx
  rw [hl] at hno hsorted hy
  obtain ⟨-, hx_post, -⟩ := List.pairwise_append.1 hno
  exact (List.pairwise_cons.1 hx_post).1 y (mem_after_of_precedes hsorted hy hxy)

/-- A subset anywhere in a list of constructed patterns is found (40_bitpattern R86). -/
theorem exists_firstOverlap {ms : List MaskWord} {ps : List Pattern} (hc : ms.map construct = ps.map some) {i j : Nat}
    {p q : Pattern} (hij : i ≠ j) (hp : ps[i]? = some p) (hq : ps[j]? = some q) (hpq : isSubsetOf p q = true) :
    ∃ x y, firstOverlap (sortByBreadth ps) = some (x, y) := by
  obtain ⟨m, hm⟩ := construct_of_getElem? hc hp
  obtain ⟨n, hn⟩ := construct_of_getElem? hc hq
  have hp' := mem_sortByBreadth.2 hp
  have hq' := mem_sortByBreadth.2 hq
  cases hf : firstOverlap (sortByBreadth ps) with
  | some xy => exact ⟨xy.1, xy.2, rfl⟩
  | none =>
    rcases precedes_or_symm_of_isSubsetOf hm hn hpq hij with h | ⟨h, hqp⟩
    · simp [not_isSubsetOf_of_firstOverlap_none hf hq' hp' h] at hpq
    · simp [not_isSubsetOf_of_firstOverlap_none hf hp' hq' h] at hqp

/-- The pair the search finds is in order, and is first: every other such pair comes later. -/
theorem firstOverlap_sorted_first {ps : List Pattern} {x y : Pattern × Nat}
    (h : firstOverlap (sortByBreadth ps) = some (x, y)) :
    x ∈ sortByBreadth ps ∧ y ∈ sortByBreadth ps ∧ Precedes x y ∧ isSubsetOf y.1 x.1 = true ∧
      ∀ u ∈ sortByBreadth ps, ∀ v ∈ sortByBreadth ps, Precedes u v → isSubsetOf v.1 u.1 = true →
        Precedes x u ∨ (u = x ∧ (v = y ∨ Precedes y v)) := by
  have hsorted := sortByBreadth_pairwise_precedes ps
  obtain ⟨pre, mid, post, hl, hyx, hmid, hpre⟩ := firstOverlap_eq_some h
  rw [hl] at hsorted ⊢
  obtain ⟨-, htail, -⟩ := List.pairwise_append.1 hsorted
  obtain ⟨hafter_x, hrest⟩ := List.pairwise_cons.1 htail
  obtain ⟨-, hy_post, -⟩ := List.pairwise_append.1 hrest
  refine ⟨by simp, by simp, hafter_x y (by simp), hyx, fun u hu v hv huv hsub => ?_⟩
  rcases List.mem_append.1 hu with hu | hu
  · obtain ⟨pre', post', rfl⟩ := List.append_of_mem hu
    rw [List.append_assoc, List.cons_append] at hsorted hv
    have hnot := hpre pre' u post' rfl v (mem_after_of_precedes hsorted hv huv)
    simp [hnot] at hsub
  rcases List.mem_cons.1 hu with rfl | hu
  · refine .inr ⟨rfl, ?_⟩
    rcases List.mem_append.1 (mem_after_of_precedes hsorted hv huv) with hv | hv
    · simp [hmid v hv] at hsub
    · rcases List.mem_cons.1 hv with rfl | hv
      · exact .inl rfl
      · exact .inr ((List.pairwise_cons.1 hy_post).1 v hv)
  · exact .inl (hafter_x u hu)

/-- The validation of a list of constructed patterns ends with the pair the search finds. -/
theorem checkedPatterns_of_firstOverlap {ms : List MaskWord} {ps : List Pattern} (hc : ms.map construct = ps.map some)
    {x y : Pattern × Nat} (h : firstOverlap (sortByBreadth ps) = some (x, y)) :
    checkedPatterns ms =
      .error (.patternOverlap (BitVec.ofNat 8 x.2) (BitVec.ofNat 8 y.2) x.1.mask y.1.mask) := by
  simp only [checkedPatterns, (constructFrom_ok_iff 0 ms ps).2 hc, overlapError, h]

/-- Settles O28: the search finds a pair, since the list holds a subset; the pair is the first in sorted order. -/
theorem overlapReportsFirstPair : Obligations.OverlapReportsFirstPair := by
  rintro s ms ps hc ⟨i₀, j₀, p₀, q₀, hne, hp₀, hq₀, hsub₀⟩
  obtain ⟨⟨p, i⟩, ⟨q, j⟩, hfound⟩ := exists_firstOverlap hc hne hp₀ hq₀ hsub₀
  obtain ⟨hx, hy, hxy, hsub, hfirst⟩ := firstOverlap_sorted_first hfound
  have hp := mem_sortByBreadth.1 hx
  have hq := mem_sortByBreadth.1 hy
  refine ⟨i, j, p, q, (sortedBefore_iff_precedes hp hq).2 hxy, hp, hq, hsub, ?_, ?_⟩
  · intro a b p' q' hab hp' hq' hsub'
    rcases hfirst _ (mem_sortByBreadth.2 hp') _ (mem_sortByBreadth.2 hq')
      ((sortedBefore_iff_precedes hp' hq').1 hab) hsub' with h | ⟨hu, hv⟩
    · exact .inl ((sortedBefore_iff_precedes hp hp').2 h)
    · refine .inr ⟨congrArg Prod.snd hu, hv.imp (congrArg Prod.snd) fun h => ?_⟩
      exact (sortedBefore_iff_precedes hq hq').2 h
  · exact execCheckOverlap_of_error (checkedPatterns_of_firstOverlap hc hfound) s

end Sys2Proof.Machine
end

section
/-! PROOFS. Family 41_event_command: the payload EXTRACT takes out of a byte (R93) and the byte TRANSLATE makes of a
value (R99). -/

namespace Sys2Proof.Machine

/-! ### The block of `2^k` numbers above a multiple of `2^k` -/

/-- Within the block above a multiple of `n`, the distance from the multiple is the remainder. -/
theorem sub_eq_mod_of_block {n v b : Nat} (hv : v % n = 0) (hle : v ≤ b) (hlt : b - v < n) : b - v = b % n := by
  obtain ⟨q, rfl⟩ := Nat.dvd_of_mod_eq_zero hv
  obtain ⟨r, rfl⟩ := Nat.exists_eq_add_of_le hle
  rw [Nat.add_sub_cancel_left] at hlt ⊢
  rw [Nat.mul_add_mod, Nat.mod_eq_of_lt hlt]

/-- The run of `k` ones as a number: for `k ≤ 8` the byte holds it. -/
theorem run_toNat {k : Nat} (hk : k ≤ 8) : (BitVec.ofNat 8 (2 ^ k - 1)).toNat = 2 ^ k - 1 := by
  have hpow : 2 ^ k ≤ 2 ^ 8 := Nat.pow_le_pow_right (by decide) hk
  rw [BitVec.toNat_ofNat]
  omega

/-- The wildcard bits of a byte are its remainder modulo `2^k` (41_event_command R94). -/
theorem and_run_toNat {k : Nat} (hk : k ≤ 8) (b : Byte) :
    (b &&& BitVec.ofNat 8 (2 ^ k - 1)).toNat = b.toNat % 2 ^ k := by
  rw [BitVec.toNat_and, run_toNat hk, Nat.and_two_pow_sub_one_eq_mod]

/-- A byte in the block above `v`: what it exceeds `v` by is its low `k` bits. -/
theorem sub_toNat_of_block {k : Nat} {v b : Byte} (hv : v.toNat % 2 ^ k = 0) (hlow : v.toNat ≤ b.toNat)
    (hhigh : b.toNat ≤ v.toNat + (2 ^ k - 1)) : (b - v).toNat = b.toNat % 2 ^ k := by
  have hpos : 0 < 2 ^ k := Nat.two_pow_pos k
  rw [BitVec.toNat_sub_of_le (BitVec.le_def.2 hlow)]
  exact sub_eq_mod_of_block hv hlow (by omega)

/-- A value below `2^k` stands under the `k` wildcards: it is joined to the bits `v` without a carry (41_event_command
R99, R100). -/
theorem or_ofNat_eq_add {k x : Nat} {v : Byte} (hv : v.toNat % 2 ^ k = 0) (hx : x < 2 ^ k) :
    v ||| BitVec.ofNat 8 x = v + BitVec.ofNat 8 x := by
  obtain ⟨q, hq⟩ := Nat.dvd_of_mod_eq_zero hv
  have hx8 : x % 2 ^ 8 < 2 ^ k := Nat.lt_of_le_of_lt (Nat.mod_le x _) hx
  have hor : (v ||| BitVec.ofNat 8 x).toNat = v.toNat + x % 2 ^ 8 := by
    rw [BitVec.toNat_or, BitVec.toNat_ofNat, hq, Nat.two_pow_add_eq_or_of_lt hx8]
  apply BitVec.eq_of_toNat_eq
  rw [BitVec.toNat_add, BitVec.toNat_ofNat, ← hor, Nat.mod_eq_of_lt (BitVec.isLt _)]

/-- The pattern of the mask with `k` wildcards under `v`, and the bytes in its range (40_bitpattern R76 to R78). -/
theorem exists_construct_maskOf {k : Nat} {v : Byte} (hk : k ≤ 8) (hv : v.toNat % 2 ^ k = 0) :
    ∃ p, construct (maskOf k v) = some p ∧ p.mb = k ∧ p.low = v ∧
      ∀ b, inRange p b = true ↔ v.toNat ≤ b.toNat ∧ b.toNat ≤ v.toNat + (2 ^ k - 1) := by
  refine ⟨_, construct_maskOf hk hv, rfl, rfl, fun b => ?_⟩
  rw [inRange_iff, BitVec.le_def, BitVec.le_def, or_run_toNat hk v hv]

/-! ### EXTRACT (41_event_command R93) -/

/-- A byte outside the range has no payload. -/
theorem extractArg_of_not_inRange {p : Pattern} {b : Byte} (h : ¬inRange p b = true) : extractArg p b = none :=
  Option.not_isSome_iff_eq_none.1 (mt (extractArg_isSome_iff p b).1 h)

theorem execExtract_of_inRange {m : MaskWord} {p : Pattern} {b : Byte} (hp : construct m = some p)
    (hb : inRange p b = true) (s : State) :
    execExtract m b s = respondOk .extract (infoExtract p.mb (b &&& BitVec.ofNat 8 (2 ^ p.mb - 1))) s := by
  simp only [execExtract, (constructAt_ok_iff 0 m p).2 hp, extractArg_of_inRange hb]

theorem execExtract_of_not_inRange {m : MaskWord} {p : Pattern} {b : Byte} (hp : construct m = some p)
    (hb : ¬inRange p b = true) (s : State) :
    execExtract m b s = raise Opcode.extract.code (.patternMismatch b) s := by
  simp only [execExtract, (constructAt_ok_iff 0 m p).2 hp, extractArg_of_not_inRange hb]

theorem execExtract_of_not_validMask {m : MaskWord} (h : ¬ValidMask m) (b : Byte) (s : State) :
    execExtract m b s = raise Opcode.extract.code (.invalidMask m 0) s := by
  simp only [execExtract, (constructAt_error_iff 0 m _).2 ⟨h, rfl⟩]
  rfl

/-- Settles O31: the low `k` bits that EXTRACT keeps are the byte minus `v`, since the byte lies in the block above
`v`. -/
theorem extractGivesPayload : Obligations.ExtractGivesPayload := by
  refine ⟨fun s k v b hk hv => ?_, fun s m b hm => execExtract_of_not_validMask hm b s⟩
  obtain ⟨p, hp, rfl, -, hrange⟩ := exists_construct_maskOf hk hv
  refine ⟨fun ⟨hlow, hhigh⟩ => ?_, fun hb => execExtract_of_not_inRange hp (mt (hrange b).1 hb) s⟩
  have hsub : (b - v).toNat = b.toNat % 2 ^ p.mb := sub_toNat_of_block hv hlow hhigh
  have hraw : b &&& BitVec.ofNat 8 (2 ^ p.mb - 1) = b - v :=
    BitVec.eq_of_toNat_eq ((and_run_toNat hk b).trans hsub.symm)
  have hexec := execExtract_of_inRange hp ((hrange b).2 ⟨hlow, hhigh⟩) s
  rw [hraw] at hexec
  exact ⟨hsub, hexec⟩

/-! ### TRANSLATE (41_event_command R99) -/

theorem execTranslate_of_lt {m : MaskWord} {p : Pattern} {x : BitVec 32} (hp : construct m = some p)
    (hx : x.toNat < 2 ^ p.mb) (s : State) :
    execTranslate m x s = respondOk .translate (infoByte (p.low ||| BitVec.ofNat 8 x.toNat)) s := by
  simp only [execTranslate, (constructAt_ok_iff 0 m p).2 hp, insertValue_eq, hx, if_true]

theorem execTranslate_of_le {m : MaskWord} {p : Pattern} {x : BitVec 32} (hp : construct m = some p)
    (hx : 2 ^ p.mb ≤ x.toNat) (s : State) :
    execTranslate m x s = raise Opcode.translate.code (.valueOverflow p.mb x.toNat) s := by
  simp only [execTranslate, (constructAt_ok_iff 0 m p).2 hp, insertValue_eq, Nat.not_lt.2 hx, if_false]

theorem execTranslate_of_not_validMask {m : MaskWord} (h : ¬ValidMask m) (x : BitVec 32) (s : State) :
    execTranslate m x s = raise Opcode.translate.code (.invalidMask m 0) s := by
  simp only [execTranslate, (constructAt_error_iff 0 m _).2 ⟨h, rfl⟩]
  rfl

/-- The response of an overflow carries the whole value in its second word (30_encoding R69). -/
theorem errorFrame_valueOverflow (op : BitVec 4) (mb : Nat) (x : BitVec 32) :
    errorFrame op (.valueOverflow mb x.toNat) = [op ++ (6#4 ++ (0#20 ++ BitVec.ofNat 4 mb)), x] := by
  simp only [errorFrame, errorSecondWord, BitVec.ofNat_toNat, BitVec.setWidth_eq]
  rfl

/-- Settles O32: below `2^k` the value is joined to the bits `v` without a carry; from `2^k` on it does not fit. -/
theorem translateInsertsOrOverflows : Obligations.TranslateInsertsOrOverflows := by
  refine ⟨fun s k v x hk hv => ?_, fun s m x hm => execTranslate_of_not_validMask hm x s⟩
  obtain ⟨p, hp, rfl, rfl, -⟩ := exists_construct_maskOf hk hv
  constructor
  · intro hx
    have hexec := execTranslate_of_lt hp hx s
    rw [or_ofNat_eq_add hv hx, BitVec.ofNat_toNat] at hexec
    exact hexec
  · intro hx
    have hexec := execTranslate_of_le hp hx s
    rw [raise_eq, errorFrame_valueOverflow] at hexec
    exact hexec

end Sys2Proof.Machine
end

section
/-! PROOFS. Family 42_codecs: the value ENC_SERVICES gathers from its arguments or the unknown name it reports (R108),
the value ENC_RGB looks up or packs (R110), and the half units of DEC_TEMP (R113). -/

namespace Sys2Proof.Machine

/-- A field wide enough for a number holds it exactly. -/
theorem toNat_ofNat_of_lt {w v : Nat} (h : v < 2 ^ w) : (BitVec.ofNat w v).toNat = v := by
  rw [BitVec.toNat_ofNat, Nat.mod_eq_of_lt h]

/-! ### ENC_SERVICES (42_codecs R108) -/

/-- An id up to 6 is recognized (42_codecs R109). -/
theorem exists_serviceBits_of_le {a : Arg} (h : a.toNat ≤ 6) : ∃ bits, serviceBits a = some bits :=
  Option.ne_none_iff_exists'.1 (mt (serviceBits_eq_none_iff a).1 (Nat.not_lt.2 h))

/-- Known ids are encoded, within six bits, each bit set by its own id or by the id 6. -/
theorem encodeServices_of_known {args : List Arg} (h : ∀ a ∈ args, a.toNat ≤ 6) :
    ∃ v, encodeServices args = .ok v ∧ v ≤ 63 ∧
      ∀ k, k < 6 → (v.testBit k = true ↔ ∃ a ∈ args, a.toNat = k ∨ a.toNat = 6) := by
  cases hv : encodeServices args with
  | error e =>
    obtain ⟨pre, a, post, rfl, -, ha, -⟩ := servicesFrom_error hv
    exact absurd (h a List.mem_append_cons_self) (Nat.not_le.2 ha)
  | ok v =>
    refine ⟨v, rfl, servicesFrom_le (Nat.zero_le 63) hv, fun k hk => ?_⟩
    have hor := (servicesFrom_ok hv).2 k hk
    rwa [Nat.zero_testBit, Bool.false_eq_true, false_or] at hor

/-- The loop stops at the first unknown id, whatever was gathered before it and whatever follows it. -/
theorem servicesFrom_first_unknown {pre : List Arg} (hpre : ∀ x ∈ pre, x.toNat ≤ 6) {a : Arg} (ha : 6 < a.toNat)
    (post : List Arg) (j acc : Nat) :
    servicesFrom j acc (pre ++ a :: post) = .error (.unknownServiceName a (BitVec.ofNat 8 (j + pre.length))) := by
  induction pre generalizing j acc with
  | nil => simp only [List.nil_append, servicesFrom, (serviceBits_eq_none_iff a).2 ha, List.length_nil, Nat.add_zero]
  | cons x pre ih =>
    obtain ⟨hx, hrest⟩ := List.forall_mem_cons.1 hpre
    obtain ⟨bits, hbits⟩ := exists_serviceBits_of_le hx
    simp only [List.cons_append, servicesFrom, hbits, ih hrest, List.length_cons, Nat.add_assoc, Nat.add_comm 1]

/-- The position reported counts from the start of the list. -/
theorem encodeServices_first_unknown {pre : List Arg} (hpre : ∀ x ∈ pre, x.toNat ≤ 6) {a : Arg} (ha : 6 < a.toNat)
    (post : List Arg) :
    encodeServices (pre ++ a :: post) = .error (.unknownServiceName a (BitVec.ofNat 8 pre.length)) := by
  rw [encodeServices, servicesFrom_first_unknown hpre ha, Nat.zero_add]

theorem execEncServices_of_ok {args : List Arg} {v : Nat} (h : encodeServices args = .ok v) (s : State) :
    execEncServices args s = respondOk .encServices (BitVec.ofNat 24 v) s := by
  simp only [execEncServices, h]

theorem execEncServices_of_error {args : List Arg} {e : OpError} (h : encodeServices args = .error e) (s : State) :
    execEncServices args s = raise Opcode.encServices.code e s := by
  simp only [execEncServices, h]

/-- Settles O34: known ids are encoded bit by bit into a value that `INFO` holds whole, and the loop stops at the first
unknown one. -/
theorem encServicesOrsServiceBits : Obligations.EncServicesOrsServiceBits := by
  refine ⟨fun s args h => ?_,
    fun s _ _ post hpre ha => execEncServices_of_error (encodeServices_first_unknown hpre ha post) s⟩
  obtain ⟨v, hv, hle, hbits⟩ := encodeServices_of_known h
  have hx : (BitVec.ofNat 24 v).toNat = v := toNat_ofNat_of_lt (Nat.lt_of_le_of_lt hle (by decide))
  refine ⟨BitVec.ofNat 24 v, hx.trans_le hle, fun k hk => ?_, execEncServices_of_ok hv s⟩
  rw [← BitVec.testBit_toNat, hx]
  exact hbits k hk

/-! ### ENC_RGB (42_codecs R110) -/

/-- A known palette id has a value of at most six bits (42_codecs R111). -/
theorem exists_paletteValue_of_le {a : Arg} (h : a.toNat ≤ 7) : ∃ v, paletteValue a = some v ∧ v ≤ 63 := by
  unfold paletteValue
  generalize a.toNat = n at h
  interval_cases n <;> exact ⟨_, rfl, by decide⟩

/-- An id above 7 is not in the palette (42_codecs R111). -/
theorem paletteValue_eq_none_iff (a : Arg) : paletteValue a = none ↔ 7 < a.toNat := by
  unfold paletteValue
  rw [List.getElem?_eq_none_iff]
  exact Iff.rfl

/-- One argument is a palette id. -/
theorem encodeRgb_palette {a : Arg} {v : Nat} (h : paletteValue a = some v) : encodeRgb [a] = .ok v := by
  simp only [encodeRgb, h]

theorem encodeRgb_unknownPalette {a : Arg} (h : 7 < a.toNat) : encodeRgb [a] = .error (.codecArg 2) := by
  simp only [encodeRgb, (paletteValue_eq_none_iff a).2 h]

/-- Three arguments are the channels. -/
theorem encodeRgb_channels (r g b : Arg) :
    encodeRgb [r, g, b] = .ok (r.toNat * 16 + g.toNat * 4 + b.toNat) := rfl

/-- Any number of arguments but one or three is refused, whatever they are (42_codecs R112). -/
theorem encodeRgb_of_length {args : List Arg} (h1 : args.length ≠ 1) (h3 : args.length ≠ 3) :
    encodeRgb args = .error (.codecArg 1) := by
  match args, h1, h3 with
  | [], _, _ => rfl
  | [_], h1, _ => exact absurd rfl h1
  | [_, _], _, _ => rfl
  | [_, _, _], _, h3 => exact absurd rfl h3
  | _ :: _ :: _ :: _ :: _, _, _ => rfl

/-- Three 16-bit channels pack into at most 21 bits. -/
theorem channels_lt (r g b : Arg) : r.toNat * 16 + g.toNat * 4 + b.toNat < 2 ^ 21 := by
  have := r.isLt
  have := g.isLt
  have := b.isLt
  omega

theorem execEncRgb_of_ok {args : List Arg} {v : Nat} (h : encodeRgb args = .ok v) (s : State) :
    execEncRgb args s = respondOk .encRgb (BitVec.ofNat 24 v) s := by
  simp only [execEncRgb, h]

theorem execEncRgb_of_error {args : List Arg} {e : OpError} (h : encodeRgb args = .error e) (s : State) :
    execEncRgb args s = raise Opcode.encRgb.code e s := by
  simp only [execEncRgb, h]

/-- Settles O35, form by form: a palette value and a packed value both fit the 24 bits of `INFO`. -/
theorem encRgbPaletteOrPacked : Obligations.EncRgbPaletteOrPacked := by
  refine ⟨fun s a ha => ?_, fun s _ ha => execEncRgb_of_error (encodeRgb_unknownPalette ha) s, fun s r g b => ?_,
    fun s _ h1 h3 => execEncRgb_of_error (encodeRgb_of_length h1 h3) s⟩
  · obtain ⟨v, hv, hle⟩ := exists_paletteValue_of_le ha
    have hx : (BitVec.ofNat 24 v).toNat = v := toNat_ofNat_of_lt (Nat.lt_of_le_of_lt hle (by decide))
    exact ⟨BitVec.ofNat 24 v, hv.trans (congrArg some hx.symm), execEncRgb_of_ok (encodeRgb_palette hv) s⟩
  · exact ⟨_, toNat_ofNat_of_lt (Nat.lt_trans (channels_lt r g b) (by decide)),
      execEncRgb_of_ok (encodeRgb_channels r g b) s⟩

/-! ### DEC_TEMP (42_codecs R113) -/

/-- The sum stays below `2^12`, so the field holds the exact count of half units. -/
theorem decodeTemperature_value_toNat (raw : Byte) : (decodeTemperature raw).value.toNat = raw.toNat + 20 :=
  toNat_ofNat_of_lt (Nat.lt_trans (Nat.add_lt_add_right raw.isLt 20) (by decide))

/-- Settles O36: the value field holds `raw + 20` without a wrap. -/
theorem decTempCountsHalfUnits : Obligations.DecTempCountsHalfUnits := fun s raw =>
  ⟨(decodeTemperature raw).value, decodeTemperature_value_toNat raw,
    respondOk_eq .decTemp (infoValue (decodeTemperature raw)) s⟩

end Sys2Proof.Machine
end

section
/-! PROOFS. Family 43_dispatcher: what a load installs (R120, R121, R135), the two handler writes (R123, R126), the event
a DECODE dispatches (R128, R130 to R132), the stages of ENCODE_SEND (R138), and the independence of the two
sub-protocols (R140). -/

namespace Sys2Proof.Machine

/-! ### Disjoint ranges pass the overlap check (40_bitpattern R83, R88) -/

/-- A valid mask constructs to the pattern that R76 derives from it. -/
theorem construct_eq_patternOf {m : MaskWord} (h : ValidMask m) : construct m = some (patternOf m) := by
  obtain ⟨p, hp⟩ := Option.isSome_iff_exists.1 ((construct_isSome_iff m).2 h)
  obtain ⟨k, v, hk, -, rfl, rfl⟩ := construct_cases hp
  have hlog : Nat.log2 ((BitVec.ofNat 8 (2 ^ k - 1)).toNat + 1) = k := by
    rw [run_toNat hk, Nat.sub_add_cancel (Nat.two_pow_pos k), Nat.log2_two_pow]
  rw [hp, patternOf, wildcardFlags_maskOf, valueBits_maskOf, hlog]

/-- The low end of a constructed pattern is in its range. -/
theorem inRange_low {m : MaskWord} {p : Pattern} (hp : construct m = some p) : inRange p p.low = true := by
  obtain ⟨k, v, hk, hv, -, rfl⟩ := construct_cases hp
  rw [inRange_iff, BitVec.le_def, BitVec.le_def, or_run_toNat hk v hv]
  exact ⟨Nat.le_refl _, Nat.le_add_right _ _⟩

/-- Bytes whose bits agree from position `k` up have the same quotient by `2^k`. -/
theorem div_two_pow_eq_of_getLsbD_eq {k : Nat} {a b : Byte}
    (h : ∀ i, k ≤ i → i < 8 → a.getLsbD i = b.getLsbD i) : a.toNat / 2 ^ k = b.toNat / 2 ^ k := by
  refine Nat.eq_of_testBit_eq fun i => ?_
  rw [Nat.testBit_div_two_pow, Nat.testBit_div_two_pow, BitVec.testBit_toNat, BitVec.testBit_toNat]
  by_cases hi : i + k < 8
  · exact h (i + k) (Nat.le_add_left k i) hi
  · rw [BitVec.getLsbD_of_ge a _ (Nat.le_of_not_lt hi), BitVec.getLsbD_of_ge b _ (Nat.le_of_not_lt hi)]

/-- A subset has its low end in the range of the other pattern: the two agree on the bits that the other fixes. -/
theorem inRange_low_of_isSubsetOf {m n : MaskWord} {p q : Pattern} (hp : construct m = some p)
    (hq : construct n = some q) (h : isSubsetOf p q = true) : inRange q p.low = true := by
  obtain ⟨k, v, -, -, rfl, rfl⟩ := construct_cases hp
  obtain ⟨j, w, hj, hw, rfl, rfl⟩ := construct_cases hq
  have hbits : ∀ i, j ≤ i → i < 8 → v.getLsbD i = w.getLsbD i := fun i hji hi => by
    have hsym : symbolAt (maskOf k v) i = symbolAt (maskOf j w) i := (isSubsetOf_iff _ _).1 h i hji hi
    simpa only [symbolAt, valueBits_maskOf] using congrArg Prod.snd hsym
  have hdiv : v.toNat / 2 ^ j = w.toNat / 2 ^ j := div_two_pow_eq_of_getLsbD_eq hbits
  have hsplit : w.toNat + v.toNat % 2 ^ j = v.toNat := by
    have hwv := Nat.div_add_mod w.toNat (2 ^ j)
    rw [hw, Nat.add_zero, ← hdiv] at hwv
    rw [← hwv, Nat.div_add_mod]
  have hmod : v.toNat % 2 ^ j < 2 ^ j := Nat.mod_lt _ (Nat.two_pow_pos j)
  rw [inRange_iff, BitVec.le_def, BitVec.le_def, or_run_toNat hj w hw]
  dsimp only
  omega

/-- The range that a mask claims is the range of its pattern (40_bitpattern R78). -/
theorem inRange_patternOf_iff (m : MaskWord) (b : Byte) : inRange (patternOf m) b = true ↔ Claims m b :=
  inRange_iff (patternOf m) b

theorem DisjointRanges.symm {m n : MaskWord} (h : DisjointRanges m n) : DisjointRanges n m :=
  fun b hb => h b hb.symm

/-- Of two masks with disjoint ranges neither is a subset of the other: its low end would be in both ranges. -/
theorem not_isSubsetOf_of_disjointRanges {m n : MaskWord} (hm : ValidMask m) (hn : ValidMask n)
    (h : DisjointRanges m n) : isSubsetOf (patternOf m) (patternOf n) = false := by
  rw [Bool.eq_false_iff]
  intro hsub
  have hpm := construct_eq_patternOf hm
  have hpn := construct_eq_patternOf hn
  exact h (patternOf m).low ⟨(inRange_patternOf_iff m _).1 (inRange_low hpm),
    (inRange_patternOf_iff n _).1 (inRange_low_of_isSubsetOf hpm hpn hsub)⟩

/-- A list without subsets passes the check, in whatever order the sort leaves it. -/
theorem overlapError_eq_none_of_pairwise {ps : List Pattern}
    (h : ps.Pairwise fun p q => isSubsetOf p q = false ∧ isSubsetOf q p = false) : overlapError ps = none := by
  have hperm : ((sortByBreadth ps).map Prod.fst).Perm ps := by
    simpa only [List.zipIdx_map_fst] using (sortByBreadth_perm ps).map Prod.fst
  have hsorted := List.pairwise_map.1 ((hperm.pairwise_iff And.symm).2 h)
  exact (overlapError_eq_none_iff ps).2 (hsorted.imp And.right)

/-- Valid masks with pairwise disjoint ranges pass the validation (40_bitpattern R88). -/
theorem checkedPatterns_of_disjointRanges {ms : List MaskWord} (hv : ∀ m ∈ ms, ValidMask m)
    (hd : ms.Pairwise DisjointRanges) : checkedPatterns ms = .ok (ms.map patternOf) := by
  have hconstruct : ms.map construct = (ms.map patternOf).map some := by
    rw [List.map_map]
    exact List.map_congr_left fun m hm => construct_eq_patternOf (hv m hm)
  have hno : (ms.map patternOf).Pairwise fun p q => isSubsetOf p q = false ∧ isSubsetOf q p = false :=
    List.pairwise_map.2 <| hd.imp_of_mem fun hm hn h =>
      ⟨not_isSubsetOf_of_disjointRanges (hv _ hm) (hv _ hn) h,
        not_isSubsetOf_of_disjointRanges (hv _ hn) (hv _ hm) h.symm⟩
  exact (checkedPatterns_ok_iff ms _).2 ⟨hconstruct, overlapError_eq_none_of_pairwise hno⟩

/-- The validation for a list of entries (`mask` is the entry's mask field). -/
theorem checkedPatterns_map_of_disjointRanges {α : Type} (mask : α → MaskWord) {es : List α}
    (hv : ∀ e ∈ es, ValidMask (mask e)) (hd : es.Pairwise fun e e' => DisjointRanges (mask e) (mask e')) :
    checkedPatterns (es.map mask) = .ok (es.map fun e => patternOf (mask e)) := by
  rw [checkedPatterns_of_disjointRanges (List.forall_mem_map.2 hv) (List.pairwise_map.2 hd), List.map_map]
  rfl

/-! ### The loads (43_dispatcher R120, R121, R135) -/

/-- An event load pairs each request entry with the pattern of its own mask. -/
theorem eventEntries_map_patternOf (es : List EventSpec) :
    eventEntries es (es.map fun e => patternOf e.mask) =
      es.map fun e => { name := e.name, pat := patternOf e.mask, xf := e.xf } := by
  rw [eventEntries, List.zipWith_map_right, List.zipWith_self]

/-- A command load pairs each request entry with the pattern of its own mask. -/
theorem commandEntries_map_patternOf (cs : List CommandSpec) :
    commandEntries cs (cs.map fun c => patternOf c.mask) =
      cs.map fun c => { name := c.name, pat := patternOf c.mask, xf := c.xf } := by
  rw [commandEntries, List.zipWith_map_right, List.zipWith_self]

theorem execLoadEvents_of_ok {es : List EventSpec} {ps : List Pattern}
    (h : checkedPatterns (es.map EventSpec.mask) = .ok ps) (s : State) :
    execLoadEvents es s = respondOk .loadEvents (infoByte (BitVec.ofNat 8 es.length))
      (installEvents (eventEntries es ps) s) := by
  simp only [execLoadEvents, h]

theorem execLoadCommands_of_ok {cs : List CommandSpec} {ps : List Pattern}
    (h : checkedPatterns (cs.map CommandSpec.mask) = .ok ps) (s : State) :
    execLoadCommands cs s = respondOk .loadCommands (infoByte (BitVec.ofNat 8 cs.length))
      (installCommands (commandEntries cs ps) s) := by
  simp only [execLoadCommands, h]

/-- Settles O37: the list passes the validation, so its entries are installed and the registry is cleared. -/
theorem loadEventsInstallsWholeCatalog : Obligations.LoadEventsInstallsWholeCatalog := by
  intro s es hv hd
  have hexec := execLoadEvents_of_ok (checkedPatterns_map_of_disjointRanges EventSpec.mask hv hd) s
  rw [eventEntries_map_patternOf] at hexec
  exact hexec

/-- Settles O38: the list passes the validation, so its entries are installed; the install writes nothing else. -/
theorem loadCommandsInstallsWholeCatalog : Obligations.LoadCommandsInstallsWholeCatalog := by
  intro s cs hv hd
  have hexec := execLoadCommands_of_ok (checkedPatterns_map_of_disjointRanges CommandSpec.mask hv hd) s
  rw [commandEntries_map_patternOf] at hexec
  exact hexec

/-! ### The handlers (43_dispatcher R123, R126) -/

theorem execSetHandler_of_eventNamed {s : State} {n : NameId} (h : eventNamed s n = true) (t : Token) :
    execSetHandler n t s = respondOk .setHandler 0 (setSlot n t s) :=
  if_pos h

theorem execSetHandler_of_not_eventNamed {s : State} {n : NameId} (h : ¬eventNamed s n = true) (t : Token) :
    execSetHandler n t s = raise Opcode.setHandler.code (.unknownEvent n) s :=
  if_neg h

/-- Settles O40: the new registry is the old one with one write. -/
theorem setHandlerWritesOneSlot : Obligations.SetHandlerWritesOneSlot := by
  refine ⟨fun s n t hn => ?_, fun s n t hn => ?_⟩
  · exact ⟨hregWrite s.hreg n t, hregRead_hregWrite_same s.hreg n t,
      fun n' hne => hregRead_hregWrite_other s.hreg n n' t hne,
      execSetHandler_of_eventNamed ((eventNamed_iff s n).2 hn) t⟩
  · refine execSetHandler_of_not_eventNamed (fun hnamed => ?_) t
    obtain ⟨e, he, hname⟩ := (eventNamed_iff s n).1 hnamed
    exact hn e he hname

/-- Settles O41: the operation has no branch. -/
theorem setDefaultHandlerIsUnconditional : Obligations.SetDefaultHandlerIsUnconditional := fun s t =>
  respondOk_eq .setDefaultHandler 0 (setDefault t s)

/-! ### DECODE (43_dispatcher R128, R130 to R132) -/

theorem decodeByte_of_firstMatch_none {s : State} {b : Byte} (h : firstMatch s b = none) :
    decodeByte b s = raise Opcode.decode.code (.unrecognizedByte b) s := by
  simp only [decodeByte, h]

/-- Settles O43: the scan of the catalog finds nothing. -/
theorem decodeReportsUnclaimedByte : Obligations.DecodeReportsUnclaimedByte := fun s b hunclaimed =>
  decodeByte_of_firstMatch_none <| (firstMatch_eq_none_iff s b).2 fun e he =>
    Bool.eq_false_iff.2 (mt (inRange_iff e.pat b).1 (hunclaimed e he))

/-- The scan stops at entry `i` when it claims the byte and no entry before it does (43_dispatcher R129). -/
theorem firstMatch_of_first {s : State} {b : Byte} {i : Nat} {e : EventEntry} (hi : s.ev[i]? = some e)
    (he : inRange e.pat b = true) (hfirst : ∀ j e', j < i → s.ev[j]? = some e' → ¬inRange e'.pat b = true) :
    firstMatch s b = some (e, i) := by
  obtain ⟨hlt, rfl⟩ := List.getElem?_eq_some_iff.1 hi
  refine List.find?_eq_some_iff_getElem.2 ⟨he, i, by simpa using hlt, by simp, fun j hj => ?_⟩
  have hjlt : j < s.ev.length := Nat.lt_trans hj hlt
  simpa using hfirst j s.ev[j] hj (List.getElem?_eq_getElem hjlt)

/-- The payload of a claimed byte is the byte minus the low end of the range (41_event_command R94). -/
theorem extractArg_eq_sub {m : MaskWord} {p : Pattern} {b : Byte} (hp : construct m = some p)
    (hb : inRange p b = true) : extractArg p b = some (b - p.low) := by
  rw [extractArg_of_inRange hb]
  rw [inRange_iff] at hb
  obtain ⟨k, v, hk, hv, -, rfl⟩ := construct_cases hp
  rw [BitVec.le_def, BitVec.le_def, or_run_toNat hk v hv] at hb
  obtain ⟨hlow, hhigh⟩ := hb
  have hraw : b &&& BitVec.ofNat 8 (2 ^ k - 1) = b - v :=
    BitVec.eq_of_toNat_eq ((and_run_toNat hk b).trans (sub_toNat_of_block hv hlow hhigh).symm)
  exact congrArg some hraw

theorem decodeByte_of_firstMatch {s : State} {b raw : Byte} {e : EventEntry} {i : Nat}
    (h : firstMatch s b = some (e, i)) (hraw : extractArg e.pat b = some raw) :
    decodeByte b s = .next (dispatchEvent e i raw s) := by
  simp only [decodeByte, h, hraw]

/-- What a DECODE that matched entry `i` puts on the ports for a handler: the record, if any, then the response
(30_encoding R68, R72). -/
def dispatchOutputs (h : Handler) (e : EventEntry) (i : Nat) (raw : Byte) : List PortEvent :=
  (dispatchRecord h (decodeTransform e.xf raw) e.name raw).toList ++
    [.rsp [responseWord Opcode.decode.code statusOk (infoDecode e.name i raw),
      decodeSecondWord h (decodeTransform e.xf raw)]]

/-- A dispatch changes the trace alone. -/
theorem dispatchEvent_eq (e : EventEntry) (i : Nat) (raw : Byte) (s : State) :
    dispatchEvent e i raw s = { s with trace := s.trace ++ dispatchOutputs (chooseHandler s e.name) e i raw } := rfl

theorem chooseHandler_specific {s : State} {n : NameId} {t : Token} (h : hregRead s.hreg n = some t) :
    chooseHandler s n = .specific t := by
  simp only [chooseHandler, h]

theorem chooseHandler_default {s : State} {n : NameId} {d : Token} (h : hregRead s.hreg n = none)
    (hd : s.defH = some d) : chooseHandler s n = .default d := by
  simp only [chooseHandler, h, hd]

theorem chooseHandler_none {s : State} {n : NameId} (h : hregRead s.hreg n = none) (hd : s.defH = none) :
    chooseHandler s n = .none := by
  simp only [chooseHandler, h, hd]

/-- `VTYPE` above `VALUE` of a transformed payload (30_encoding R71; 42_codecs R106). -/
theorem kindCode_append_value (xf : EventXf) (raw : Byte) :
    kindCode (decodeTransform xf raw).kind ++ (decodeTransform xf raw).value = transformedBits xf raw := by
  cases xf with
  | identity =>
    have hvalue : BitVec.ofNat 12 raw.toNat = 0#4 ++ raw := by
      rw [BitVec.ofNat_toNat]
      exact BitVec.setWidth_eq_append (by decide)
    exact congrArg (0#2 ++ ·) hvalue
  | boolean => rfl
  | temperature =>
    have hvalue : BitVec.ofNat 12 (raw.toNat + 20) = raw.setWidth 12 + 20#12 := by
      rw [BitVec.ofNat_add, BitVec.ofNat_toNat]
    exact congrArg (2#2 ++ ·) hvalue

/-- The 30 bits below `HKIND`: `VTYPE` and `VALUE` above the token (30_encoding R68, R72). -/
theorem kindCode_append_value_append (xf : EventXf) (raw : Byte) (t : Token) :
    kindCode (decodeTransform xf raw).kind ++ ((decodeTransform xf raw).value ++ t) =
      (transformedBits xf raw ++ t : BitVec 30) := by
  rw [← kindCode_append_value, BitVec.append_assoc]
  rfl

/-- A specific handler is given the transformed value (43_dispatcher R131). -/
theorem dispatchOutputs_specific (t : Token) (e : EventEntry) (i : Nat) (raw : Byte) :
    dispatchOutputs (.specific t) e i raw =
      [.dispatch (1#2 ++ (transformedBits e.xf raw ++ t)) 0,
        .rsp [0xB#4 ++ (0#4 ++ (e.name ++ (BitVec.ofNat 8 i ++ raw))),
          1#2 ++ (transformedBits e.xf raw ++ t)]] := by
  rw [← kindCode_append_value_append]
  rfl

/-- The default handler is given the name and the untransformed payload (43_dispatcher R131). -/
theorem dispatchOutputs_default (d : Token) (e : EventEntry) (i : Nat) (raw : Byte) :
    dispatchOutputs (.default d) e i raw =
      [.dispatch (2#2 ++ (0#14 ++ d)) (0#16 ++ (e.name ++ raw)),
        .rsp [0xB#4 ++ (0#4 ++ (e.name ++ (BitVec.ofNat 8 i ++ raw))),
          2#2 ++ (transformedBits e.xf raw ++ d)]] := by
  have hzero : (0#14 ++ d : BitVec 30) = 0#2 ++ (0#12 ++ d) := by
    rw [BitVec.append_assoc']
    rfl
  rw [← kindCode_append_value_append, hzero]
  rfl

/-- Without a handler there is the response alone (43_dispatcher R132). -/
theorem dispatchOutputs_none (e : EventEntry) (i : Nat) (raw : Byte) :
    dispatchOutputs .none e i raw =
      [.rsp [0xB#4 ++ (0#4 ++ (e.name ++ (BitVec.ofNat 8 i ++ raw))),
        0#2 ++ (transformedBits e.xf raw ++ 0#16)]] := by
  rw [← kindCode_append_value_append]
  rfl

/-- Settles O42: the scan stops at entry `i`, its payload is the byte minus its low end, and the handler is chosen by the
entry's name. -/
theorem decodeDispatchesFirstMatch : Obligations.DecodeDispatchesFirstMatch := by
  intro s b i e hi hp hb hfirst
  have hrange : inRange e.pat b = true := (inRange_iff e.pat b).2 hb
  have hmatch : firstMatch s b = some (e, i) :=
    firstMatch_of_first hi hrange fun j e' hj he' => mt (inRange_iff e'.pat b).1 (hfirst j e' hj he')
  have hexec : exec (.decode b) s = .next (dispatchEvent e i (b - e.pat.low) s) :=
    decodeByte_of_firstMatch hmatch (extractArg_eq_sub hp hrange)
  rw [dispatchEvent_eq] at hexec
  refine ⟨fun t ht => ?_, fun d ht hd => ?_, fun ht hd => ?_⟩
  · rwa [chooseHandler_specific ht, dispatchOutputs_specific] at hexec
  · rwa [chooseHandler_default ht hd, dispatchOutputs_default] at hexec
  · rwa [chooseHandler_none ht hd, dispatchOutputs_none] at hexec

/-! ### ENCODE_SEND (43_dispatcher R137, R138) -/

/-- Where no name stands twice, an entry of the catalog is the one found under its name (10_state R20). -/
theorem commandNamed_of_mem {s : State} {c : CommandEntry} (hnodup : (s.cmd.map CommandEntry.name).Nodup)
    (hc : c ∈ s.cmd) : commandNamed s c.name = some c := by
  cases hfound : commandNamed s c.name with
  | none => exact absurd rfl ((commandNamed_eq_none_iff s c.name).1 hfound c hc)
  | some c' =>
    obtain ⟨hc', hname⟩ := commandNamed_eq_some hfound
    exact congrArg some (List.inj_on_of_nodup_map hnodup hc' hc hname)

theorem encodeAndSend_of_unknown {s : State} {n : NameId} (h : commandNamed s n = none) (args : List Arg) :
    encodeAndSend n args s = raise Opcode.encodeSend.code (.unknownCommand n) s := by
  simp only [encodeAndSend, h]

theorem encodeAndSend_of_transform_error {s : State} {n : NameId} {c : CommandEntry} {args : List Arg} {e : OpError}
    (h : commandNamed s n = some c) (he : encodeTransform c.xf args = .error e) :
    encodeAndSend n args s = raise Opcode.encodeSend.code e s := by
  simp only [encodeAndSend, h, he]

theorem encodeAndSend_of_overflow {s : State} {n : NameId} {c : CommandEntry} {args : List Arg} {v : Nat}
    (h : commandNamed s n = some c) (hv : encodeTransform c.xf args = .ok v) (hle : 2 ^ c.pat.mb ≤ v) :
    encodeAndSend n args s = raise Opcode.encodeSend.code (.valueOverflow c.pat.mb v) s := by
  simp only [encodeAndSend, h, hv, insertValue_eq, Nat.not_lt.2 hle, if_false]

theorem encodeAndSend_of_fits {s : State} {n : NameId} {c : CommandEntry} {args : List Arg} {v : Nat}
    (h : commandNamed s n = some c) (hv : encodeTransform c.xf args = .ok v) (hlt : v < 2 ^ c.pat.mb) :
    encodeAndSend n args s = respondOk .encodeSend (infoByte (c.pat.low ||| BitVec.ofNat 8 v))
      (emit (.tx (c.pat.low ||| BitVec.ofNat 8 v)) s) := by
  simp only [encodeAndSend, h, hv, insertValue_eq, hlt, if_true]

/-- The byte of a value that fits is the low end plus the value: it is joined without a carry (41_event_command R99). -/
theorem low_or_ofNat_eq_add {m : MaskWord} {p : Pattern} {v : Nat} (hp : construct m = some p) (hv : v < 2 ^ p.mb) :
    p.low ||| BitVec.ofNat 8 v = p.low + BitVec.ofNat 8 v := by
  obtain ⟨k, w, -, hw, -, rfl⟩ := construct_cases hp
  exact or_ofNat_eq_add hw hv

/-- A byte sent and then answered: two outputs, in this order. -/
theorem respondOk_emit (op : Opcode) (info : BitVec 24) (e : PortEvent) (s : State) :
    respondOk op info (emit e s) = .next { s with trace := s.trace ++ [e, .rsp (okFrame op.code info)] } := by
  simp only [respondOk, emit, List.append_assoc, List.cons_append, List.nil_append]

/-- Settles O44, stage by stage. -/
theorem encodeSendStagesInOrder : Obligations.EncodeSendStagesInOrder := by
  refine ⟨fun s n args hn => encodeAndSend_of_unknown ((commandNamed_eq_none_iff s n).2 hn) args,
    fun s c args hnodup hc hp => ?_⟩
  have hnamed : commandNamed s c.name = some c := commandNamed_of_mem hnodup hc
  refine ⟨fun e he => encodeAndSend_of_transform_error hnamed he,
    fun v hv hle => encodeAndSend_of_overflow hnamed hv hle, fun v hv hlt => ?_⟩
  have hexec := encodeAndSend_of_fits hnamed hv hlt
  rw [low_or_ofNat_eq_add hp hlt, respondOk_emit] at hexec
  exact hexec

/-! ### The two sub-protocols (43_dispatcher R140) -/

/-- The encode side has two operations. -/
theorem encodeSide_cases {i : Instr} (h : encodeSide i = true) :
    (∃ cs, i = .loadCommands cs) ∨ ∃ n args, i = .encodeSend n args := by
  cases i <;> simp [encodeSide] at h ⊢

/-- The decode side has four operations. -/
theorem decodeSide_cases {i : Instr} (h : decodeSide i = true) :
    (∃ es, i = .loadEvents es) ∨ (∃ n t, i = .setHandler n t) ∨ (∃ t, i = .setDefaultHandler t) ∨
      ∃ b, i = .decode b := by
  cases i <;> simp [decodeSide] at h ⊢

/-- The states that the decode side cannot tell from `s` (43_dispatcher R140). -/
def SameDecodeSide (s u : State) : Prop := u.ev = s.ev ∧ u.hreg = s.hreg ∧ u.defH = s.defH

theorem commandNamed_congr {s u : State} (h : u.cmd = s.cmd) (n : NameId) : commandNamed u n = commandNamed s n := by
  rw [commandNamed, commandNamed, h]

theorem eventNamed_congr {s u : State} (h : u.ev = s.ev) (n : NameId) : eventNamed u n = eventNamed s n := by
  rw [eventNamed, eventNamed, h]

theorem firstMatch_congr {s u : State} (h : u.ev = s.ev) (b : Byte) : firstMatch u b = firstMatch s b := by
  rw [firstMatch, firstMatch, h]

theorem chooseHandler_congr {s u : State} (hhreg : u.hreg = s.hreg) (hdef : u.defH = s.defH) (n : NameId) :
    chooseHandler u n = chooseHandler s n := by
  rw [chooseHandler, chooseHandler, hhreg, hdef]

/-- What an encode-side operation does, the same on all states with the command catalog of `s`: it writes one command
catalog and adds one list of outputs. -/
def EncodeSideEffect (i : Instr) (s : State) (cmd : List CommandEntry) (out : List PortEvent) : Prop :=
  ∀ u : State, u.cmd = s.cmd → exec i u = .next { u with cmd := cmd, trace := u.trace ++ out }

/-- What a decode-side operation does, the same on all states with the decode side of `s`: it writes one event catalog,
registry and default handler and adds one list of outputs. -/
def DecodeSideEffect (i : Instr) (s : State) (ev : List EventEntry) (hreg : List (NameId × Token))
    (defH : Option Token) (out : List PortEvent) : Prop :=
  ∀ u : State, SameDecodeSide s u →
    exec i u = .next { u with ev := ev, hreg := hreg, defH := defH, trace := u.trace ++ out }

/-- An encode-side operation that only adds outputs keeps the command catalog. -/
theorem encodeSideEffect_of_outputs {i : Instr} {s : State} {out : List PortEvent}
    (h : ∀ u : State, u.cmd = s.cmd → exec i u = .next { u with trace := u.trace ++ out }) :
    EncodeSideEffect i s s.cmd out := fun u hu => by
  rw [h u hu, ← hu]

/-- A decode-side operation that only adds outputs keeps the decode side. -/
theorem decodeSideEffect_of_outputs {i : Instr} {s : State} {out : List PortEvent}
    (h : ∀ u : State, SameDecodeSide s u → exec i u = .next { u with trace := u.trace ++ out }) :
    DecodeSideEffect i s s.ev s.hreg s.defH out := fun u hu => by
  rw [h u hu]
  obtain ⟨hev, hhreg, hdef⟩ := hu
  rw [← hev, ← hhreg, ← hdef]

theorem encodeSideEffect_loadCommands (cs : List CommandSpec) (s : State) :
    ∃ cmd out, EncodeSideEffect (.loadCommands cs) s cmd out := by
  cases h : checkedPatterns (cs.map CommandSpec.mask) with
  | error e => exact ⟨_, _, encodeSideEffect_of_outputs fun u _ => execLoadCommands_of_error h u⟩
  | ok ps => exact ⟨commandEntries cs ps, _, fun u _ => execLoadCommands_of_ok h u⟩

theorem encodeSideEffect_encodeSend (n : NameId) (args : List Arg) (s : State) :
    ∃ cmd out, EncodeSideEffect (.encodeSend n args) s cmd out := by
  have hname : ∀ u : State, u.cmd = s.cmd → commandNamed u n = commandNamed s n :=
    fun u hu => commandNamed_congr hu n
  rcases encodeAndSend_cases n args s with ⟨h, -⟩ | ⟨c, e, h, he, -⟩ | ⟨c, v, h, hv, hle, -⟩ | ⟨c, v, h, hv, hlt, -⟩
  · exact ⟨_, _, encodeSideEffect_of_outputs fun u hu => encodeAndSend_of_unknown ((hname u hu).trans h) args⟩
  · exact ⟨_, _, encodeSideEffect_of_outputs fun u hu => encodeAndSend_of_transform_error ((hname u hu).trans h) he⟩
  · exact ⟨_, _, encodeSideEffect_of_outputs fun u hu => encodeAndSend_of_overflow ((hname u hu).trans h) hv hle⟩
  · exact ⟨_, _, encodeSideEffect_of_outputs fun u hu =>
      (encodeAndSend_of_fits ((hname u hu).trans h) hv hlt).trans (respondOk_emit _ _ _ u)⟩

theorem decodeSideEffect_loadEvents (es : List EventSpec) (s : State) :
    ∃ ev hreg defH out, DecodeSideEffect (.loadEvents es) s ev hreg defH out := by
  cases h : checkedPatterns (es.map EventSpec.mask) with
  | error e => exact ⟨_, _, _, _, decodeSideEffect_of_outputs fun u _ => execLoadEvents_of_error h u⟩
  | ok ps =>
    refine ⟨eventEntries es ps, [], s.defH,
      [.rsp (okFrame Opcode.loadEvents.code (infoByte (BitVec.ofNat 8 es.length)))], fun u ⟨_, _, hdef⟩ => ?_⟩
    rw [← hdef]
    exact execLoadEvents_of_ok h u

theorem decodeSideEffect_setHandler (n : NameId) (t : Token) (s : State) :
    ∃ ev hreg defH out, DecodeSideEffect (.setHandler n t) s ev hreg defH out := by
  by_cases h : eventNamed s n = true
  · refine ⟨s.ev, hregWrite s.hreg n t, s.defH, [.rsp (okFrame Opcode.setHandler.code 0)],
      fun u ⟨hev, hhreg, hdef⟩ => ?_⟩
    rw [← hev, ← hhreg, ← hdef]
    exact execSetHandler_of_eventNamed ((eventNamed_congr hev n).trans h) t
  · exact ⟨_, _, _, _, decodeSideEffect_of_outputs fun u ⟨hev, _, _⟩ =>
      execSetHandler_of_not_eventNamed (fun hu => h ((eventNamed_congr hev n).symm.trans hu)) t⟩

theorem decodeSideEffect_setDefaultHandler (t : Token) (s : State) :
    ∃ ev hreg defH out, DecodeSideEffect (.setDefaultHandler t) s ev hreg defH out := by
  refine ⟨s.ev, s.hreg, some t, [.rsp (okFrame Opcode.setDefaultHandler.code 0)], fun u ⟨hev, hhreg, _⟩ => ?_⟩
  rw [← hev, ← hhreg]
  exact setDefaultHandlerIsUnconditional u t

theorem decodeSideEffect_decode (b : Byte) (s : State) :
    ∃ ev hreg defH out, DecodeSideEffect (.decode b) s ev hreg defH out := by
  cases h : firstMatch s b with
  | none =>
    exact ⟨_, _, _, _, decodeSideEffect_of_outputs fun u ⟨hev, _, _⟩ =>
      decodeByte_of_firstMatch_none ((firstMatch_congr hev b).trans h)⟩
  | some x =>
    obtain ⟨e, i⟩ := x
    obtain ⟨raw, hraw⟩ := Option.isSome_iff_exists.1 ((extractArg_isSome_iff e.pat b).2 (firstMatch_eq_some h).2)
    refine ⟨_, _, _, dispatchOutputs (chooseHandler s e.name) e i raw,
      decodeSideEffect_of_outputs fun u ⟨hev, hhreg, hdef⟩ => ?_⟩
    rw [← chooseHandler_congr hhreg hdef]
    exact decodeByte_of_firstMatch ((firstMatch_congr hev b).trans h) hraw

/-- Every encode-side operation has one effect on all states with the same command catalog (43_dispatcher R140). -/
theorem exists_encodeSideEffect {i : Instr} (hi : encodeSide i = true) (s : State) :
    ∃ cmd out, EncodeSideEffect i s cmd out := by
  obtain ⟨cs, rfl⟩ | ⟨n, args, rfl⟩ := encodeSide_cases hi
  · exact encodeSideEffect_loadCommands cs s
  · exact encodeSideEffect_encodeSend n args s

/-- Every decode-side operation has one effect on all states with the same decode side (43_dispatcher R140). -/
theorem exists_decodeSideEffect {i : Instr} (hi : decodeSide i = true) (s : State) :
    ∃ ev hreg defH out, DecodeSideEffect i s ev hreg defH out := by
  obtain ⟨es, rfl⟩ | ⟨n, t, rfl⟩ | ⟨t, rfl⟩ | ⟨b, rfl⟩ := decodeSide_cases hi
  · exact decodeSideEffect_loadEvents es s
  · exact decodeSideEffect_setHandler n t s
  · exact decodeSideEffect_setDefaultHandler t s
  · exact decodeSideEffect_decode b s

/-- Settles O20: an operation of either side has one effect on all states that agree on that side, and the effect is a
write of that side's fields and outputs. -/
theorem subProtocolsDoNotInterfere : Obligations.SubProtocolsDoNotInterfere := by
  constructor
  · intro i s s' hi hcmd
    obtain ⟨cmd, out, heffect⟩ := exists_encodeSideEffect hi s
    exact ⟨_, _, out, heffect s rfl, heffect s' hcmd.symm, rfl, rfl, rfl, rfl, rfl, rfl⟩
  · intro i s s' hi hev hhreg hdef
    obtain ⟨ev, hreg, defH, out, heffect⟩ := exists_decodeSideEffect hi s
    exact ⟨_, _, out, heffect s ⟨rfl, rfl, rfl⟩, heffect s' ⟨hev.symm, hhreg.symm, hdef.symm⟩, rfl, rfl, rfl, rfl, rfl,
      rfl⟩

end Sys2Proof.Machine
end

section
/-! PROOFS. Family other, the frames: what each list format is read as (30_encoding R56, R59), the structural checks of
every format in their order (R61), and the two directions of the round trip (R51 to R63). -/

namespace Sys2Proof

/-! ### The three outcomes of the header and length checks (30_encoding R61 steps 3, 4) -/

section
variable (cfg : Params) {op : Opcode} {h : Word} {rest : List Word}

theorem decodeFrame_of_reservedHeader (e : h.extractLsb' 28 4 = op.code) (hz : h &&& op.reservedHeaderBits ≠ 0) :
    decodeFrame cfg (h :: rest) = .error .reservedBit :=
  (decodeFrame_cons cfg rest e).trans (if_pos hz)

theorem decodeFrame_of_length (e : h.extractLsb' 28 4 = op.code) (hz : h &&& op.reservedHeaderBits = 0)
    (hl : rest.length ≠ op.laterWords h) : decodeFrame cfg (h :: rest) = .error .frameLength := by
  rw [decodeFrame_cons cfg rest e, if_neg (not_not.2 hz), if_pos hl]

theorem decodeFrame_of_header (e : h.extractLsb' 28 4 = op.code) (hz : h &&& op.reservedHeaderBits = 0)
    (hl : rest.length = op.laterWords h) : decodeFrame cfg (h :: rest) = decodeOperands cfg op h rest := by
  rw [decodeFrame_cons cfg rest e, if_neg (not_not.2 hz), if_neg (not_not.2 hl)]

end

/-! ### The words of a list, read and refused (30_encoding R61 steps 5 to 8) -/

/-- The reserved halves of argument and mask words are clear. -/
theorem anyHighHalf_eq_false_iff (ws : List Word) : anyHighHalf ws = false ↔ ¬∃ w ∈ ws, w.extractLsb' 16 16 ≠ 0 := by
  rw [← anyHighHalf_iff, Bool.not_eq_true]

/-- The reserved bits of catalog entry words are clear. -/
theorem anyEntryReserved_eq_false_iff (ws : List Word) :
    anyEntryReserved ws = false ↔ ¬∃ w ∈ ws, w.extractLsb' 16 4 ≠ 0 := by
  rw [← anyEntryReserved_iff, Bool.not_eq_true]

/-- No catalog entry word that the encoder writes has a reserved bit set. -/
theorem anyEntryReserved_entryWords {α : Type} (name : α → NameId) (code : α → BitVec 4) (mask : α → MaskWord)
    (xs : List α) : anyEntryReserved (xs.map fun x => entryWord (name x) (code x) (mask x)) = false := by
  simp [anyEntryReserved]

theorem repeatsName_iff (cs : List CommandSpec) : repeatsName cs = true ↔ ¬(cs.map CommandSpec.name).Nodup := by
  simp [repeatsName]

theorem repeatsName_eq_false_iff (cs : List CommandSpec) :
    repeatsName cs = false ↔ (cs.map CommandSpec.name).Nodup := by
  simp [repeatsName]

section
variable {cfg : Params} {rest : List Word}

theorem decodeCheckOverlap_of_fits (hcap : rest.length ≤ max cfg.nEv.toNat cfg.nCmd.toNat)
    (hbit : anyHighHalf rest = false) : decodeCheckOverlap cfg rest = .ok (.checkOverlap (rest.map lowHalf)) := by
  simp only [decodeCheckOverlap, Nat.not_lt.2 hcap, hbit, if_false, Bool.false_eq_true]

theorem decodeLoadEvents_of_fits (hcap : rest.length ≤ cfg.nEv.toNat) (hbit : anyEntryReserved rest = false)
    {es : List EventSpec} (hes : eventSpecs rest = some es) : decodeLoadEvents cfg rest = .ok (.loadEvents es) := by
  simp only [decodeLoadEvents, Nat.not_lt.2 hcap, hbit, hes, if_false, Bool.false_eq_true]

theorem decodeLoadCommands_of_fits (hcap : rest.length ≤ cfg.nCmd.toNat) (hbit : anyEntryReserved rest = false)
    {cs : List CommandSpec} (hcs : commandSpecs rest = some cs) (hnames : (cs.map CommandSpec.name).Nodup) :
    decodeLoadCommands cfg rest = .ok (.loadCommands cs) := by
  simp only [decodeLoadCommands, Nat.not_lt.2 hcap, hbit, hcs, (repeatsName_eq_false_iff cs).2 hnames, if_false,
    Bool.false_eq_true]

theorem decodeArgs_of_clear (hbit : anyHighHalf rest = false) (k : List Arg → Instr) :
    decodeArgs rest k = .ok (k (rest.map lowHalf)) := by
  simp only [decodeArgs, hbit, if_false, Bool.false_eq_true]

end

/-! ### Written list frames (30_encoding R56, R59) -/

/-- A count up to 255 is read back from its 8-bit field. -/
theorem count_toNat {n : Nat} (h : n ≤ 255) : (BitVec.ofNat 8 n).toNat = n :=
  Machine.toNat_ofNat_of_lt (Nat.lt_succ_of_le h)

/-- A count within an 8-bit capacity is read back from its field. -/
theorem count_toNat_of_le_capacity {n : Nat} {capacity : BitVec 8} (h : n ≤ capacity.toNat) :
    (BitVec.ofNat 8 n).toNat = n :=
  count_toNat (Laws.frameLength_of_le capacity h)

/-- Between `NAME` and `ARGC` a written header of format A is clear. -/
theorem gap_headerArgs (op : Opcode) (n : NameId) (args : List Arg) :
    (header op (operandsArgs n args)).extractLsb' 8 8 = 0 :=
  (header_bits op _ 8 8 (by decide)).trans
    ((extract_inLow n (0#8 ++ BitVec.ofNat 8 args.length) 8 8 (by decide)).trans
      (extract_high 0#8 (BitVec.ofNat 8 args.length)))

/-- A written header of format A has no reserved bit set: ENCODE_SEND names a command, the other two have `NAME` 0. -/
theorem headerArgs_and_gap (op : Opcode) (n : NameId) (args : List Arg) :
    header op (operandsArgs n args) &&& 0x0F00FF00 = 0 :=
  (reserved_gap_iff _).2 ⟨zNibble_header op _, gap_headerArgs op n args⟩

theorem headerArgs_and_name_gap (op : Opcode) (args : List Arg) :
    header op (operandsArgs 0 args) &&& 0x0FFFFF00 = 0 :=
  (reserved_name_gap_iff _).2 ⟨zNibble_header op _, gap_headerArgs op 0 args, midField_headerArgs op 0 args⟩

section
variable (cfg : Params)

/-- A written header of format L with its count of later words is read by its entries. -/
theorem decodeFrame_countHeader {op : Opcode} {rest : List Word} (hres : op.reservedHeaderBits = 0x0F00FFFF)
    (hlater : ∀ h, op.laterWords h = (midField h).toNat) (hcount : (BitVec.ofNat 8 rest.length).toNat = rest.length) :
    decodeFrame cfg (header op (operandsMid (BitVec.ofNat 8 rest.length) 0) :: rest) =
      decodeOperands cfg op (header op (operandsMid (BitVec.ofNat 8 rest.length) 0)) rest := by
  refine decodeFrame_header cfg (hres ▸ (header_and_low_iff _ _ _).2 rfl) ?_
  rw [hlater, midField_header, hcount]

/-- Format L of CHECK_OVERLAP (30_encoding R56). -/
theorem decodeFrame_checkOverlap {ms : List MaskWord} (hcap : ms.length ≤ max cfg.nEv.toNat cfg.nCmd.toNat) :
    decodeFrame cfg (header .checkOverlap (operandsMid (BitVec.ofNat 8 ms.length) 0) :: ms.map halfWord) =
      .ok (.checkOverlap ms) := by
  have hlen : (ms.map halfWord).length = ms.length := List.length_map halfWord
  have hcount : (BitVec.ofNat 8 ms.length).toNat = ms.length := by
    rcases le_max_iff.1 hcap with h | h <;> exact count_toNat_of_le_capacity h
  rw [← hlen, decodeFrame_countHeader cfg rfl (fun _ => rfl) (by rw [hlen, hcount])]
  exact (decodeCheckOverlap_of_fits (hlen ▸ hcap) (anyHighHalf_halfWords ms)).trans
    (congrArg (fun xs => Except.ok (Instr.checkOverlap xs)) (lowHalf_halfWords ms))

/-- Format L of LOAD_EVENTS (30_encoding R56). -/
theorem decodeFrame_loadEvents {es : List EventSpec} (hcap : es.length ≤ cfg.nEv.toNat) :
    decodeFrame cfg (header .loadEvents (operandsMid (BitVec.ofNat 8 es.length) 0) ::
      es.map fun e => entryWord e.name e.xf.code e.mask) = .ok (.loadEvents es) := by
  have hlen : (es.map fun e => entryWord e.name e.xf.code e.mask).length = es.length := List.length_map _
  rw [← hlen, decodeFrame_countHeader cfg rfl (fun _ => rfl) (by rw [hlen, count_toNat_of_le_capacity hcap])]
  exact decodeLoadEvents_of_fits (hlen ▸ hcap) (anyEntryReserved_entryWords _ (fun e : EventSpec => e.xf.code) _ es)
    (eventSpecs_entryWords es)

/-- Format L of LOAD_COMMANDS (30_encoding R56). -/
theorem decodeFrame_loadCommands {cs : List CommandSpec} (hcap : cs.length ≤ cfg.nCmd.toNat)
    (hnames : (cs.map CommandSpec.name).Nodup) :
    decodeFrame cfg (header .loadCommands (operandsMid (BitVec.ofNat 8 cs.length) 0) ::
      cs.map fun c => entryWord c.name c.xf.code c.mask) = .ok (.loadCommands cs) := by
  have hlen : (cs.map fun c => entryWord c.name c.xf.code c.mask).length = cs.length := List.length_map _
  rw [← hlen, decodeFrame_countHeader cfg rfl (fun _ => rfl) (by rw [hlen, count_toNat_of_le_capacity hcap])]
  exact decodeLoadCommands_of_fits (hlen ▸ hcap)
    (anyEntryReserved_entryWords _ (fun c : CommandSpec => c.xf.code) _ cs) (commandSpecs_entryWords cs) hnames

/-- A written header of format A with its arguments is read by them. -/
theorem decodeFrame_argsHeader {op : Opcode} {n : NameId} {args : List Arg} (hargs : args.length ≤ 255)
    (hz : header op (operandsArgs n args) &&& op.reservedHeaderBits = 0)
    (hlater : ∀ h, op.laterWords h = (bitsAt h 0 8).toNat) :
    decodeFrame cfg (header op (operandsArgs n args) :: args.map halfWord) =
      decodeOperands cfg op (header op (operandsArgs n args)) (args.map halfWord) := by
  refine decodeFrame_header cfg hz ?_
  rw [hlater, argCount_headerArgs, List.length_map, count_toNat hargs]

/-- The arguments that the encoder writes are read back in order. -/
theorem decodeArgs_halfWords (args : List Arg) (k : List Arg → Instr) :
    decodeArgs (args.map halfWord) k = .ok (k args) :=
  (decodeArgs_of_clear (anyHighHalf_halfWords args) k).trans
    (congrArg (fun xs => Except.ok (k xs)) (lowHalf_halfWords args))

/-- Format A of ENCODE_SEND (30_encoding R59). -/
theorem decodeFrame_encodeSend (n : NameId) {args : List Arg} (hargs : args.length ≤ 255) :
    decodeFrame cfg (header .encodeSend (operandsArgs n args) :: args.map halfWord) = .ok (.encodeSend n args) := by
  rw [decodeFrame_argsHeader cfg hargs (headerArgs_and_gap _ n args) fun _ => rfl, decodeOperands,
    midField_headerArgs, decodeArgs_halfWords]

/-- Format A of ENC_SERVICES (30_encoding R59). -/
theorem decodeFrame_encServices {args : List Arg} (hargs : args.length ≤ 255) :
    decodeFrame cfg (header .encServices (operandsArgs 0 args) :: args.map halfWord) = .ok (.encServices args) := by
  rw [decodeFrame_argsHeader cfg hargs (headerArgs_and_name_gap _ args) fun _ => rfl, decodeOperands,
    decodeArgs_halfWords]

/-- Format A of ENC_RGB (30_encoding R59). -/
theorem decodeFrame_encRgb {args : List Arg} (hargs : args.length ≤ 255) :
    decodeFrame cfg (header .encRgb (operandsArgs 0 args) :: args.map halfWord) = .ok (.encRgb args) := by
  rw [decodeFrame_argsHeader cfg hargs (headerArgs_and_name_gap _ args) fun _ => rfl, decodeOperands,
    decodeArgs_halfWords]

end

/-- Settles O10, format by format: each frame of the statement is, by its bits, a written header and its words. -/
theorem listFormatFieldsDecode : Obligations.ListFormatFieldsDecode := fun cfg _ _ _ n _ =>
  ⟨fun hcap => decodeFrame_checkOverlap cfg hcap,
    fun hcap => decodeFrame_loadEvents cfg hcap,
    fun hcap hnames => decodeFrame_loadCommands cfg hcap hnames,
    fun hargs => ⟨decodeFrame_encodeSend cfg n hargs, decodeFrame_encServices cfg hargs, decodeFrame_encRgb cfg hargs⟩⟩

/-! ### Decoding what was encoded -/

theorem decodeInput_frame {cfg : Params} {ws : List Word} {i : Instr} (h : decodeFrame cfg ws = .ok i) :
    decodeInput cfg (.frame ws) = .instr i := by
  simp only [decodeInput, h]

theorem decodeInput_tx (cfg : Params) {b : Byte} {i : Instr} (h : decodeTx b = some i) :
    decodeInput cfg (.tx b) = .instr i := by
  simp only [decodeInput, h]

theorem decodeRx_light (p : BitVec 6) : decodeRx (0b00#2 ++ p) = .wireEventLight p := by
  simp only [decodeRx, extract_high, extract_low, if_true]

theorem decodeRx_knob (p : BitVec 6) : decodeRx (0b01#2 ++ p) = .wireEventKnob p := by
  revert p
  decide

theorem decodeRx_temperature (p : BitVec 6) : decodeRx (0b10#2 ++ p) = .wireEventTemperature p := by
  revert p
  decide

theorem decodeTx_servo (p : BitVec 5) : decodeTx (0b000#3 ++ p) = some (.wireCommandServo p) := by
  simp only [decodeTx, extract_high, extract_low, if_true]

theorem decodeTx_led (p : BitVec 1) : decodeTx (0b0010000#7 ++ p) = some (.wireCommandLed p) := by
  revert p
  decide

theorem decodeTx_rgb (p : BitVec 6) : decodeTx (0b01#2 ++ p) = some (.wireCommandRgb p) := by
  revert p
  decide

theorem decodeTx_subscribe (p : BitVec 6) : decodeTx (0b10#2 ++ p) = some (.wireCommandSubscribe p) := by
  revert p
  decide

theorem decodeTx_query (p : BitVec 6) : decodeTx (0b11#2 ++ p) = some (.wireCommandQuery p) := by
  revert p
  decide

/-- Settles O7, instruction by instruction: what is well formed for the capacities passes every check of its format. -/
theorem decodeOfEncodeIsInstruction : Obligations.DecodeOfEncodeIsInstruction := by
  intro cfg i hwf
  cases i with
  | patConstruct m => exact decodeInput_frame (decodeFrame_patConstruct cfg m)
  | patMatch m b => exact decodeInput_frame (decodeFrame_patMatch cfg m b)
  | patSubset a b => exact decodeInput_frame (decodeFrame_patSubset cfg a b)
  | checkOverlap ms => exact decodeInput_frame (decodeFrame_checkOverlap cfg (of_decide_eq_true hwf))
  | extract m b => exact decodeInput_frame (decodeFrame_extract cfg m b)
  | translate m v => exact decodeInput_frame (decodeFrame_translate cfg m v)
  | loadEvents es => exact decodeInput_frame (decodeFrame_loadEvents cfg (of_decide_eq_true hwf))
  | loadCommands cs =>
    obtain ⟨hcap, hnames⟩ := (Bool.and_eq_true _ _).mp hwf
    exact decodeInput_frame (decodeFrame_loadCommands cfg (of_decide_eq_true hcap) (of_decide_eq_true hnames))
  | setHandler n t => exact decodeInput_frame (decodeFrame_setHandler cfg n t)
  | setDefaultHandler t => exact decodeInput_frame (decodeFrame_setDefaultHandler cfg t)
  | decode b => exact decodeInput_frame (decodeFrame_decode cfg b)
  | encodeSend n args => exact decodeInput_frame (decodeFrame_encodeSend cfg n (of_decide_eq_true hwf))
  | encServices args => exact decodeInput_frame (decodeFrame_encServices cfg (of_decide_eq_true hwf))
  | encRgb args => exact decodeInput_frame (decodeFrame_encRgb cfg (of_decide_eq_true hwf))
  | decTemp r => exact decodeInput_frame (decodeFrame_decTemp cfg r)
  | wireEventLight p => exact congrArg Decoded.instr (decodeRx_light p)
  | wireEventKnob p => exact congrArg Decoded.instr (decodeRx_knob p)
  | wireEventTemperature p => exact congrArg Decoded.instr (decodeRx_temperature p)
  | wireCommandServo p => exact decodeInput_tx cfg (decodeTx_servo p)
  | wireCommandLed p => exact decodeInput_tx cfg (decodeTx_led p)
  | wireCommandRgb p => exact decodeInput_tx cfg (decodeTx_rgb p)
  | wireCommandSubscribe p => exact decodeInput_tx cfg (decodeTx_subscribe p)
  | wireCommandQuery p => exact decodeInput_tx cfg (decodeTx_query p)

/-! ### Encoding what was decoded -/

/-- A frame that is accepted has passed the header and length checks (30_encoding R61 steps 1 to 4). -/
theorem decodeFrame_ok_cases {cfg : Params} {ws : List Word} {i : Instr} (h : decodeFrame cfg ws = .ok i) :
    ∃ op hd rest, ws = hd :: rest ∧ opField hd = op.code ∧ hd &&& op.reservedHeaderBits = 0 ∧
      rest.length = op.laterWords hd ∧ decodeOperands cfg op hd rest = .ok i := by
  cases ws with
  | nil => cases h
  | cons hd rest =>
    cases hop : opcodeOf (opField hd) with
    | none => simp [decodeFrame, hop] at h
    | some op =>
      have hcode : opField hd = op.code := (code_of_opcodeOf hop).symm
      by_cases hz : hd &&& op.reservedHeaderBits = 0
      · by_cases hl : rest.length = op.laterWords hd
        · rw [decodeFrame_of_header cfg hcode hz hl] at h
          exact ⟨op, hd, rest, rfl, hcode, hz, hl, h⟩
        · rw [decodeFrame_of_length cfg hcode hz hl] at h
          cases h
      · rw [decodeFrame_of_reservedHeader cfg hcode hz] at h
        cases h

/-- A field of a field. -/
theorem extract_extract {n lo len lo' len' : Nat} (x : BitVec n) (h : lo' + len' ≤ len) :
    (x.extractLsb' lo len).extractLsb' lo' len' = x.extractLsb' (lo + lo') len' := by
  ext i hi
  have hlt : lo' + i < len := by omega
  simp [hlt, Nat.add_assoc]

/-- A word is its `OP`, the nibble `Z` and its 24 operand bits (30_encoding R51). -/
theorem eq_header_of_nibble {h : Word} {op : Opcode} (hop : opField h = op.code) (hz : h.extractLsb' 24 4 = 0) :
    h = header op (h.extractLsb' 0 24) := by
  have hbelow : h.extractLsb' 0 28 = 0#4 ++ h.extractLsb' 0 24 := by
    rw [eq_append_extract (v := 4) (w := 24) (h.extractLsb' 0 28), extract_extract h (by decide),
      extract_extract h (by decide)]
    exact congrArg (· ++ h.extractLsb' 0 24) hz
  calc h = opField h ++ h.extractLsb' 0 28 := eq_append_extract (v := 4) (w := 28) h
    _ = header op (h.extractLsb' 0 24) := by rw [hop, hbelow]; rfl

/-- A header of formats P, L, H and B is written from its two operand fields. -/
theorem eq_header_operandsMid {h : Word} {op : Opcode} (hop : opField h = op.code) (hz : h.extractLsb' 24 4 = 0) :
    h = header op (operandsMid (midField h) (lowHalf h)) := by
  have hoperands : h.extractLsb' 0 24 = operandsMid (midField h) (lowHalf h) := by
    rw [eq_append_extract (v := 8) (w := 16) (h.extractLsb' 0 24), extract_extract h (by decide),
      extract_extract h (by decide)]
    rfl
  rw [← hoperands]
  exact eq_header_of_nibble hop hz

/-- A header of format A is written from its name and the number of its arguments. -/
theorem eq_header_operandsArgs {h : Word} {op : Opcode} (hop : opField h = op.code) (hz : h.extractLsb' 24 4 = 0)
    (hgap : h.extractLsb' 8 8 = 0) {args : List Arg} (hlen : args.length = (bitsAt h 0 8).toNat) :
    h = header op (operandsArgs (midField h) args) := by
  have hargc : BitVec.ofNat 8 args.length = bitsAt h 0 8 := by rw [hlen, BitVec.ofNat_toNat, BitVec.setWidth_eq]
  have hlow : lowHalf h = 0#8 ++ BitVec.ofNat 8 args.length := by
    rw [hargc, eq_append_extract (v := 8) (w := 8) (lowHalf h), lowHalf, bitsAt, extract_extract h (by decide),
      extract_extract h (by decide)]
    exact congrArg (· ++ h.extractLsb' 0 8) hgap
  rw [operandsArgs, ← hlow]
  exact eq_header_operandsMid hop hz

/-- A later word with a clear high half is written from its low half. -/
theorem halfWord_lowHalf {w : Word} (h : highHalf w = 0) : halfWord (lowHalf w) = w := by
  rw [halfWord, ← BitVec.ofNat_eq_ofNat, ← h]
  exact (eq_append_extract (v := 16) (w := 16) w).symm

theorem halfWords_lowHalf {ws : List Word} (h : anyHighHalf ws = false) : (ws.map lowHalf).map halfWord = ws := by
  have hclear : ∀ w ∈ ws, highHalf w = 0 := by simpa [anyHighHalf] using h
  calc (ws.map lowHalf).map halfWord = ws.map id := by
        rw [List.map_map]
        exact List.map_congr_left fun w hw => halfWord_lowHalf (hclear w hw)
    _ = ws := List.map_id ws

/-- A catalog entry word with clear reserved bits is written from its three fields. -/
theorem entryWord_fields {w : Word} (h : bitsAt w 16 4 = 0) :
    entryWord (bitsAt w 24 8) (bitsAt w 20 4) (lowHalf w) = w := by
  have hbelow : w.extractLsb' 0 20 = 0#4 ++ lowHalf w := by
    rw [eq_append_extract (v := 4) (w := 16) (w.extractLsb' 0 20), extract_extract w (by decide),
      extract_extract w (by decide)]
    exact congrArg (· ++ lowHalf w) h
  have hoperands : w.extractLsb' 0 24 = bitsAt w 20 4 ++ w.extractLsb' 0 20 := by
    rw [eq_append_extract (v := 4) (w := 20) (w.extractLsb' 0 24), extract_extract w (by decide),
      extract_extract w (by decide)]
    rfl
  calc entryWord (bitsAt w 24 8) (bitsAt w 20 4) (lowHalf w) = bitsAt w 24 8 ++ w.extractLsb' 0 24 := by
        rw [hoperands, hbelow]; rfl
    _ = w := (eq_append_extract (v := 8) (w := 24) w).symm

/-- Accepted event entries are written back to the words they were read from. -/
theorem entryWords_eventSpecs {ws : List Word} {es : List EventSpec} (h : eventSpecs ws = some es)
    (hclear : anyEntryReserved ws = false) : (es.map fun e => entryWord e.name e.xf.code e.mask) = ws := by
  induction ws generalizing es with
  | nil =>
    obtain rfl : [] = es := Option.some.inj h
    rfl
  | cons w ws ih =>
    obtain ⟨hw, hws⟩ : bitsAt w 16 4 = 0 ∧ anyEntryReserved ws = false := by
      simpa [anyEntryReserved] using hclear
    simp only [eventSpecs] at h
    split at h
    · rename_i xf es' hxf hes'
      obtain rfl := Option.some.inj h
      simp only [List.map_cons, ih hes' hws, (eventXfOf_cases _).2 xf hxf, entryWord_fields hw]
    · cases h

/-- Accepted command entries are written back to the words they were read from. -/
theorem entryWords_commandSpecs {ws : List Word} {cs : List CommandSpec} (h : commandSpecs ws = some cs)
    (hclear : anyEntryReserved ws = false) : (cs.map fun c => entryWord c.name c.xf.code c.mask) = ws := by
  induction ws generalizing cs with
  | nil =>
    obtain rfl : [] = cs := Option.some.inj h
    rfl
  | cons w ws ih =>
    obtain ⟨hw, hws⟩ : bitsAt w 16 4 = 0 ∧ anyEntryReserved ws = false := by
      simpa [anyEntryReserved] using hclear
    simp only [commandSpecs] at h
    split at h
    · rename_i xf cs' hxf hcs'
      obtain rfl := Option.some.inj h
      simp only [List.map_cons, ih hcs' hws, (commandXfOf_cases _).2 xf hxf, entryWord_fields hw]
    · cases h

section
variable {op : Opcode} {h : Word}

/-- A header with `Z` clear, written from its two fields. -/
theorem header_of_nibble (hop : opField h = op.code) (hz : h &&& 0x0F000000 = 0) :
    header op (operandsMid (midField h) (lowHalf h)) = h :=
  (eq_header_operandsMid hop ((reserved_nibble_iff h).1 hz)).symm

/-- A header with bits 27:16 clear, written from its low half. -/
theorem header_of_mid (hop : opField h = op.code) (hz : h &&& 0x0FFF0000 = 0) :
    header op (operandsMid 0 (lowHalf h)) = h := by
  obtain ⟨hnibble, hmid⟩ := (reserved_mid_iff h).1 hz
  have hfields := eq_header_operandsMid hop hnibble
  rw [show midField h = 0 from hmid] at hfields
  exact hfields.symm

/-- A header with `Z` and bits 15:0 clear, written from its bits 23:16. -/
theorem header_of_low (hop : opField h = op.code) (hz : h &&& 0x0F00FFFF = 0) :
    header op (operandsMid (midField h) 0) = h := by
  obtain ⟨hnibble, hlow⟩ := (reserved_low_iff h).1 hz
  have hfields := eq_header_operandsMid hop hnibble
  rw [show lowHalf h = 0 from hlow] at hfields
  exact hfields.symm

/-- A header of format L, written from the number of the words it declares. -/
theorem header_of_count {n : Nat} (hop : opField h = op.code) (hz : h &&& 0x0F00FFFF = 0)
    (hn : n = (midField h).toNat) : header op (operandsMid (BitVec.ofNat 8 n) 0) = h := by
  rw [hn, BitVec.ofNat_toNat, BitVec.setWidth_eq]
  exact header_of_low hop hz

/-- A header of ENCODE_SEND, written from its name and the number of the arguments it declares. -/
theorem header_of_gap {args : List Arg} (hop : opField h = op.code) (hz : h &&& 0x0F00FF00 = 0)
    (hlen : args.length = (bitsAt h 0 8).toNat) : header op (operandsArgs (midField h) args) = h := by
  obtain ⟨hnibble, hgap⟩ := (reserved_gap_iff h).1 hz
  exact (eq_header_operandsArgs hop hnibble hgap hlen).symm

/-- A header of ENC_SERVICES or ENC_RGB, written from the number of the arguments it declares. -/
theorem header_of_name_gap {args : List Arg} (hop : opField h = op.code) (hz : h &&& 0x0FFFFF00 = 0)
    (hlen : args.length = (bitsAt h 0 8).toNat) : header op (operandsArgs 0 args) = h := by
  obtain ⟨hnibble, hgap, hname⟩ := (reserved_name_gap_iff h).1 hz
  have hfields := eq_header_operandsArgs hop hnibble hgap hlen
  rw [show midField h = 0 from hname] at hfields
  exact hfields.symm

end

/-! ### What the list readers accept (30_encoding R61 steps 5 to 8) -/

theorem decodeCheckOverlap_ok {cfg : Params} {rest : List Word} {i : Instr} (h : decodeCheckOverlap cfg rest = .ok i) :
    rest.length ≤ max cfg.nEv.toNat cfg.nCmd.toNat ∧ anyHighHalf rest = false ∧
      i = .checkOverlap (rest.map lowHalf) := by
  unfold decodeCheckOverlap at h
  split_ifs at h with hcap hbit
  exact ⟨Nat.le_of_not_lt hcap, Bool.eq_false_iff.2 hbit, (Except.ok.inj h).symm⟩

theorem decodeLoadEvents_ok {cfg : Params} {rest : List Word} {i : Instr} (h : decodeLoadEvents cfg rest = .ok i) :
    rest.length ≤ cfg.nEv.toNat ∧ anyEntryReserved rest = false ∧
      ∃ es, eventSpecs rest = some es ∧ i = .loadEvents es := by
  unfold decodeLoadEvents at h
  split_ifs at h with hcap hbit
  cases hes : eventSpecs rest with
  | none => simp [hes] at h
  | some es =>
    simp only [hes, Except.ok.injEq] at h
    exact ⟨Nat.le_of_not_lt hcap, Bool.eq_false_iff.2 hbit, es, rfl, h.symm⟩

theorem decodeLoadCommands_ok {cfg : Params} {rest : List Word} {i : Instr}
    (h : decodeLoadCommands cfg rest = .ok i) :
    rest.length ≤ cfg.nCmd.toNat ∧ anyEntryReserved rest = false ∧
      ∃ cs, commandSpecs rest = some cs ∧ (cs.map CommandSpec.name).Nodup ∧ i = .loadCommands cs := by
  unfold decodeLoadCommands at h
  split_ifs at h with hcap hbit
  cases hcs : commandSpecs rest with
  | none => simp [hcs] at h
  | some cs =>
    simp only [hcs] at h
    split_ifs at h with hrep
    have hnames : (cs.map CommandSpec.name).Nodup := (repeatsName_eq_false_iff cs).1 (Bool.eq_false_iff.2 hrep)
    exact ⟨Nat.le_of_not_lt hcap, Bool.eq_false_iff.2 hbit, cs, rfl, hnames, (Except.ok.inj h).symm⟩

theorem decodeArgs_ok {rest : List Word} {k : List Arg → Instr} {i : Instr} (h : decodeArgs rest k = .ok i) :
    anyHighHalf rest = false ∧ i = k (rest.map lowHalf) := by
  unfold decodeArgs at h
  split_ifs at h with hbit
  exact ⟨Bool.eq_false_iff.2 hbit, (Except.ok.inj h).symm⟩

/-- The count field of format A bounds the arguments (30_encoding R59). -/
theorem args_length_le {n : Nat} {h : Word} (hn : n = (bitsAt h 0 8).toNat) : n ≤ 255 :=
  Laws.frameLength_of_le (bitsAt h 0 8) hn.le

/-- What the operand readers accept is well formed and encodes to the frame (30_encoding R63): each field of the header
and of the later words is either an operand or checked to be 0. -/
theorem encode_of_decodeOperands {cfg : Params} {op : Opcode} {h : Word} {rest : List Word} {i : Instr}
    (hop : opField h = op.code) (hz : h &&& op.reservedHeaderBits = 0) (hl : rest.length = op.laterWords h)
    (hi : decodeOperands cfg op h rest = .ok i) : encode i = .frame (h :: rest) ∧ i.wellFormed cfg = true := by
  cases op with
  | patConstruct =>
    obtain rfl := List.length_eq_zero_iff.1 hl
    obtain rfl := Except.ok.inj hi
    exact ⟨by rw [encode, header_of_mid hop hz], rfl⟩
  | patMatch =>
    obtain rfl := List.length_eq_zero_iff.1 hl
    obtain rfl := Except.ok.inj hi
    exact ⟨by rw [encode, header_of_nibble hop hz], rfl⟩
  | patSubset =>
    obtain ⟨w, rfl⟩ := List.length_eq_one_iff.1 hl
    simp only [decodeOperands] at hi
    split_ifs at hi with hbit
    obtain rfl := Except.ok.inj hi
    have hw : [halfWord (lowHalf w)] = [w] := halfWords_lowHalf (ws := [w]) (Bool.eq_false_iff.2 hbit)
    exact ⟨by rw [encode, header_of_mid hop hz, List.headD_cons, hw], rfl⟩
  | checkOverlap =>
    obtain ⟨hcap, hbit, rfl⟩ := decodeCheckOverlap_ok hi
    refine ⟨by rw [encode, List.length_map, header_of_count hop hz hl, halfWords_lowHalf hbit], ?_⟩
    simpa only [Instr.wellFormed, List.length_map] using decide_eq_true hcap
  | extract =>
    obtain rfl := List.length_eq_zero_iff.1 hl
    obtain rfl := Except.ok.inj hi
    exact ⟨by rw [encode, header_of_nibble hop hz], rfl⟩
  | translate =>
    obtain ⟨w, rfl⟩ := List.length_eq_one_iff.1 hl
    obtain rfl := Except.ok.inj hi
    exact ⟨by rw [encode, header_of_mid hop hz, List.headD_cons], rfl⟩
  | loadEvents =>
    obtain ⟨hcap, hbit, es, hes, rfl⟩ := decodeLoadEvents_ok hi
    have hlen := eventSpecs_length hes
    refine ⟨by rw [encode, hlen, header_of_count hop hz hl, entryWords_eventSpecs hes hbit], ?_⟩
    exact decide_eq_true (hlen ▸ hcap)
  | loadCommands =>
    obtain ⟨hcap, hbit, cs, hcs, hnames, rfl⟩ := decodeLoadCommands_ok hi
    have hlen := commandSpecs_length hcs
    refine ⟨by rw [encode, hlen, header_of_count hop hz hl, entryWords_commandSpecs hcs hbit], ?_⟩
    exact (Bool.and_eq_true _ _).mpr ⟨decide_eq_true (hlen ▸ hcap), decide_eq_true hnames⟩
  | setHandler =>
    obtain rfl := List.length_eq_zero_iff.1 hl
    obtain rfl := Except.ok.inj hi
    exact ⟨by rw [encode, header_of_nibble hop hz], rfl⟩
  | setDefaultHandler =>
    obtain rfl := List.length_eq_zero_iff.1 hl
    obtain rfl := Except.ok.inj hi
    exact ⟨by rw [encode, header_of_mid hop hz], rfl⟩
  | decode =>
    obtain rfl := List.length_eq_zero_iff.1 hl
    obtain rfl := Except.ok.inj hi
    exact ⟨by rw [encode, header_of_low hop hz], rfl⟩
  | encodeSend =>
    obtain ⟨hbit, rfl⟩ := decodeArgs_ok hi
    have hlen : (rest.map lowHalf).length = (bitsAt h 0 8).toNat := (List.length_map _).trans hl
    exact ⟨by rw [encode, header_of_gap hop hz hlen, halfWords_lowHalf hbit], decide_eq_true (args_length_le hlen)⟩
  | encServices =>
    obtain ⟨hbit, rfl⟩ := decodeArgs_ok hi
    have hlen : (rest.map lowHalf).length = (bitsAt h 0 8).toNat := (List.length_map _).trans hl
    exact ⟨by rw [encode, header_of_name_gap hop hz hlen, halfWords_lowHalf hbit],
      decide_eq_true (args_length_le hlen)⟩
  | encRgb =>
    obtain ⟨hbit, rfl⟩ := decodeArgs_ok hi
    have hlen : (rest.map lowHalf).length = (bitsAt h 0 8).toNat := (List.length_map _).trans hl
    exact ⟨by rw [encode, header_of_name_gap hop hz hlen, halfWords_lowHalf hbit],
      decide_eq_true (args_length_le hlen)⟩
  | decTemp =>
    obtain rfl := List.length_eq_zero_iff.1 hl
    obtain rfl := Except.ok.inj hi
    exact ⟨by rw [encode, header_of_low hop hz], rfl⟩

/-- Settles O8: an accepted frame has passed the header and length checks, and its operands encode back to it. -/
theorem acceptedFrameIsEncoding : Obligations.AcceptedFrameIsEncoding := by
  intro cfg ws i h
  obtain ⟨op, hd, rest, rfl, hop, hz, hl, hi⟩ := decodeFrame_ok_cases h
  exact encode_of_decodeOperands hop hz hl hi

end Sys2Proof
end

section
/-! PROOFS. Family other, the order of a frame's checks (30_encoding R61): the formats of fixed length, the lists of
masks and of catalog entries, and the argument frames. -/

namespace Sys2Proof

/-! ### Reserved header bits, as the rules name them (30_encoding R53 to R59) -/

theorem reserved_nibble_ne_iff (h : Word) : h &&& 0x0F000000 ≠ 0 ↔ h.extractLsb' 24 4 ≠ 0#4 :=
  (reserved_nibble_iff h).not

theorem reserved_mid_ne_iff (h : Word) :
    h &&& 0x0FFF0000 ≠ 0 ↔ h.extractLsb' 24 4 ≠ 0#4 ∨ h.extractLsb' 16 8 ≠ 0#8 :=
  (reserved_mid_iff h).not.trans not_and_or

theorem reserved_low_ne_iff (h : Word) :
    h &&& 0x0F00FFFF ≠ 0 ↔ h.extractLsb' 24 4 ≠ 0#4 ∨ h.extractLsb' 0 16 ≠ 0#16 :=
  (reserved_low_iff h).not.trans not_and_or

theorem reserved_gap_ne_iff (h : Word) :
    h &&& 0x0F00FF00 ≠ 0 ↔ h.extractLsb' 24 4 ≠ 0#4 ∨ h.extractLsb' 8 8 ≠ 0#8 :=
  (reserved_gap_iff h).not.trans not_and_or

theorem reserved_name_gap_ne_iff (h : Word) :
    h &&& 0x0FFFFF00 ≠ 0 ↔ h.extractLsb' 24 4 ≠ 0#4 ∨ h.extractLsb' 8 8 ≠ 0#8 ∨ h.extractLsb' 16 8 ≠ 0#8 := by
  rw [Ne, reserved_name_gap_iff, not_and_or, not_and_or]
  rfl

/-! ### The formats of fixed length -/

section
variable (cfg : Params) {op : Opcode} {h : Word} {Reserved : Prop} [Decidable Reserved]

/-- The checks of a format of one word (`Reserved` says which header bits must be 0). -/
theorem decodeFrame_oneWord (rest : List Word) (e : h.extractLsb' 28 4 = op.code) (hlater : op.laterWords h = 0)
    (hres : h &&& op.reservedHeaderBits ≠ 0 ↔ Reserved) :
    decodeFrame cfg (h :: rest) =
      if Reserved then .error .reservedBit
      else if rest ≠ [] then .error .frameLength
      else decodeOperands cfg op h [] := by
  rw [decodeFrame_cons cfg rest e, hlater, if_congr hres rfl rfl]
  cases rest <;> simp

/-- A format of two words whose second word is missing or followed by others. -/
theorem decodeFrame_notTwoWords {rest : List Word} (e : h.extractLsb' 28 4 = op.code) (hlater : op.laterWords h = 1)
    (hres : h &&& op.reservedHeaderBits ≠ 0 ↔ Reserved) (hl : rest.length ≠ 1) :
    decodeFrame cfg (h :: rest) = if Reserved then .error .reservedBit else .error .frameLength := by
  rw [decodeFrame_cons cfg rest e, hlater, if_congr hres rfl rfl, if_pos hl]

/-- The checks of a format of two words, both there. -/
theorem decodeFrame_twoWords (v : Word) (e : h.extractLsb' 28 4 = op.code) (hlater : op.laterWords h = 1)
    (hres : h &&& op.reservedHeaderBits ≠ 0 ↔ Reserved) :
    decodeFrame cfg [h, v] = if Reserved then .error .reservedBit else decodeOperands cfg op h [v] := by
  rw [decodeFrame_cons cfg [v] e, hlater, if_congr hres rfl rfl, List.length_singleton, if_neg (not_not.2 rfl)]

end

/-- The second word of PAT_SUBSET has a reserved high half (30_encoding R54). -/
theorem decodeOperands_patSubset (cfg : Params) (h v : Word) :
    decodeOperands cfg .patSubset h [v] =
      if v.extractLsb' 16 16 ≠ 0#16 then .error .reservedBit
      else .ok (.patSubset (h.extractLsb' 0 16) (v.extractLsb' 0 16)) := by
  refine if_congr ((anyHighHalf_iff [v]).trans ?_) rfl rfl
  simp only [List.mem_singleton, exists_eq_left, BitVec.ofNat_eq_ofNat]

/-- Settles O56, operation by operation: the mask of the reserved bits is the format's reserved fields. -/
theorem fixedFrameChecksInOrder : Obligations.FixedFrameChecksInOrder := fun cfg h rest =>
  ⟨fun e => decodeFrame_oneWord cfg (op := .patConstruct) rest e rfl (reserved_mid_ne_iff h),
    fun e => decodeFrame_oneWord cfg (op := .patMatch) rest e rfl (reserved_nibble_ne_iff h),
    fun e hl => decodeFrame_notTwoWords cfg (op := .patSubset) e rfl (reserved_mid_ne_iff h) hl,
    fun e v => (decodeFrame_twoWords cfg (op := .patSubset) v e rfl (reserved_mid_ne_iff h)).trans
      (congrArg (ite _ _) (decodeOperands_patSubset cfg h v)),
    fun e => decodeFrame_oneWord cfg (op := .extract) rest e rfl (reserved_nibble_ne_iff h),
    fun e hl => decodeFrame_notTwoWords cfg (op := .translate) e rfl (reserved_mid_ne_iff h) hl,
    fun e v => decodeFrame_twoWords cfg (op := .translate) v e rfl (reserved_mid_ne_iff h),
    fun e => decodeFrame_oneWord cfg (op := .setHandler) rest e rfl (reserved_nibble_ne_iff h),
    fun e => decodeFrame_oneWord cfg (op := .setDefaultHandler) rest e rfl (reserved_mid_ne_iff h),
    fun e => decodeFrame_oneWord cfg (op := .decode) rest e rfl (reserved_low_ne_iff h),
    fun e => decodeFrame_oneWord cfg (op := .decTemp) rest e rfl (reserved_low_ne_iff h)⟩

/-! ### Format L (30_encoding R56) -/

/-- Where every selector names a transform, the entries are read. -/
theorem eventSpecs_of_selectors {ws : List Word} (h : ¬∃ w ∈ ws, 3 ≤ (w.extractLsb' 20 4).toNat) :
    ∃ es, eventSpecs ws = some es :=
  Option.ne_none_iff_exists'.1 (mt (eventSpecs_eq_none_iff ws).1 h)

theorem commandSpecs_of_selectors {ws : List Word} (h : ¬∃ w ∈ ws, 3 ≤ (w.extractLsb' 20 4).toNat) :
    ∃ cs, commandSpecs ws = some cs :=
  Option.ne_none_iff_exists'.1 (mt (commandSpecs_eq_none_iff ws).1 h)

/-- Settles O54, check by check. -/
theorem checkOverlapFrameChecksInOrder : Obligations.CheckOverlapFrameChecksInOrder := by
  intro cfg h rest e
  have hop : h.extractLsb' 28 4 = Opcode.checkOverlap.code := e
  split_ifs with hz hl hcap hbit
  · exact decodeFrame_of_reservedHeader cfg hop ((reserved_low_ne_iff h).2 hz)
  all_goals have hz' := not_not.1 (mt (reserved_low_ne_iff h).1 hz)
  · exact decodeFrame_of_length cfg hop hz' hl
  all_goals rw [decodeFrame_of_header cfg hop hz' (not_not.1 hl), decodeOperands]
  · exact if_pos (max_lt_iff.2 hcap)
  all_goals have hcap' := Nat.le_of_not_lt (mt max_lt_iff.1 hcap)
  · rw [decodeCheckOverlap, if_neg (Nat.not_lt.2 hcap'), if_pos ((anyHighHalf_iff rest).2 hbit)]
  · exact decodeCheckOverlap_of_fits hcap' ((anyHighHalf_eq_false_iff rest).2 hbit)

/-- Settles O53, check by check. -/
theorem loadEventsFrameChecksInOrder : Obligations.LoadEventsFrameChecksInOrder := by
  intro cfg h rest e
  have hop : h.extractLsb' 28 4 = Opcode.loadEvents.code := e
  split_ifs with hz hl hcap hbit hxf
  · exact decodeFrame_of_reservedHeader cfg hop ((reserved_low_ne_iff h).2 hz)
  all_goals have hz' := not_not.1 (mt (reserved_low_ne_iff h).1 hz)
  · exact decodeFrame_of_length cfg hop hz' hl
  all_goals rw [decodeFrame_of_header cfg hop hz' (not_not.1 hl), decodeOperands]
  · exact if_pos hcap
  · rw [decodeLoadEvents, if_neg hcap, if_pos ((anyEntryReserved_iff rest).2 hbit)]
  all_goals have hbit' := (anyEntryReserved_eq_false_iff rest).2 hbit
  · simp only [decodeLoadEvents, hcap, hbit', (eventSpecs_eq_none_iff rest).2 hxf, if_false, Bool.false_eq_true]
  · obtain ⟨es, hes⟩ := eventSpecs_of_selectors hxf
    obtain ⟨hname, hmask, hcode⟩ := eventSpecs_fields hes
    exact ⟨es, decodeLoadEvents_of_fits (Nat.le_of_not_lt hcap) hbit' hes, hname, hmask, hcode⟩

/-- Settles O5, check by check; the names of the entries are the words' bits 31:24. -/
theorem loadCommandsFrameChecksInOrder : Obligations.LoadCommandsFrameChecksInOrder := by
  intro cfg h rest e
  have hop : h.extractLsb' 28 4 = Opcode.loadCommands.code := e
  split_ifs with hz hl hcap hbit hxf hnames
  · exact decodeFrame_of_reservedHeader cfg hop ((reserved_low_ne_iff h).2 hz)
  all_goals have hz' := not_not.1 (mt (reserved_low_ne_iff h).1 hz)
  · exact decodeFrame_of_length cfg hop hz' hl
  all_goals rw [decodeFrame_of_header cfg hop hz' (not_not.1 hl), decodeOperands]
  · exact if_pos hcap
  · rw [decodeLoadCommands, if_neg hcap, if_pos ((anyEntryReserved_iff rest).2 hbit)]
  all_goals have hbit' := (anyEntryReserved_eq_false_iff rest).2 hbit
  · simp only [decodeLoadCommands, hcap, hbit', (commandSpecs_eq_none_iff rest).2 hxf, if_false, Bool.false_eq_true]
  all_goals
    obtain ⟨cs, hcs⟩ := commandSpecs_of_selectors hxf
    obtain ⟨hname, hmask, hcode⟩ := commandSpecs_fields hcs
  · have hnodup : (cs.map CommandSpec.name).Nodup := hname.symm ▸ hnames
    exact ⟨cs, decodeLoadCommands_of_fits (Nat.le_of_not_lt hcap) hbit' hcs hnodup, hname, hmask, hcode⟩
  · have hrep : repeatsName cs = true := (repeatsName_iff cs).2 (hname.symm ▸ hnames)
    simp only [decodeLoadCommands, hcap, hbit', hcs, hrep, if_false, if_true, Bool.false_eq_true]

/-! ### Format A (30_encoding R59) -/

section
variable (cfg : Params) {op : Opcode} {h : Word} {rest : List Word} {Reserved : Prop}

theorem decodeArgs_of_set (hbit : ∃ w ∈ rest, w.extractLsb' 16 16 ≠ 0#16) (k : List Arg → Instr) :
    decodeArgs rest k = .error .reservedBit := by
  simp only [decodeArgs, (anyHighHalf_iff rest).2 hbit, if_true]

/-- The checks of an operation that takes arguments (`Reserved` says which header bits must be 0, `k` is the
operation). -/
theorem decodeFrame_args [Decidable Reserved] {k : List Arg → Instr} (e : h.extractLsb' 28 4 = op.code)
    (hres : h &&& op.reservedHeaderBits ≠ 0 ↔ Reserved) (hlater : op.laterWords h = (h.extractLsb' 0 8).toNat)
    (hargs : decodeOperands cfg op h rest = decodeArgs rest k) :
    if Reserved then decodeFrame cfg (h :: rest) = .error .reservedBit
    else if rest.length ≠ (h.extractLsb' 0 8).toNat then decodeFrame cfg (h :: rest) = .error .frameLength
    else if ∃ w ∈ rest, w.extractLsb' 16 16 ≠ 0#16 then decodeFrame cfg (h :: rest) = .error .reservedBit
    else decodeFrame cfg (h :: rest) = .ok (k (rest.map fun w => w.extractLsb' 0 16)) := by
  split_ifs with hz hl hbit
  · exact decodeFrame_of_reservedHeader cfg e (hres.2 hz)
  all_goals have hz' := not_not.1 (mt hres.1 hz)
  · exact decodeFrame_of_length cfg e hz' (hlater ▸ hl)
  all_goals rw [decodeFrame_of_header cfg e hz' (hlater ▸ not_not.1 hl), hargs]
  · exact decodeArgs_of_set hbit k
  · exact decodeArgs_of_clear ((anyHighHalf_eq_false_iff rest).2 hbit) k

end

/-- Settles O55: ENCODE_SEND has its name in bits 23:16, which are reserved for the other two. -/
theorem argumentFrameChecksInOrder : Obligations.ArgumentFrameChecksInOrder := by
  intro cfg h rest hop
  rcases hop with e | e | e
  · have hchain := decodeFrame_args cfg (op := .encodeSend) (rest := rest) (k := .encodeSend (h.extractLsb' 16 8)) e
      (reserved_gap_ne_iff h) rfl rfl
    simpa [e] using hchain
  · have hchain := decodeFrame_args cfg (op := .encServices) (rest := rest) e (reserved_name_gap_ne_iff h) rfl rfl
    simpa [e] using hchain
  · have hchain := decodeFrame_args cfg (op := .encRgb) (rest := rest) e (reserved_name_gap_ne_iff h) rfl rfl
    simpa [e] using hchain

end Sys2Proof
end

section
/-! PROOFS. Family other, the patterns: the range as a block of bytes (40_bitpattern R77, R78), containment and
disjointness (R80 to R82, R86, R88), the payload round trip (41_event_command R102, R103), and the lists that a load
refuses (43_dispatcher R122). -/

namespace Sys2Proof.Machine

/-! ### A range is a block of `2^k` bytes (40_bitpattern R77, R78) -/

/-- The block of `2^k` numbers from a multiple of `2^k` on: the numbers of one quotient. -/
theorem block_iff_div_eq {k v : Nat} (hv : v % 2 ^ k = 0) (b : Nat) :
    v ≤ b ∧ b ≤ v + (2 ^ k - 1) ↔ b / 2 ^ k = v / 2 ^ k := by
  have hpos : 0 < 2 ^ k := Nat.two_pow_pos k
  obtain ⟨q, rfl⟩ := Nat.dvd_of_mod_eq_zero hv
  rw [Nat.mul_div_cancel_left q hpos, Nat.div_eq_iff hpos, Nat.mul_comm, Nat.add_sub_assoc hpos]

/-- A pattern matches the bytes of its low end's quotient. -/
theorem inRange_iff_div_eq {m : MaskWord} {p : Pattern} (hp : construct m = some p) (b : Byte) :
    inRange p b = true ↔ b.toNat / 2 ^ p.mb = p.low.toNat / 2 ^ p.mb := by
  obtain ⟨k, v, hk, hv, -, rfl⟩ := construct_cases hp
  rw [inRange_iff, BitVec.le_def, BitVec.le_def, or_run_toNat hk v hv]
  exact block_iff_div_eq hv b.toNat

/-- A quotient by `2^k` fixes the quotient by every larger power. -/
theorem div_two_pow_eq_of_le {k j a b : Nat} (hkj : k ≤ j) (h : a / 2 ^ k = b / 2 ^ k) : a / 2 ^ j = b / 2 ^ j := by
  obtain ⟨d, rfl⟩ := Nat.exists_eq_add_of_le hkj
  rw [Nat.pow_add, ← Nat.div_div_eq_div_mul, ← Nat.div_div_eq_div_mul, h]

/-- Bytes of the same quotient by `2^k` have the same bits from position `k` up. -/
theorem getLsbD_eq_of_div_two_pow_eq {k : Nat} {a b : Byte} (h : a.toNat / 2 ^ k = b.toNat / 2 ^ k) {i : Nat}
    (hi : k ≤ i) : a.getLsbD i = b.getLsbD i := by
  obtain ⟨d, rfl⟩ := Nat.exists_eq_add_of_le' hi
  rw [← BitVec.testBit_toNat, ← BitVec.testBit_toNat, ← Nat.testBit_div_two_pow, ← Nat.testBit_div_two_pow, h]

/-! ### PAT_MATCH (40_bitpattern R78) -/

theorem execPatMatch_of_construct {m : MaskWord} {p : Pattern} (h : construct m = some p) (b : Byte) (s : State) :
    execPatMatch m b s = respondOk .patMatch (infoBool (inRange p b)) s := by
  simp only [execPatMatch, (constructAt_ok_iff 0 m p).2 h]

theorem execPatMatch_of_not_validMask {m : MaskWord} (h : ¬ValidMask m) (b : Byte) (s : State) :
    execPatMatch m b s = raise Opcode.patMatch.code (.invalidMask m 0) s := by
  simp only [execPatMatch, (constructAt_error_iff 0 m _).2 ⟨h, rfl⟩]
  rfl

/-- The truth value of a response is its `INFO` (30_encoding R68). -/
theorem infoBool_eq (b : Bool) : infoBool b = if b = true then 1#24 else 0#24 := by
  cases b <;> rfl

/-- Settles O24: the two comparisons are the range test, and the range is the block of the value's quotient. -/
theorem patMatchIsInclusiveRange : Obligations.PatMatchIsInclusiveRange := by
  refine ⟨fun s k v b hk hv => ?_, fun k v b _ hv => block_iff_div_eq hv b.toNat,
    fun s m b hm => execPatMatch_of_not_validMask hm b s⟩
  obtain ⟨p, hp, -, -, hrange⟩ := exists_construct_maskOf hk hv
  have hexec := execPatMatch_of_construct hp b s
  rw [infoBool_eq, if_congr (hrange b) rfl rfl] at hexec
  exact hexec

/-! ### PAT_SUBSET and containment (40_bitpattern R80, R81) -/

/-- The symbol test is: no broader, and of the same quotient by the other's width (R81). -/
theorem isSubsetOf_iff_div_eq {m n : MaskWord} {p q : Pattern} (hp : construct m = some p) (hq : construct n = some q) :
    isSubsetOf p q = true ↔ p.mb ≤ q.mb ∧ p.low.toNat / 2 ^ q.mb = q.low.toNat / 2 ^ q.mb := by
  refine ⟨fun h => ⟨mb_le_of_isSubsetOf hp hq h, ?_⟩, fun ⟨hmb, hdiv⟩ => ?_⟩
  · exact (inRange_iff_div_eq hq p.low).1 (inRange_low_of_isSubsetOf hp hq h)
  · obtain ⟨k, v, -, -, rfl, rfl⟩ := construct_cases hp
    obtain ⟨j, w, -, -, rfl, rfl⟩ := construct_cases hq
    refine (isSubsetOf_iff _ _).2 fun i hji hi => Prod.ext ?_ ?_
    · have hkj : k ≤ j := hmb
      have hji' : j ≤ i := hji
      simp only [symbolAt_maskOf_fst _ _ hi, Nat.not_lt.2 hji', Nat.not_lt.2 (hkj.trans hji')]
    · simp only [symbolAt, valueBits_maskOf]
      exact getLsbD_eq_of_div_two_pow_eq hdiv hji

/-- No broader and of the same quotient is: contained (R81). The last byte of the narrower block has the quotient of its
first byte by every larger power. -/
theorem block_subset_iff {k j v w : Nat} (hv : v % 2 ^ k = 0) (hw : w % 2 ^ j = 0) :
    (k ≤ j ∧ v / 2 ^ j = w / 2 ^ j) ↔ (w ≤ v ∧ v + (2 ^ k - 1) ≤ w + (2 ^ j - 1)) := by
  have hj : 0 < 2 ^ j := Nat.two_pow_pos j
  constructor
  · rintro ⟨hkj, hdiv⟩
    have hlast : (v + (2 ^ k - 1)) / 2 ^ k = v / 2 ^ k :=
      (block_iff_div_eq hv _).1 ⟨Nat.le_add_right _ _, Nat.le_refl _⟩
    exact ⟨((block_iff_div_eq hw v).2 hdiv).1,
      ((block_iff_div_eq hw _).2 ((div_two_pow_eq_of_le hkj hlast).trans hdiv)).2⟩
  · rintro ⟨hlow, hhigh⟩
    have hpow : 2 ^ k ≤ 2 ^ j := by omega
    exact ⟨(Nat.pow_le_pow_iff_right (by decide)).1 hpow, (block_iff_div_eq hw v).1 ⟨hlow, by omega⟩⟩

theorem execPatSubset_of_construct {m n : MaskWord} {p q : Pattern} (hp : construct m = some p)
    (hq : construct n = some q) (s : State) :
    execPatSubset m n s = respondOk .patSubset (infoBool (isSubsetOf p q)) s := by
  simp only [execPatSubset, (constructAt_ok_iff 0 m p).2 hp, (constructAt_ok_iff 1 n q).2 hq]

theorem execPatSubset_of_not_validMask_left {m : MaskWord} (h : ¬ValidMask m) (n : MaskWord) (s : State) :
    execPatSubset m n s = raise Opcode.patSubset.code (.invalidMask m 0) s := by
  simp only [execPatSubset, (constructAt_error_iff 0 m _).2 ⟨h, rfl⟩]
  rfl

theorem execPatSubset_of_not_validMask_right {m n : MaskWord} (hm : ValidMask m) (hn : ¬ValidMask n) (s : State) :
    execPatSubset m n s = raise Opcode.patSubset.code (.invalidMask n 1) s := by
  simp only [execPatSubset, (constructAt_ok_iff 0 m _).2 (construct_eq_patternOf hm),
    (constructAt_error_iff 1 n _).2 ⟨hn, rfl⟩]
  rfl

/-- Settles O25: the bit is the symbol test, which is the comparison of quotients, which is containment. -/
theorem patSubsetIsContainment : Obligations.PatSubsetIsContainment := by
  refine ⟨fun s k j v w hk hv hj hw => ?_, fun s m n hm => execPatSubset_of_not_validMask_left hm n s,
    fun s m n hm hn => execPatSubset_of_not_validMask_right hm hn s⟩
  have hp := construct_maskOf hk hv
  have hq := construct_maskOf hj hw
  have hdiv := isSubsetOf_iff_div_eq hp hq
  have hexec := execPatSubset_of_construct hp hq s
  rw [infoBool_eq] at hexec
  exact ⟨_, hexec, isSubsetOf_iff _ _, hdiv, hdiv.trans (block_subset_iff hv hw)⟩

/-! ### Nested or disjoint (40_bitpattern R82) -/

theorem isSubsetOf_refl (p : Pattern) : isSubsetOf p p = true :=
  (isSubsetOf_iff p p).2 fun _ _ _ => rfl

theorem isSubsetOf_trans {m n : MaskWord} {p q r : Pattern} (hq : construct m = some q) (hr : construct n = some r)
    (hpq : isSubsetOf p q = true) (hqr : isSubsetOf q r = true) : isSubsetOf p r = true := by
  have hmb : q.mb ≤ r.mb := mb_le_of_isSubsetOf hq hr hqr
  rw [isSubsetOf_iff] at hpq hqr ⊢
  exact fun i hi hi8 => (hpq i (hmb.trans hi) hi8).trans (hqr i hi hi8)

/-- Two patterns that contain each other have one mask: the same width, and the same quotient by it. -/
theorem mask_eq_of_isSubsetOf_both {m n : MaskWord} {p q : Pattern} (hp : construct m = some p)
    (hq : construct n = some q) (hpq : isSubsetOf p q = true) (hqp : isSubsetOf q p = true) : m = n := by
  have hkj : p.mb = q.mb := Nat.le_antisymm (mb_le_of_isSubsetOf hp hq hpq) (mb_le_of_isSubsetOf hq hp hqp)
  have hdiv := ((isSubsetOf_iff_div_eq hp hq).1 hpq).2
  obtain ⟨k, v, -, hv, rfl, rfl⟩ := construct_cases hp
  obtain ⟨j, w, -, hw, rfl, rfl⟩ := construct_cases hq
  obtain rfl : k = j := hkj
  have hvw : v.toNat = w.toNat := by
    rw [← Nat.div_add_mod v.toNat (2 ^ k), ← Nat.div_add_mod w.toNat (2 ^ k), hv, hw]
    exact congrArg (2 ^ k * · + 0) hdiv
  rw [BitVec.eq_of_toNat_eq hvw]

/-- A mask claims the bytes that its pattern matches. -/
theorem claims_iff_inRange {m : MaskWord} {p : Pattern} (hp : construct m = some p) (b : Byte) :
    Claims m b ↔ inRange p b = true := by
  have hvalid : ValidMask m := (construct_isSome_iff m).1 (by simp [hp])
  obtain rfl : patternOf m = p := Option.some.inj ((construct_eq_patternOf hvalid).symm.trans hp)
  exact (inRange_patternOf_iff m b).symm

/-- A byte that two patterns match puts the narrower one into the broader one. -/
theorem isSubsetOf_of_common_byte {m n : MaskWord} {p q : Pattern} (hp : construct m = some p)
    (hq : construct n = some q) {b : Byte} (hbp : inRange p b = true) (hbq : inRange q b = true)
    (hmb : p.mb ≤ q.mb) : isSubsetOf p q = true := by
  rw [inRange_iff_div_eq hp] at hbp
  rw [inRange_iff_div_eq hq] at hbq
  exact (isSubsetOf_iff_div_eq hp hq).2 ⟨hmb, (div_two_pow_eq_of_le hmb hbp).symm.trans hbq⟩

/-- Of two patterns that match a common byte one is a subset of the other. -/
theorem isSubsetOf_or_of_common_byte {m n : MaskWord} {p q : Pattern} (hp : construct m = some p)
    (hq : construct n = some q) {b : Byte} (hbp : inRange p b = true) (hbq : inRange q b = true) :
    isSubsetOf p q = true ∨ isSubsetOf q p = true :=
  (Nat.le_total p.mb q.mb).imp (isSubsetOf_of_common_byte hp hq hbp hbq) (isSubsetOf_of_common_byte hq hp hbq hbp)

/-- A subset shares its low end with the other pattern. -/
theorem not_disjointRanges_of_isSubsetOf {m n : MaskWord} {p q : Pattern} (hp : construct m = some p)
    (hq : construct n = some q) (h : isSubsetOf p q = true) : ¬DisjointRanges m n := fun hd =>
  hd p.low ⟨(claims_iff_inRange hp _).2 (inRange_low hp),
    (claims_iff_inRange hq _).2 (inRange_low_of_isSubsetOf hp hq h)⟩

/-- Ranges that are not disjoint are nested. -/
theorem isSubsetOf_or_of_not_disjointRanges {m n : MaskWord} {p q : Pattern} (hp : construct m = some p)
    (hq : construct n = some q) (h : ¬DisjointRanges m n) : isSubsetOf p q = true ∨ isSubsetOf q p = true := by
  obtain ⟨b, hb⟩ := not_forall_not.1 h
  exact isSubsetOf_or_of_common_byte hp hq ((claims_iff_inRange hp b).1 hb.1) ((claims_iff_inRange hq b).1 hb.2)

/-- Settles O26: a byte in both ranges nests them, and a subset has its low end in both. -/
theorem patternRangesNestOrAreDisjoint : Obligations.PatternRangesNestOrAreDisjoint := by
  intro m m' m'' p q r hp hq hr
  refine ⟨isSubsetOf_refl p, isSubsetOf_trans hq hr, ⟨fun ⟨hpq, hqp⟩ => mask_eq_of_isSubsetOf_both hp hq hpq hqp, ?_⟩,
    ?_, fun ⟨hpq, hqp, hne⟩ => hne (mask_eq_of_isSubsetOf_both hp hq hpq hqp),
    fun ⟨hpq, hd⟩ => not_disjointRanges_of_isSubsetOf hp hq hpq hd,
    fun ⟨⟨hqp, _⟩, hd⟩ => not_disjointRanges_of_isSubsetOf hq hp hqp hd.symm⟩
  · rintro rfl
    obtain rfl : p = q := Option.some.inj (hp.symm.trans hq)
    exact ⟨isSubsetOf_refl p, isSubsetOf_refl p⟩
  · by_cases hd : DisjointRanges m m'
    · exact .inr (.inr hd)
    by_cases hpq : isSubsetOf p q = true
    · exact .inl hpq
    have hqp := (isSubsetOf_or_of_not_disjointRanges hp hq hd).resolve_left hpq
    refine .inr (.inl ⟨hqp, ?_⟩)
    rintro rfl
    obtain rfl : p = q := Option.some.inj (hp.symm.trans hq)
    exact hpq hqp

/-! ### CHECK_OVERLAP (40_bitpattern R86, R88) -/

/-- The status of an error's response is the error's (30_encoding R66). -/
theorem responseStatus_errorFrame (op : BitVec 4) (e : OpError) : responseStatus (errorFrame op e) = errorStatus e :=
  (extract_inLow op (errorStatus e ++ errorInfo e) 24 4 (by decide)).trans (extract_high (errorStatus e) (errorInfo e))

theorem execCheckOverlap_of_ok {ms : List MaskWord} {ps : List Pattern} (h : checkedPatterns ms = .ok ps) (s : State) :
    execCheckOverlap ms s = respondOk .checkOverlap (infoByte (BitVec.ofNat 8 ps.length)) s := by
  simp only [execCheckOverlap, h]

/-- A subset anywhere in a list of constructed masks fails the validation with status 2. -/
theorem checkedPatterns_of_isSubsetOf {ms : List MaskWord} {ps : List Pattern} (hc : ms.map construct = ps.map some)
    {i j : Nat} {p q : Pattern} (hij : i ≠ j) (hp : ps[i]? = some p) (hq : ps[j]? = some q)
    (h : isSubsetOf p q = true) : ∃ e, errorStatus e = 2 ∧ checkedPatterns ms = .error e := by
  obtain ⟨x, y, hfound⟩ := exists_firstOverlap hc hij hp hq h
  exact ⟨_, rfl, checkedPatterns_of_firstOverlap hc hfound⟩

/-- Settles O27: a subset is found wherever it stands, and without one no order of the list meets a pair. -/
theorem overlapCheckIsComplete : Obligations.OverlapCheckIsComplete := by
  intro s ms ps hc
  refine ⟨fun ⟨i, j, p, q, hij, hp, hq, hsub⟩ => ?_, fun hno => ?_⟩
  · obtain ⟨e, he, herror⟩ := checkedPatterns_of_isSubsetOf hc hij hp hq hsub
    exact ⟨_, (responseStatus_errorFrame _ e).trans he, execCheckOverlap_of_error herror s⟩
  · have hpairwise : ps.Pairwise fun p q => isSubsetOf p q = false ∧ isSubsetOf q p = false :=
      List.pairwise_iff_getElem.2 fun i j hi hj hij =>
        ⟨hno i j _ _ hij.ne (List.getElem?_eq_getElem hi) (List.getElem?_eq_getElem hj),
          hno j i _ _ hij.ne' (List.getElem?_eq_getElem hj) (List.getElem?_eq_getElem hi)⟩
    have hok : checkedPatterns ms = .ok ps :=
      (checkedPatterns_ok_iff ms ps).2 ⟨hc, overlapError_eq_none_of_pairwise hpairwise⟩
    have hexec := execCheckOverlap_of_ok hok s
    rw [checkedPatterns_length hok] at hexec
    exact hexec

/-- In a list that passes the check no pattern is a subset of another entry's. -/
theorem not_isSubsetOf_of_overlapError_none {ms : List MaskWord} {ps : List Pattern}
    (hc : ms.map construct = ps.map some) (hpass : overlapError ps = none) {i j : Nat} {p q : Pattern} (hij : i ≠ j)
    (hp : ps[i]? = some p) (hq : ps[j]? = some q) : ¬isSubsetOf p q = true := fun hsub => by
  obtain ⟨e, -, herror⟩ := checkedPatterns_of_isSubsetOf hc hij hp hq hsub
  cases herror.symm.trans ((checkedPatterns_ok_iff ms ps).2 ⟨hc, hpass⟩)

/-- Settles O30: two entries that claim a byte would be nested, and the check would have found them. -/
theorem passingListClaimsEachByteOnce : Obligations.PassingListClaimsEachByteOnce := by
  intro ms ps hc hpass b i j p q hp hq hbp hbq
  by_contra hij
  obtain ⟨m, hm⟩ := construct_of_getElem? hc hp
  obtain ⟨n, hn⟩ := construct_of_getElem? hc hq
  rcases isSubsetOf_or_of_common_byte hm hn ((inRange_iff p b).2 hbp) ((inRange_iff q b).2 hbq) with h | h
  · exact not_isSubsetOf_of_overlapError_none hc hpass hij hp hq h
  · exact not_isSubsetOf_of_overlapError_none hc hpass (Ne.symm hij) hq hp h

/-! ### The payload round trip (41_event_command R102, R103) -/

/-- The low end of a constructed pattern is a multiple of `2^mb` (40_bitpattern R77). -/
theorem low_mod_eq_zero {m : MaskWord} {p : Pattern} (hp : construct m = some p) : p.low.toNat % 2 ^ p.mb = 0 := by
  obtain ⟨k, v, -, hv, -, rfl⟩ := construct_cases hp
  exact hv

/-- The byte of a value that fits lies in the range. -/
theorem inRange_low_add {m : MaskWord} {p : Pattern} (hp : construct m = some p) {v : Nat} (hv : v < 2 ^ p.mb) :
    inRange p (p.low + BitVec.ofNat 8 v) = true := by
  have hlow := low_mod_eq_zero hp
  rw [← low_or_ofNat_eq_add hp hv, inRange_iff_div_eq hp]
  obtain ⟨q, hq⟩ := Nat.dvd_of_mod_eq_zero hlow
  have hv8 : v % 2 ^ 8 < 2 ^ p.mb := Nat.lt_of_le_of_lt (Nat.mod_le v _) hv
  rw [BitVec.toNat_or, BitVec.toNat_ofNat, hq, ← Nat.two_pow_add_eq_or_of_lt hv8,
    Nat.mul_add_div (Nat.two_pow_pos _), Nat.mul_div_cancel_left q (Nat.two_pow_pos _), Nat.div_eq_of_lt hv8,
    Nat.add_zero]

/-- The payload of a byte in the range is below `2^mb`. -/
theorem payload_lt {m : MaskWord} {p : Pattern} (hp : construct m = some p) {b : Byte} (hb : inRange p b = true) :
    (b - p.low).toNat < 2 ^ p.mb := by
  have hlow := low_mod_eq_zero hp
  obtain ⟨hle, hge⟩ := (block_iff_div_eq hlow b.toNat).2 ((inRange_iff_div_eq hp b).1 hb)
  rw [sub_toNat_of_block hlow hle hge]
  exact Nat.mod_lt _ (Nat.two_pow_pos _)

/-- Inserting a value that fits adds it to the low end. -/
theorem insertValue_eq_add {m : MaskWord} {p : Pattern} (hp : construct m = some p) {v : Nat} (hv : v < 2 ^ p.mb) :
    insertValue p v = some (p.low + BitVec.ofNat 8 v) := by
  rw [insertValue_eq, if_pos hv, low_or_ofNat_eq_add hp hv]

/-- Settles O33: insertion adds the low end and extraction subtracts it. -/
theorem payloadRoundTrip : Obligations.PayloadRoundTrip := by
  intro m p hp
  refine ⟨fun v hv => ?_, fun b hb => ?_⟩
  · have hrange := inRange_low_add hp hv
    obtain ⟨hlow, hhigh⟩ := (inRange_iff p _).1 hrange
    refine ⟨_, insertValue_eq_add hp hv, hlow, hhigh, ?_⟩
    rw [extractArg_eq_sub hp hrange, BitVec.add_comm, BitVec.add_sub_cancel]
  · refine ⟨_, extractArg_eq_sub hp hb, ?_⟩
    rw [insertValue_eq_add hp (payload_lt hp hb), BitVec.ofNat_toNat, BitVec.setWidth_eq, BitVec.add_comm,
      BitVec.sub_add_cancel]

/-! ### Refused loads (43_dispatcher R122) -/

/-- A list with an invalid mask fails the validation with status 1. -/
theorem checkedPatterns_of_invalid {ms : List MaskWord} (h : ∃ m ∈ ms, ¬ValidMask m) :
    ∃ e, errorStatus e = 1 ∧ checkedPatterns ms = .error e := by
  obtain ⟨m, hm, hinvalid⟩ := h
  cases hc : constructFrom 0 ms with
  | ok ps =>
    have hnone : none ∈ ps.map some := by
      rw [← (constructFrom_ok_iff 0 ms ps).1 hc, ← (construct_eq_none_iff m).2 hinvalid]
      exact List.mem_map_of_mem hm
    simp at hnone
  | error e =>
    obtain ⟨_, _, _, _, _, _, he⟩ := constructFrom_error hc
    exact ⟨e, congrArg errorStatus he, by simp only [checkedPatterns, hc]⟩

/-- Valid masks of which two claim a common byte fail the validation with status 2. -/
theorem checkedPatterns_of_not_disjointRanges {ms : List MaskWord} (hv : ∀ m ∈ ms, ValidMask m)
    (hd : ¬ms.Pairwise DisjointRanges) : ∃ e, errorStatus e = 2 ∧ checkedPatterns ms = .error e := by
  have hc : ms.map construct = (ms.map patternOf).map some := by
    rw [List.map_map]
    exact List.map_congr_left fun m hm => construct_eq_patternOf (hv m hm)
  obtain ⟨i, j, hi, hj, hij, hmeet⟩ : ∃ i j, ∃ (hi : i < ms.length) (hj : j < ms.length), i < j ∧
      ¬DisjointRanges ms[i] ms[j] := by
    simpa only [List.pairwise_iff_getElem, not_forall, exists_prop] using hd
  have hp := construct_eq_patternOf (hv _ (List.getElem_mem hi))
  have hq := construct_eq_patternOf (hv _ (List.getElem_mem hj))
  have hpi : (ms.map patternOf)[i]? = some (patternOf ms[i]) := by simp [hi]
  have hqj : (ms.map patternOf)[j]? = some (patternOf ms[j]) := by simp [hj]
  rcases isSubsetOf_or_of_not_disjointRanges hp hq hmeet with h | h
  · exact checkedPatterns_of_isSubsetOf hc hij.ne hpi hqj h
  · exact checkedPatterns_of_isSubsetOf hc hij.ne' hqj hpi h

end Sys2Proof.Machine
end

section
/-! PROOFS. Family other, what an operation can do: one inversion lemma over the fifteen operations, and from it the
order of the outputs (20_memory R44), the errors (60_exceptions R152, R154), the writes (10_state R24) and their idempotency
(20_memory R34), and the purity of the nine leaf operations (40_bitpattern R91, 42_codecs R118). -/

namespace Sys2Proof.Machine

/-! ### The operation of an instruction -/

/-- The operation that gives an instruction its meaning: its own, or for a wire row DECODE or ENCODE_SEND. -/
def operationOf : Instr → Opcode
  | .patConstruct _ => .patConstruct
  | .patMatch _ _ => .patMatch
  | .patSubset _ _ => .patSubset
  | .checkOverlap _ => .checkOverlap
  | .extract _ _ => .extract
  | .translate _ _ => .translate
  | .loadEvents _ => .loadEvents
  | .loadCommands _ => .loadCommands
  | .setHandler _ _ => .setHandler
  | .setDefaultHandler _ => .setDefaultHandler
  | .decode _ | .wireEventLight _ | .wireEventKnob _ | .wireEventTemperature _ => .decode
  | .encodeSend _ _ | .wireCommandServo _ | .wireCommandLed _ | .wireCommandRgb _ | .wireCommandSubscribe _
  | .wireCommandQuery _ => .encodeSend
  | .encServices _ => .encServices
  | .encRgb _ => .encRgb
  | .decTemp _ => .decTemp

/-- An operation is written with its own number in the header. -/
theorem encode_eq_header {i : Instr} (h : isOperation i = true) :
    ∃ operands rest, encode i = .frame (header (operationOf i) operands :: rest) := by
  cases i <;> simp [isOperation] at h
  all_goals exact ⟨_, _, rfl⟩

/-! ### The leaf operations (40_bitpattern R91, 42_codecs R118) -/

/-- One answer on every state: an error of the operation's own, or OK with one `INFO`. -/
def LeafAnswers (i : Instr) : Prop :=
  (∃ e, errorStatus e ∈ ownStatuses i ∧ ∀ s, exec i s = raise (operationOf i).code e s) ∨
    ∃ info, ∀ s, exec i s = respondOk (operationOf i) info s

/-- An overlap is reported with status 2. -/
theorem errorStatus_of_overlapError {ps : List Pattern} {e : OpError} (h : overlapError ps = some e) :
    errorStatus e = 2 := by
  unfold overlapError at h
  split at h
  · cases h
  · obtain rfl := Option.some.inj h
    rfl

/-- The validation of a list fails with status 1 or 2. -/
theorem errorStatus_of_checkedPatterns {ms : List MaskWord} {e : OpError} (h : checkedPatterns ms = .error e) :
    errorStatus e = 1 ∨ errorStatus e = 2 := by
  unfold checkedPatterns at h
  cases hc : constructFrom 0 ms with
  | error e' =>
    obtain ⟨_, _, _, _, _, _, he⟩ := constructFrom_error hc
    simp only [hc, Except.error.injEq] at h
    exact .inl (congrArg errorStatus (h.symm.trans he))
  | ok ps =>
    simp only [hc] at h
    split at h
    · rename_i e' he
      obtain rfl := Except.error.inj h
      exact .inr (errorStatus_of_overlapError he)
    · cases h

/-- ENC_SERVICES fails with status 8, at an unknown service id, and in one word. -/
theorem encodeServices_error {args : List Arg} {e : OpError} (h : encodeServices args = .error e) :
    errorStatus e = 8 ∧ errorSecondWord e = none := by
  obtain ⟨_, _, _, _, _, _, rfl⟩ := servicesFrom_error h
  exact ⟨rfl, rfl⟩

/-- ENC_RGB fails with status 9, and in one word. -/
theorem encodeRgb_error {args : List Arg} {e : OpError} (h : encodeRgb args = .error e) :
    errorStatus e = 9 ∧ errorSecondWord e = none := by
  unfold encodeRgb at h
  split at h
  · split at h
    · obtain rfl := Except.error.inj h
      exact ⟨rfl, rfl⟩
    · cases h
  · cases h
  · obtain rfl := Except.error.inj h
    exact ⟨rfl, rfl⟩

theorem leafAnswers_patConstruct (m : MaskWord) : LeafAnswers (.patConstruct m) := by
  by_cases hm : ValidMask m
  · exact .inr ⟨_, execPatConstruct_of_construct (construct_eq_patternOf hm)⟩
  · exact .inl ⟨_, by simp [ownStatuses, errorStatus], execPatConstruct_of_not_validMask hm⟩

theorem leafAnswers_patMatch (m : MaskWord) (b : Byte) : LeafAnswers (.patMatch m b) := by
  by_cases hm : ValidMask m
  · exact .inr ⟨_, execPatMatch_of_construct (construct_eq_patternOf hm) b⟩
  · exact .inl ⟨_, by simp [ownStatuses, errorStatus], execPatMatch_of_not_validMask hm b⟩

theorem leafAnswers_patSubset (m n : MaskWord) : LeafAnswers (.patSubset m n) := by
  by_cases hm : ValidMask m
  · by_cases hn : ValidMask n
    · exact .inr ⟨_, execPatSubset_of_construct (construct_eq_patternOf hm) (construct_eq_patternOf hn)⟩
    · exact .inl ⟨_, by simp [ownStatuses, errorStatus], execPatSubset_of_not_validMask_right hm hn⟩
  · exact .inl ⟨_, by simp [ownStatuses, errorStatus], execPatSubset_of_not_validMask_left hm n⟩

theorem leafAnswers_checkOverlap (ms : List MaskWord) : LeafAnswers (.checkOverlap ms) := by
  cases h : checkedPatterns ms with
  | error e =>
    exact .inl ⟨e, by simpa [ownStatuses] using .inr (errorStatus_of_checkedPatterns h), execCheckOverlap_of_error h⟩
  | ok ps => exact .inr ⟨_, execCheckOverlap_of_ok h⟩

theorem leafAnswers_extract (m : MaskWord) (b : Byte) : LeafAnswers (.extract m b) := by
  by_cases hm : ValidMask m
  · have hp := construct_eq_patternOf hm
    by_cases hb : inRange (patternOf m) b = true
    · exact .inr ⟨_, execExtract_of_inRange hp hb⟩
    · exact .inl ⟨_, by simp [ownStatuses, errorStatus], execExtract_of_not_inRange hp hb⟩
  · exact .inl ⟨_, by simp [ownStatuses, errorStatus], execExtract_of_not_validMask hm b⟩

theorem leafAnswers_translate (m : MaskWord) (v : BitVec 32) : LeafAnswers (.translate m v) := by
  by_cases hm : ValidMask m
  · have hp := construct_eq_patternOf hm
    by_cases hv : v.toNat < 2 ^ (patternOf m).mb
    · exact .inr ⟨_, execTranslate_of_lt hp hv⟩
    · exact .inl ⟨_, by simp [ownStatuses, errorStatus], execTranslate_of_le hp (Nat.le_of_not_lt hv)⟩
  · exact .inl ⟨_, by simp [ownStatuses, errorStatus], execTranslate_of_not_validMask hm v⟩

theorem leafAnswers_encServices (args : List Arg) : LeafAnswers (.encServices args) := by
  cases h : encodeServices args with
  | error e => exact .inl ⟨e, by simp [ownStatuses, (encodeServices_error h).1], execEncServices_of_error h⟩
  | ok v => exact .inr ⟨_, execEncServices_of_ok h⟩

theorem leafAnswers_encRgb (args : List Arg) : LeafAnswers (.encRgb args) := by
  cases h : encodeRgb args with
  | error e => exact .inl ⟨e, by simp [ownStatuses, (encodeRgb_error h).1], execEncRgb_of_error h⟩
  | ok v => exact .inr ⟨_, execEncRgb_of_ok h⟩

theorem leafAnswers_decTemp (raw : Byte) : LeafAnswers (.decTemp raw) := .inr ⟨_, fun _ => rfl⟩

/-- Each of the nine leaf operations has one answer on every state. -/
theorem leafAnswers_of_touchesNoState {i : Instr} (h : touchesNoState i = true) : LeafAnswers i := by
  cases i <;> simp [touchesNoState] at h
  case patConstruct m => exact leafAnswers_patConstruct m
  case patMatch m b => exact leafAnswers_patMatch m b
  case patSubset m n => exact leafAnswers_patSubset m n
  case checkOverlap ms => exact leafAnswers_checkOverlap ms
  case extract m b => exact leafAnswers_extract m b
  case translate m v => exact leafAnswers_translate m v
  case encServices args => exact leafAnswers_encServices args
  case encRgb args => exact leafAnswers_encRgb args
  case decTemp raw => exact leafAnswers_decTemp raw

/-- Settles O19: the one answer of a leaf operation is one response, and only the trace takes it. -/
theorem nineOperationsArePure : Obligations.NineOperationsArePure := by
  intro i hi
  rcases leafAnswers_of_touchesNoState hi with ⟨_, -, hexec⟩ | ⟨_, hexec⟩
  · exact ⟨_, hexec⟩
  · exact ⟨_, hexec⟩

/-! ### What an operation can do -/

/-- `Written s i u`: instruction `i` may leave the four pieces of state of `s` as those of `u` (10_state R24). -/
inductive Written (s : State) : Instr → State → Prop
  | loadEvents {es : List EventSpec} {ps : List Pattern} (h : checkedPatterns (es.map EventSpec.mask) = .ok ps) :
    Written s (.loadEvents es) (installEvents (eventEntries es ps) s)
  | loadCommands {cs : List CommandSpec} {ps : List Pattern} (h : checkedPatterns (cs.map CommandSpec.mask) = .ok ps) :
    Written s (.loadCommands cs) (installCommands (commandEntries cs ps) s)
  | setHandler {n : NameId} {t : Token} (h : eventNamed s n = true) : Written s (.setHandler n t) (setSlot n t s)
  | setDefaultHandler {t : Token} : Written s (.setDefaultHandler t) (setDefault t s)
  | nothing {i : Instr} : Written s i s

/-- What may stand on the ports before the response of an operation that ends OK (20_memory R44). -/
inductive OutputBefore : Instr → List PortEvent → Prop
  | none {i : Instr} : OutputBefore i []
  | record {b : Byte} {w0 w1 : Word} : OutputBefore (.decode b) [.dispatch w0 w1]
  | byte {n : NameId} {args : List Arg} {b : Byte} : OutputBefore (.encodeSend n args) [.tx b]

/-- `Answer i s t`: operation `i` may take state `s` to `t`. Either it answers an error of its own and changes nothing
else, or it writes, outputs and answers OK. -/
inductive Answer (i : Instr) (s : State) : State → Prop
  | error {e : OpError} (status : errorStatus e ∈ ownStatuses i) :
    Answer i s { s with trace := s.trace ++ [.rsp (errorFrame (operationOf i).code e)] }
  | ok {u : State} {out : List PortEvent} {info : BitVec 24} {second : Option Word} (written : Written s i u)
      (before : OutputBefore i out) :
    Answer i s { u with
      trace := s.trace ++ (out ++ [.rsp (responseWord (operationOf i).code statusOk info :: second.toList)]) }

/-- Operation `i` has an answer on `s`, and it is one of these. -/
def Answers (i : Instr) (s : State) : Prop := ∃ t, exec i s = .next t ∧ Answer i s t

section
variable {i : Instr} {s : State}

theorem answers_of_raise {e : OpError} (status : errorStatus e ∈ ownStatuses i)
    (h : exec i s = raise (operationOf i).code e s) : Answers i s :=
  ⟨_, h, .error status⟩

theorem answers_of_respondOk {info : BitVec 24} {u : State} (written : Written s i u) (htrace : u.trace = s.trace)
    (h : exec i s = respondOk (operationOf i) info u) : Answers i s := by
  refine ⟨_, h, ?_⟩
  rw [emit, htrace]
  exact .ok (second := none) written .none

theorem answers_of_leafAnswers (hleaf : LeafAnswers i) : Answers i s := by
  rcases hleaf with ⟨e, status, hexec⟩ | ⟨info, hexec⟩
  · exact answers_of_raise status (hexec s)
  · exact answers_of_respondOk .nothing rfl (hexec s)

end

theorem answers_loadEvents (es : List EventSpec) (s : State) : Answers (.loadEvents es) s := by
  rcases execLoadEvents_cases es s with ⟨e, herror, hexec⟩ | ⟨ps, hok, hexec⟩
  · exact answers_of_raise (by simpa [ownStatuses] using .inr (errorStatus_of_checkedPatterns herror)) hexec
  · exact answers_of_respondOk (.loadEvents hok) rfl hexec

theorem answers_loadCommands (cs : List CommandSpec) (s : State) : Answers (.loadCommands cs) s := by
  rcases execLoadCommands_cases cs s with ⟨e, herror, hexec⟩ | ⟨ps, hok, hexec⟩
  · exact answers_of_raise (by simpa [ownStatuses] using .inr (errorStatus_of_checkedPatterns herror)) hexec
  · exact answers_of_respondOk (.loadCommands hok) rfl hexec

theorem answers_setHandler (n : NameId) (k : Token) (s : State) : Answers (.setHandler n k) s := by
  rcases execSetHandler_cases n k s with ⟨hnamed, hexec⟩ | ⟨-, hexec⟩
  · exact answers_of_respondOk (.setHandler hnamed) rfl hexec
  · exact answers_of_raise (by simp [ownStatuses, errorStatus]) hexec

/-- The dispatch record, if any, is the one output of a DECODE before its response. -/
theorem outputBefore_dispatchRecord (b : Byte) (h : Handler) (v : DecodedValue) (n : NameId) (raw : Byte) :
    OutputBefore (.decode b) (dispatchRecord h v n raw).toList := by
  cases h with
  | none => exact .none
  | specific t => exact .record
  | default t => exact .record

theorem answers_decode (b : Byte) (s : State) : Answers (.decode b) s := by
  rcases decodeByte_cases b s with ⟨-, hexec⟩ | ⟨e, i, -, hexec⟩
  · exact answers_of_raise (by simp [ownStatuses, errorStatus]) hexec
  · rw [dispatchEvent_eq] at hexec
    exact ⟨_, hexec, .ok (second := some _) .nothing (outputBefore_dispatchRecord b _ _ _ _)⟩

/-- A transform fails with a status of ENCODE_SEND. -/
theorem errorStatus_of_encodeTransform {xf : CommandXf} {args : List Arg} {e : OpError}
    (h : encodeTransform xf args = .error e) : errorStatus e = 8 ∨ errorStatus e = 9 := by
  cases xf with
  | identity =>
    simp only [encodeTransform] at h
    split at h
    · cases h
    · obtain rfl := Except.error.inj h
      exact .inr rfl
  | services => exact .inl (encodeServices_error h).1
  | rgb => exact .inr (encodeRgb_error h).1

theorem answers_encodeSend (n : NameId) (args : List Arg) (s : State) : Answers (.encodeSend n args) s := by
  rcases encodeAndSend_cases n args s with
    ⟨-, hexec⟩ | ⟨c, e, -, he, hexec⟩ | ⟨c, v, -, -, -, hexec⟩ | ⟨c, v, -, -, -, hexec⟩
  · exact answers_of_raise (by simp [ownStatuses, errorStatus]) hexec
  · refine answers_of_raise ?_ hexec
    rcases errorStatus_of_encodeTransform he with h8 | h9
    · simp [ownStatuses, h8]
    · simp [ownStatuses, h9]
  · exact answers_of_raise (by simp [ownStatuses, errorStatus]) hexec
  · rw [respondOk_emit] at hexec
    exact ⟨_, hexec, .ok (second := none) .nothing .byte⟩

/-- What an operation can do, said once for all fifteen. -/
theorem answers_of_isOperation {i : Instr} (hi : isOperation i = true) (s : State) : Answers i s := by
  by_cases hleaf : touchesNoState i = true
  · exact answers_of_leafAnswers (leafAnswers_of_touchesNoState hleaf)
  cases i <;> simp [isOperation, touchesNoState] at hi hleaf
  case loadEvents es => exact answers_loadEvents es s
  case loadCommands cs => exact answers_loadCommands cs s
  case setHandler n k => exact answers_setHandler n k s
  case setDefaultHandler k => exact answers_of_respondOk .setDefaultHandler rfl rfl
  case decode b => exact answers_decode b s
  case encodeSend n args => exact answers_encodeSend n args s

theorem answer_of_exec {i : Instr} (hi : isOperation i = true) {s t : State} (h : exec i s = .next t) :
    Answer i s t := by
  obtain ⟨t', hexec, hanswer⟩ := answers_of_isOperation hi s
  obtain rfl := Host.Outcome.next.inj (hexec.symm.trans h)
  exact hanswer

/-- Every instruction does what some operation does: a wire row what its operation does (30_encoding R45). -/
theorem exists_operation (i : Instr) : ∃ j, isOperation j = true ∧ ∀ s, exec i s = exec j s := by
  cases i
  case wireEventLight p => exact ⟨.decode (0b00#2 ++ p), rfl, fun _ => rfl⟩
  case wireEventKnob p => exact ⟨.decode (0b01#2 ++ p), rfl, fun _ => rfl⟩
  case wireEventTemperature p => exact ⟨.decode (0b10#2 ++ p), rfl, fun _ => rfl⟩
  case wireCommandServo p => exact ⟨.encodeSend 0 [p.setWidth 16], rfl, fun _ => rfl⟩
  case wireCommandLed p => exact ⟨.encodeSend 1 [p.setWidth 16], rfl, fun _ => rfl⟩
  case wireCommandRgb p => exact ⟨.encodeSend 2 [p.setWidth 16], rfl, fun _ => rfl⟩
  case wireCommandSubscribe p => exact ⟨.encodeSend 3 [p.setWidth 16], rfl, fun _ => rfl⟩
  case wireCommandQuery p => exact ⟨.encodeSend 4 [p.setWidth 16], rfl, fun _ => rfl⟩
  all_goals exact ⟨_, rfl, fun _ => rfl⟩

/-- Settles O48: the wire rows call the meanings of DECODE and ENCODE_SEND, and the payload is widened with zeros. -/
theorem wireRowsRunAsTheirOperation : Obligations.WireRowsRunAsTheirOperation :=
  ⟨fun _ _ => ⟨rfl, rfl, rfl⟩,
    fun _ s => congrArg (fun a => encodeAndSend 0 [a] s) (BitVec.setWidth_eq_append (by decide)),
    fun _ s => congrArg (fun a => encodeAndSend 1 [a] s) (BitVec.setWidth_eq_append (by decide)),
    fun _ s => ⟨congrArg (fun a => encodeAndSend 2 [a] s) (BitVec.setWidth_eq_append (by decide)),
      congrArg (fun a => encodeAndSend 3 [a] s) (BitVec.setWidth_eq_append (by decide)),
      congrArg (fun a => encodeAndSend 4 [a] s) (BitVec.setWidth_eq_append (by decide))⟩⟩

/-! ### Outputs and statuses (20_memory R44; 60_exceptions R154) -/

/-- A write touches neither the capacities nor the input ports. -/
theorem Written.ports_eq {s u : State} {i : Instr} (h : Written s i u) : u.cfg = s.cfg ∧ u.pending = s.pending := by
  cases h <;> exact ⟨rfl, rfl⟩

/-- A response has one word, or two. -/
theorem response_length (w : Word) (second : Option Word) :
    (w :: second.toList).length = 1 ∨ (w :: second.toList).length = 2 := by
  cases second
  · exact .inl rfl
  · exact .inr rfl

/-- The outputs before a response are those that 20_memory R44 allows. -/
theorem OutputBefore.shape {i : Instr} {out : List PortEvent} (h : OutputBefore i out) :
    out = [] ∨ (∃ w0 w1 b, out = [.dispatch w0 w1] ∧ i = .decode b) ∨
      ∃ b n args, out = [.tx b] ∧ i = .encodeSend n args := by
  cases h with
  | none => exact .inl rfl
  | record => exact .inr (.inl ⟨_, _, _, rfl, rfl⟩)
  | byte => exact .inr (.inr ⟨_, _, _, rfl, rfl⟩)

/-- Settles O15: an error answers alone, and an operation that ends OK answers after its outputs. -/
theorem everyRequestAnsweredOnce : Obligations.EveryRequestAnsweredOnce := by
  intro i s hi
  obtain ⟨t, hexec, hanswer⟩ := answers_of_isOperation hi s
  cases hanswer with
  | error status => exact ⟨_, [], _, hexec, rfl, response_length _ _, .inl rfl, rfl, rfl⟩
  | ok written before =>
    obtain ⟨hcfg, hpending⟩ := written.ports_eq
    exact ⟨_, _, _, hexec, rfl, response_length _ _, before.shape, hcfg, hpending⟩

/-- `STATUS` of a response that an operation ends OK with. -/
theorem responseStatus_ok (op : BitVec 4) (info : BitVec 24) (rest : List Word) :
    responseStatus (responseWord op statusOk info :: rest) = 0 :=
  (extract_inLow op (statusOk ++ info) 24 4 (by decide)).trans (extract_high statusOk info)

/-- Every operation can answer OK (60_exceptions R154). -/
theorem zero_mem_ownStatuses (i : Instr) : 0 ∈ ownStatuses i := by
  cases i <;> exact .head _

/-- `OP` of a response (30_encoding R66). -/
theorem op_responseWord (op status : BitVec 4) (info : BitVec 24) :
    (responseWord op status info).extractLsb' 28 4 = op := extract_high op (status ++ info)

/-- The last output of a trace that ends with a response. -/
theorem getLast?_response (trace out : List PortEvent) (ws : List Word) :
    (trace ++ (out ++ [PortEvent.rsp ws])).getLast? = some (PortEvent.rsp ws) := by
  rw [← List.append_assoc, List.getLast?_concat]

/-- Each answer ends with one response, of the operation's number and of one of its statuses. -/
theorem Answer.last_response {i : Instr} {s t : State} (h : Answer i s t) :
    ∃ ws, t.trace.getLast? = some (.rsp ws) ∧ responseStatus ws ∈ ownStatuses i ∧
      (ws.headD 0).extractLsb' 28 4 = (operationOf i).code := by
  cases h with
  | @error e status =>
    refine ⟨errorFrame (operationOf i).code e, getLast?_response _ [] _, ?_, op_responseWord _ _ _⟩
    rwa [responseStatus_errorFrame]
  | @ok u out info second written before =>
    refine ⟨responseWord (operationOf i).code statusOk info :: second.toList, getLast?_response _ out _, ?_,
      op_responseWord _ _ _⟩
    rw [responseStatus_ok]
    exact zero_mem_ownStatuses i

/-- A header with a 1 in the nibble `Z` has a reserved bit set, whatever its operation (30_encoding R51). -/
theorem nibble_reserved (op : Opcode) : (op.code ++ (1#4 ++ 0#24) : Word) &&& op.reservedHeaderBits ≠ 0 := by
  cases op <;> decide

/-- Settles O17: each answer ends with a response of the operation, and every OP refuses a 1 in the nibble `Z`. -/
theorem statusesPerOperation : Obligations.StatusesPerOperation := by
  refine ⟨fun i s t hi h => ?_, fun cfg c hc => ?_⟩
  · obtain ⟨ws, hlast, hstatus, hop⟩ := (answer_of_exec hi h).last_response
    obtain ⟨operands, rest, hencode⟩ := encode_eq_header hi
    exact ⟨ws, _, rest, hlast, hstatus, hencode, hop.trans (opField_header _ operands).symm⟩
  · obtain ⟨op, hop⟩ := Option.isSome_iff_exists.1 ((opcodeOf_isSome_iff c).2 hc)
    obtain rfl := code_of_opcodeOf hop
    exact decodeFrame_of_reservedHeader cfg (extract_high op.code (1#4 ++ 0#24)) (nibble_reserved op)

/-- An answer with a status other than OK changes the trace alone (60_exceptions R152). -/
theorem Answer.eq_of_status_ne_zero {i : Instr} {s t : State} (h : Answer i s t) :
    ∃ ws, t.trace.getLast? = some (.rsp ws) ∧
      (responseStatus ws ≠ 0 → t = { s with trace := s.trace ++ [.rsp ws] }) := by
  cases h with
  | error status => exact ⟨_, getLast?_response _ [] _, fun _ => rfl⟩
  | ok written before => exact ⟨_, getLast?_response _ _ _, fun hne => absurd (responseStatus_ok _ _ _) hne⟩

/-! ### The writes of each operation (10_state R24; 20_memory R34) -/

/-- Settles O18: an error writes nothing, and the four writes are those of the table. -/
theorem onlyFourOperationsWriteState : Obligations.OnlyFourOperationsWriteState := by
  intro i s t hi h
  rcases answer_of_exec hi h with status | ⟨written, before⟩
  · cases i <;> simp
  · cases written with
    | loadEvents _ => exact ⟨rfl, rfl⟩
    | loadCommands _ => exact ⟨rfl, rfl, rfl⟩
    | setHandler _ => exact ⟨rfl, rfl, rfl, fun n' hne => hregRead_hregWrite_other s.hreg _ n' _ hne⟩
    | setDefaultHandler => exact ⟨rfl, rfl, rfl⟩
    | nothing => cases i <;> simp

/-- Writing a slot twice is writing it once. -/
theorem hregWrite_hregWrite_same (h : List (NameId × Token)) (n : NameId) (t : Token) :
    hregWrite (hregWrite h n t) n t = hregWrite h n t := by
  induction h with
  | nil => simp [hregWrite]
  | cons kt rest ih =>
    obtain ⟨k, u⟩ := kt
    by_cases hlt : n < k
    · simp [hregWrite, hlt]
    · by_cases heq : n = k
      · simp [hregWrite, heq]
      · simp [hregWrite, hlt, heq, ih]

/-- Settles O22, operation by operation. -/
theorem stateWritersAreIdempotent : Obligations.StateWritersAreIdempotent := by
  rintro i s t u (⟨es, rfl⟩ | ⟨cs, rfl⟩ | ⟨n, k, rfl⟩ | ⟨k, rfl⟩) ht hu
  · cases hc : checkedPatterns (es.map EventSpec.mask) with
    | error e =>
      obtain rfl := Host.Outcome.next.inj ((execLoadEvents_of_error hc t).symm.trans hu)
      exact ⟨rfl, rfl, rfl, rfl⟩
    | ok ps =>
      obtain rfl := Host.Outcome.next.inj ((execLoadEvents_of_ok hc s).symm.trans ht)
      obtain rfl := Host.Outcome.next.inj ((execLoadEvents_of_ok hc _).symm.trans hu)
      exact ⟨rfl, rfl, rfl, rfl⟩
  · cases hc : checkedPatterns (cs.map CommandSpec.mask) with
    | error e =>
      obtain rfl := Host.Outcome.next.inj ((execLoadCommands_of_error hc t).symm.trans hu)
      exact ⟨rfl, rfl, rfl, rfl⟩
    | ok ps =>
      obtain rfl := Host.Outcome.next.inj ((execLoadCommands_of_ok hc s).symm.trans ht)
      obtain rfl := Host.Outcome.next.inj ((execLoadCommands_of_ok hc _).symm.trans hu)
      exact ⟨rfl, rfl, rfl, rfl⟩
  · rcases execSetHandler_cases n k t with ⟨hnamed, hexec⟩ | ⟨-, hexec⟩
    · obtain rfl := Host.Outcome.next.inj (hexec.symm.trans hu)
      rcases execSetHandler_cases n k s with ⟨-, hfirst⟩ | ⟨hunknown, hfirst⟩
      · obtain rfl := Host.Outcome.next.inj (hfirst.symm.trans ht)
        exact ⟨rfl, rfl, hregWrite_hregWrite_same s.hreg n k, rfl⟩
      · obtain rfl := Host.Outcome.next.inj (hfirst.symm.trans ht)
        exact absurd (hnamed.symm.trans hunknown) (by decide)
    · obtain rfl := Host.Outcome.next.inj (hexec.symm.trans hu)
      exact ⟨rfl, rfl, rfl, rfl⟩
  · obtain rfl := Host.Outcome.next.inj ((setDefaultHandlerIsUnconditional s k).symm.trans ht)
    obtain rfl := Host.Outcome.next.inj ((setDefaultHandlerIsUnconditional _ k).symm.trans hu)
    exact ⟨rfl, rfl, rfl, rfl⟩

end Sys2Proof.Machine
end

section
/-! PROOFS. Family other, the steps: what a step can do (20_memory R37, 60_exceptions R150, 70_reset_and_hazards R163),
the invariants that every step keeps (10_state R18, R20, R22), and what the reset state answers (R26). -/

namespace Sys2Proof.Machine

/-! ### One lemma per kind of input -/

theorem step_of_pending_nil {s : State} (h : s.pending = []) : step s = .next s := by
  simp only [step, fetch, h]

section
variable {s : State} {rest : List Input}

theorem step_of_instr {input : Input} {i : Instr} (hp : s.pending = input :: rest)
    (hi : decodeInput s.cfg input = .instr i) : step s = exec i { s with pending := rest } := by
  simp only [step, fetch, hp, hi]

theorem step_of_illegal {ws : List Word} {c : IllegalCause} (hp : s.pending = .frame ws :: rest)
    (hc : decodeFrame s.cfg ws = .error c) :
    step s = raise (echoedOp ws) (.illegalRequest c) { s with pending := rest } := by
  simp only [step, fetch, hp, decodeInput, hc]

theorem step_of_rst (hp : s.pending = .rst :: rest) : step s = .next (resetState { s with pending := rest }) := by
  simp only [step, fetch, hp, decodeInput]

end

/-- Settles O3: the two lemmas on a decoded input and on no input. -/
theorem stepRunsDecodedInstruction : Obligations.StepRunsDecodedInstruction :=
  ⟨fun _ _ _ _ hp hi => step_of_instr hp hi, fun _ hp => step_of_pending_nil hp⟩

/-- The response to a frame that spells no operation (30_encoding R66, R70). -/
theorem errorFrame_illegalRequest (ws : List Word) (c : IllegalCause) :
    errorFrame (echoedOp ws) (.illegalRequest c) =
      [responseWord (echoedOp ws) 15 (0#16 ++ causeCode c)] := rfl

/-- Settles O4: the frame is taken and refused by the one way an error is taken. -/
theorem illegalFrameAnsweredOnly : Obligations.IllegalFrameAnsweredOnly := by
  intro s ws rest c hp hc
  rw [step_of_illegal hp hc, raise_eq, errorFrame_illegalRequest]
  cases ws <;> cases c <;> rfl

/-- What a step that takes an input can do: run the instruction it decodes to, refuse a frame, or reset. -/
theorem step_cases {s t : State} {input : Input} {rest : List Input} (hp : s.pending = input :: rest)
    (h : step s = .next t) :
    (∃ i, decodeInput s.cfg input = .instr i ∧ exec i { s with pending := rest } = .next t) ∨
      (∃ op c, t = emit (.rsp (errorFrame op (.illegalRequest c))) { s with pending := rest }) ∨
      t = resetState { s with pending := rest } := by
  cases hd : decodeInput s.cfg input with
  | instr i => exact .inl ⟨i, rfl, (step_of_instr hp hd).symm.trans h⟩
  | illegal op c =>
    simp only [step, fetch, hp, hd] at h
    exact .inr (.inl ⟨op, c, (Host.Outcome.next.inj h).symm⟩)
  | reset =>
    simp only [step, fetch, hp, hd] at h
    exact .inr (.inr (Host.Outcome.next.inj h).symm)
  | noWireCommand b =>
    simp only [step, fetch, hp, hd] at h
    cases h

/-- What every instruction keeps, a wire row's too: the capacities, the later inputs and the outputs so far. -/
theorem exec_ports {i : Instr} {s t : State} (h : exec i s = .next t) :
    t.cfg = s.cfg ∧ t.pending = s.pending ∧ ∃ out, t.trace = s.trace ++ out := by
  obtain ⟨j, hj, hsame⟩ := exists_operation i
  rw [hsame] at h
  rcases answer_of_exec hj h with status | ⟨written, before⟩
  · exact ⟨rfl, rfl, _, rfl⟩
  · obtain ⟨hcfg, hpending⟩ := written.ports_eq
    exact ⟨hcfg, hpending, _, rfl⟩

/-- Settles O21: whatever the step does, it works on the state with the oldest input taken. -/
theorem stepsTakeInputsInOrder : Obligations.StepsTakeInputsInOrder := by
  intro s t input rest hp h
  rcases step_cases hp h with ⟨i, -, hexec⟩ | ⟨op, c, rfl⟩ | rfl
  · obtain ⟨hcfg, hpending, out, htrace⟩ := exec_ports hexec
    exact ⟨hpending, hcfg, out, htrace⟩
  · exact ⟨rfl, rfl, _, rfl⟩
  · exact ⟨rfl, rfl, [], (List.append_nil _).symm⟩

/-- Settles O16: an operation that does not answer OK changes the trace alone, and so does a refused frame. -/
theorem errorChangesNothingButTrace : Obligations.ErrorChangesNothingButTrace := by
  refine ⟨fun i s t hi h => (answer_of_exec hi h).eq_of_status_ne_zero, fun s t ws rest c hp hc h => ?_⟩
  obtain rfl := Host.Outcome.next.inj ((step_of_illegal hp hc).symm.trans h)
  exact ⟨_, responseStatus_errorFrame (echoedOp ws) (.illegalRequest c), rfl⟩

/-- A load of entries whose list fails the validation with a status answers that status and changes nothing else. -/
theorem exec_loads_of_error {ms : List MaskWord} {status : BitVec 4}
    (h : ∃ e, errorStatus e = status ∧ checkedPatterns ms = .error e) (s : State) :
    (∀ es : List EventSpec, es.map EventSpec.mask = ms → ∃ ws, responseStatus ws = status ∧
      exec (.loadEvents es) s = .next { s with trace := s.trace ++ [.rsp ws] }) ∧
    ∀ cs : List CommandSpec, cs.map CommandSpec.mask = ms → ∃ ws, responseStatus ws = status ∧
      exec (.loadCommands cs) s = .next { s with trace := s.trace ++ [.rsp ws] } := by
  obtain ⟨e, rfl, he⟩ := h
  constructor
  · rintro es rfl
    exact ⟨_, responseStatus_errorFrame _ e, execLoadEvents_of_error he s⟩
  · rintro cs rfl
    exact ⟨_, responseStatus_errorFrame _ e, execLoadCommands_of_error he s⟩

/-- A list of entries with an invalid mask fails the validation with status 1 (`mask` is the entry's mask field). -/
theorem checkedPatterns_map_of_invalid {α : Type} (mask : α → MaskWord) {es : List α}
    (h : ∃ e ∈ es, ¬ValidMask (mask e)) : ∃ e, errorStatus e = 1 ∧ checkedPatterns (es.map mask) = .error e := by
  obtain ⟨e, he, hinvalid⟩ := h
  exact checkedPatterns_of_invalid ⟨mask e, List.mem_map_of_mem he, hinvalid⟩

/-- A list of entries of which two claim a common byte fails the validation with status 2. -/
theorem checkedPatterns_map_of_not_disjointRanges {α : Type} (mask : α → MaskWord) {es : List α}
    (hv : ∀ e ∈ es, ValidMask (mask e)) (hd : ¬es.Pairwise fun e e' => DisjointRanges (mask e) (mask e')) :
    ∃ e, errorStatus e = 2 ∧ checkedPatterns (es.map mask) = .error e :=
  checkedPatterns_of_not_disjointRanges (List.forall_mem_map.2 hv) (mt List.pairwise_map.1 hd)

/-- Settles O39: both loads validate their masks with one function, and a refused frame is no load. -/
theorem refusedLoadChangesNothing : Obligations.RefusedLoadChangesNothing :=
  ⟨fun s es =>
      ⟨fun h => (exec_loads_of_error (checkedPatterns_map_of_invalid EventSpec.mask h) s).1 es rfl,
        fun hv hd => (exec_loads_of_error (checkedPatterns_map_of_not_disjointRanges EventSpec.mask hv hd) s).1 es rfl⟩,
    fun s cs =>
      ⟨fun h => (exec_loads_of_error (checkedPatterns_map_of_invalid CommandSpec.mask h) s).2 cs rfl,
        fun hv hd =>
          (exec_loads_of_error (checkedPatterns_map_of_not_disjointRanges CommandSpec.mask hv hd) s).2 cs rfl⟩,
    fun _ ws _ c hp hc =>
      ⟨_, responseStatus_errorFrame (echoedOp ws) (.illegalRequest c), step_of_illegal hp hc⟩⟩

/-! ### The invariants (10_state R18, R20, R22) -/

/-- Settles O12: every table is empty. -/
theorem resetIsGood : Obligations.ResetIsGood := by
  have hgood : ∀ cfg : Params, State.Good { State.reset with cfg := cfg } := fun cfg =>
    ⟨⟨Nat.zero_le _, fun e he => absurd he List.not_mem_nil, rfl⟩,
      ⟨Nat.zero_le _, fun c hc => absurd hc List.not_mem_nil, rfl, List.nodup_nil⟩,
      ⟨fun n hn => absurd rfl hn, rfl⟩⟩
  exact ⟨hgood Params.suggested, hgood⟩

section
variable {s t : State}

theorem EventCatalogGood.congr (h : EventCatalogGood s) (hcfg : t.cfg = s.cfg) (hev : t.ev = s.ev) :
    EventCatalogGood t := by
  obtain ⟨within, derived, noOverlap⟩ := h
  refine ⟨?_, hev ▸ derived, hev ▸ noOverlap⟩
  rwa [State.evCount, hev, hcfg]

theorem CommandCatalogGood.congr (h : CommandCatalogGood s) (hcfg : t.cfg = s.cfg) (hcmd : t.cmd = s.cmd) :
    CommandCatalogGood t := by
  obtain ⟨within, derived, noOverlap, uniqueNames⟩ := h
  refine ⟨?_, hcmd ▸ derived, hcmd ▸ noOverlap, hcmd ▸ uniqueNames⟩
  rwa [State.cmdCount, hcmd, hcfg]

theorem RegistryGood.congr (h : RegistryGood s) (hev : t.ev = s.ev) (hhreg : t.hreg = s.hreg) : RegistryGood t := by
  obtain ⟨registered, canonical⟩ := h
  refine ⟨fun n hn => ?_, hhreg ▸ canonical⟩
  rw [eventNamed_congr hev]
  exact registered n (hhreg ▸ hn)

/-- The empty registry is good over every catalog. -/
theorem registryGood_of_hreg_nil (h : t.hreg = []) : RegistryGood t :=
  ⟨fun n hn => absurd (by rw [h]; rfl) hn, by rw [h]; rfl⟩

/-- The invariants read the capacities, the catalogs and the registry alone. -/
theorem State.Good.congr (h : s.Good) (hcfg : t.cfg = s.cfg) (hev : t.ev = s.ev) (hcmd : t.cmd = s.cmd)
    (hhreg : t.hreg = s.hreg) : t.Good :=
  ⟨h.events.congr hcfg hev, h.commands.congr hcfg hcmd, h.registry.congr hev hhreg⟩

end

/-- A pattern of a validated list is the pattern of its own mask. -/
theorem construct_mask_of_mem {ms : List MaskWord} {ps : List Pattern} (hc : ms.map construct = ps.map some)
    {p : Pattern} (hp : p ∈ ps) : construct p.mask = some p := by
  obtain ⟨i, hi⟩ := List.mem_iff_getElem?.1 hp
  obtain ⟨m, hm⟩ := construct_of_getElem? hc hi
  rwa [construct_mask hm]

theorem eventEntries_length (es : List EventSpec) {ps : List Pattern} (h : ps.length = es.length) :
    (eventEntries es ps).length = es.length := by
  rw [eventEntries, List.length_zipWith, h, Nat.min_self]

theorem commandEntries_length (cs : List CommandSpec) {ps : List Pattern} (h : ps.length = cs.length) :
    (commandEntries cs ps).length = cs.length := by
  rw [commandEntries, List.length_zipWith, h, Nat.min_self]

/-- The entries of a load carry the validated patterns in order. -/
theorem eventEntries_map_pat (es : List EventSpec) {ps : List Pattern} (h : ps.length = es.length) :
    (eventEntries es ps).map EventEntry.pat = ps := by
  rw [eventEntries, List.map_zipWith, ← List.map_uncurry_zip_eq_zipWith]
  exact List.map_snd_zip h.le

theorem commandEntries_map_pat (cs : List CommandSpec) {ps : List Pattern} (h : ps.length = cs.length) :
    (commandEntries cs ps).map CommandEntry.pat = ps := by
  rw [commandEntries, List.map_zipWith, ← List.map_uncurry_zip_eq_zipWith]
  exact List.map_snd_zip h.le

/-- The entries of a LOAD_COMMANDS have the names of the request in order. -/
theorem commandEntries_map_name (cs : List CommandSpec) {ps : List Pattern} (h : ps.length = cs.length) :
    (commandEntries cs ps).map CommandEntry.name = cs.map CommandSpec.name := by
  rw [commandEntries, List.map_zipWith, ← List.map_uncurry_zip_eq_zipWith]
  calc (cs.zip ps).map (CommandSpec.name ∘ Prod.fst) = ((cs.zip ps).map Prod.fst).map CommandSpec.name :=
        List.map_map.symm
    _ = cs.map CommandSpec.name := by rw [List.map_fst_zip h.ge]

/-- A validated load within the capacity makes a good event catalog (10_state R18). -/
theorem eventCatalogGood_installEvents {es : List EventSpec} {ps : List Pattern}
    (hc : checkedPatterns (es.map EventSpec.mask) = .ok ps) {s : State} (hcap : es.length ≤ s.cfg.nEv.toNat) :
    EventCatalogGood (installEvents (eventEntries es ps) s) := by
  obtain ⟨hconstruct, hpass⟩ := (checkedPatterns_ok_iff _ ps).1 hc
  have hlen : ps.length = es.length := (checkedPatterns_length hc).trans (List.length_map _)
  have hpats : (eventEntries es ps).map EventEntry.pat = ps := eventEntries_map_pat es hlen
  refine ⟨(eventEntries_length es hlen).trans_le hcap, fun e he => ?_, (congrArg overlapError hpats).trans hpass⟩
  exact construct_mask_of_mem hconstruct (hpats ▸ List.mem_map_of_mem he)

/-- A validated load within the capacity, no name repeated, makes a good command catalog (10_state R20). -/
theorem commandCatalogGood_installCommands {cs : List CommandSpec} {ps : List Pattern}
    (hc : checkedPatterns (cs.map CommandSpec.mask) = .ok ps) {s : State} (hcap : cs.length ≤ s.cfg.nCmd.toNat)
    (hnames : (cs.map CommandSpec.name).Nodup) :
    CommandCatalogGood (installCommands (commandEntries cs ps) s) := by
  obtain ⟨hconstruct, hpass⟩ := (checkedPatterns_ok_iff _ ps).1 hc
  have hlen : ps.length = cs.length := (checkedPatterns_length hc).trans (List.length_map _)
  have hpats : (commandEntries cs ps).map CommandEntry.pat = ps := commandEntries_map_pat cs hlen
  refine ⟨(commandEntries_length cs hlen).trans_le hcap, fun c hmem => ?_, (congrArg overlapError hpats).trans hpass,
    (commandEntries_map_name cs hlen).symm ▸ hnames⟩
  exact construct_mask_of_mem hconstruct (hpats ▸ List.mem_map_of_mem hmem)

/-- A write under a known name keeps the registry good (10_state R22). -/
theorem registryGood_setSlot {s : State} (h : RegistryGood s) {n : NameId} (hn : eventNamed s n = true) (k : Token) :
    RegistryGood (setSlot n k s) := by
  refine ⟨fun n' hread => ?_, hregSorted_hregWrite n k h.canonical⟩
  by_cases heq : n' = n
  · exact heq ▸ hn
  · rw [setSlot_hreg, hregRead_hregWrite_other s.hreg n n' k heq] at hread
    exact h.registered n' hread

/-- What a well-formed instruction writes into a good state leaves it good. -/
theorem Written.good {s u : State} {i : Instr} (h : Written s i u) (hs : s.Good) (hwf : i.wellFormed s.cfg = true) :
    u.Good := by
  cases h with
  | loadEvents hc =>
    exact ⟨eventCatalogGood_installEvents hc (of_decide_eq_true hwf), hs.commands.congr rfl rfl,
      registryGood_of_hreg_nil rfl⟩
  | loadCommands hc =>
    obtain ⟨hcap, hnames⟩ := (Bool.and_eq_true _ _).mp hwf
    exact ⟨hs.events.congr rfl rfl,
      commandCatalogGood_installCommands hc (of_decide_eq_true hcap) (of_decide_eq_true hnames),
      hs.registry.congr rfl rfl⟩
  | setHandler hn =>
    exact ⟨hs.events.congr rfl rfl, hs.commands.congr rfl rfl, registryGood_setSlot hs.registry hn _⟩
  | setDefaultHandler => exact hs.congr rfl rfl rfl rfl
  | nothing => exact hs

/-- A well-formed operation takes a good state to a good state. -/
theorem good_of_operation {i : Instr} (hi : isOperation i = true) {s t : State} (hs : s.Good)
    (hwf : i.wellFormed s.cfg = true) (h : exec i s = .next t) : t.Good := by
  rcases answer_of_exec hi h with status | ⟨written, before⟩
  · exact hs.congr rfl rfl rfl rfl
  · exact (written.good hs hwf).congr rfl rfl rfl rfl

theorem good_of_decode {b : Byte} {s t : State} (hs : s.Good) (h : exec (.decode b) s = .next t) : t.Good :=
  good_of_operation (i := .decode b) rfl hs rfl h

theorem good_of_encodeSend {n : NameId} {a : Arg} {s t : State} (hs : s.Good)
    (h : exec (.encodeSend n [a]) s = .next t) : t.Good :=
  good_of_operation (i := .encodeSend n [a]) rfl hs rfl h

/-- A well-formed instruction takes a good state to a good state: a wire row writes no state at all. -/
theorem good_of_exec {i : Instr} {s t : State} (hs : s.Good) (hwf : i.wellFormed s.cfg = true)
    (h : exec i s = .next t) : t.Good := by
  by_cases hi : isOperation i = true
  · exact good_of_operation hi hs hwf h
  cases i <;> simp [isOperation] at hi
  case wireEventLight p => exact good_of_decode hs h
  case wireEventKnob p => exact good_of_decode hs h
  case wireEventTemperature p => exact good_of_decode hs h
  case wireCommandServo p => exact good_of_encodeSend hs h
  case wireCommandLed p => exact good_of_encodeSend hs h
  case wireCommandRgb p => exact good_of_encodeSend hs h
  case wireCommandSubscribe p => exact good_of_encodeSend hs h
  case wireCommandQuery p => exact good_of_encodeSend hs h

theorem wellFormed_decodeRx (cfg : Params) (b : Byte) : (decodeRx b).wellFormed cfg = true := by
  unfold decodeRx
  split_ifs <;> rfl

theorem wellFormed_of_decodeTx {cfg : Params} {b : Byte} {i : Instr} (h : decodeTx b = some i) :
    i.wellFormed cfg = true := by
  unfold decodeTx at h
  split_ifs at h <;> obtain rfl := Option.some.inj h <;> rfl

/-- Whatever an input decodes to is well formed for the capacities (30_encoding R61). -/
theorem wellFormed_of_decodeInput {cfg : Params} {input : Input} {i : Instr} (h : decodeInput cfg input = .instr i) :
    i.wellFormed cfg = true := by
  cases input with
  | frame ws =>
    cases hd : decodeFrame cfg ws with
    | error c => simp [decodeInput, hd] at h
    | ok j =>
      simp only [decodeInput, hd, Decoded.instr.injEq] at h
      exact h ▸ (acceptedFrameIsEncoding cfg ws j hd).2
  | rst => cases h
  | rx b =>
    obtain rfl := Decoded.instr.inj h
    exact wellFormed_decodeRx cfg b
  | tx b =>
    cases hd : decodeTx b with
    | none => simp [decodeInput, hd] at h
    | some j =>
      simp only [decodeInput, hd, Decoded.instr.injEq] at h
      exact h ▸ wellFormed_of_decodeTx hd

/-- Settles O13: the decoder gives well-formed instructions alone, a refused frame writes nothing, and a reset empties
every table. -/
theorem stepKeepsGood : Obligations.StepKeepsGood := by
  intro s t hs h
  cases hp : s.pending with
  | nil =>
    obtain rfl := Host.Outcome.next.inj ((step_of_pending_nil hp).symm.trans h)
    exact hs
  | cons input rest =>
    have htaken : State.Good { s with pending := rest } := hs.congr rfl rfl rfl rfl
    rcases step_cases hp h with ⟨i, hi, hexec⟩ | ⟨op, c, rfl⟩ | rfl
    · exact good_of_exec htaken (wellFormed_of_decodeInput hi) hexec
    · exact hs.congr rfl rfl rfl rfl
    · exact (resetIsGood.2 s.cfg).congr rfl rfl rfl rfl

/-! ### Reachable states (10_state R18, R20; 40_bitpattern R88; 43_dispatcher R129) -/

/-- What every step of a machine keeps holds after every run. -/
theorem invariant_of_run {M : Host.Core} {P : M.State → Prop}
    (hstep : ∀ s t, P s → M.step s = .next t → P t) {k : Nat} {s t : M.State} (hs : P s) (h : M.run k s = .next t) :
    P t := by
  induction k generalizing s with
  | zero =>
    obtain rfl := Host.Outcome.next.inj h
    exact hs
  | succ k ih =>
    unfold Host.Core.run at h
    split at h
    · rename_i u hu
      exact ih (hstep s u hs hu) h
    · cases h
    · cases h

/-- In a list of entries that passes the check, two entries that claim a byte are one (`pat` is the entry's pattern). -/
theorem index_eq_of_common_byte {α : Type} (pat : α → Pattern) {l : List α}
    (hderived : ∀ e ∈ l, construct (pat e).mask = some (pat e)) (hpass : overlapError (l.map pat) = none) {b : Byte}
    {i j : Nat} {e e' : α} (hi : l[i]? = some e) (hj : l[j]? = some e') (he : (pat e).low ≤ b ∧ b ≤ (pat e).high)
    (he' : (pat e').low ≤ b ∧ b ≤ (pat e').high) : i = j := by
  have hconstruct : (l.map fun e => (pat e).mask).map construct = (l.map pat).map some := by
    rw [List.map_map, List.map_map]
    exact List.map_congr_left hderived
  exact passingListClaimsEachByteOnce _ _ hconstruct hpass b i j _ _ (by rw [List.getElem?_map, hi]; rfl)
    (by rw [List.getElem?_map, hj]; rfl) he he'

/-- In a list without repeated names, two entries of one name are one. -/
theorem index_eq_of_name_eq {l : List CommandEntry} (hnodup : (l.map CommandEntry.name).Nodup) {i j : Nat}
    {c c' : CommandEntry} (hi : l[i]? = some c) (hj : l[j]? = some c') (hname : c.name = c'.name) : i = j := by
  obtain ⟨hlt, -⟩ := List.getElem?_eq_some_iff.1 hi
  refine (List.getElem?_inj ((List.length_map CommandEntry.name).symm ▸ hlt) hnodup).1 ?_
  rw [List.getElem?_map, List.getElem?_map, hi, hj]
  exact congrArg some hname

/-- Settles O14: every reachable state is good. -/
theorem reachableCatalogMatchesOnce : Obligations.ReachableCatalogMatchesOnce := by
  intro cfg inputs k t h
  have hstart : State.Good { State.reset with cfg := cfg, pending := inputs } :=
    (resetIsGood.2 cfg).congr rfl rfl rfl rfl
  have hgood : t.Good := invariant_of_run (M := Sys2Proof.core) (P := State.Good) stepKeepsGood hstart h
  exact ⟨fun b i j e e' hi hj =>
      index_eq_of_common_byte EventEntry.pat hgood.events.derived hgood.events.noOverlap hi hj,
    fun b i j c c' hi hj =>
      index_eq_of_common_byte CommandEntry.pat hgood.commands.derived hgood.commands.noOverlap hi hj,
    fun i j c c' hi hj => index_eq_of_name_eq hgood.commands.uniqueNames hi hj⟩

/-! ### Reset (10_state R26; 70_reset_and_hazards R163) -/

/-- Settles O1: no entry of an empty catalog claims the byte or has the name. -/
theorem resetLeavesEveryTableEmpty : Obligations.ResetLeavesEveryTableEmpty :=
  ⟨rfl, rfl, rfl, rfl, fun _ => rfl, rfl,
    fun b => decodeReportsUnclaimedByte State.reset b fun _ he => absurd he List.not_mem_nil,
    fun n t => setHandlerWritesOneSlot.2 State.reset n t fun _ he => absurd he List.not_mem_nil,
    fun n args => encodeSendStagesInOrder.1 State.reset n args fun _ hc => absurd hc List.not_mem_nil⟩

/-- No write clears a default handler that is set. -/
theorem Written.defH_ne_none {s u : State} {i : Instr} (h : Written s i u) (hs : s.defH ≠ none) : u.defH ≠ none := by
  cases h with
  | loadEvents _ => exact hs
  | loadCommands _ => exact hs
  | setHandler _ => exact hs
  | setDefaultHandler => exact Option.some_ne_none _
  | nothing => exact hs

/-- Settles O2: a reset event is the reset of the tables, no operation writes `none` into the default handler, and a
load of no entries installs the empty catalog. -/
theorem resetEventEmptiesState : Obligations.ResetEventEmptiesState := by
  refine ⟨fun s rest hp => step_of_rst hp, fun i s t h hdef => ?_, fun s => ?_⟩
  · obtain ⟨j, hj, hsame⟩ := exists_operation i
    rw [hsame] at h
    rcases answer_of_exec hj h with status | ⟨written, before⟩
    · exact hdef
    · exact written.defH_ne_none hdef
  · have hempty : checkedPatterns [] = .ok [] := rfl
    exact ⟨_, _, execLoadEvents_of_ok (es := []) hempty s, execLoadCommands_of_ok (cs := []) hempty _, rfl, rfl, rfl,
      rfl⟩

end Sys2Proof.Machine
end

section
/-! PROOFS. Family other, the transforms of a command entry (42_codecs R107) and the wire rows of the default catalog in
a state that holds their entries (30_encoding R45, assumption logs 3 and 4). -/

namespace Sys2Proof.Machine

/-! ### The encode transforms (42_codecs R107) -/

/-- IDENTITY takes one argument, and refuses any other number of them. -/
theorem encodeTransform_identity_of_length {args : List Arg} (h : args.length ≠ 1) :
    encodeTransform .identity args = .error (.codecArg 1) := by
  match args, h with
  | [], _ => rfl
  | [_], h => exact absurd rfl h
  | _ :: _ :: _, _ => rfl

/-- A value of ENC_RGB is a palette value or three packed channels: at most 21 bits. -/
theorem encodeRgb_lt {args : List Arg} {v : Nat} (h : encodeRgb args = .ok v) : v < 2 ^ 21 := by
  by_cases h1 : args.length = 1
  · obtain ⟨a, rfl⟩ := List.length_eq_one_iff.1 h1
    by_cases ha : a.toNat ≤ 7
    · obtain ⟨x, hx, hle⟩ := exists_paletteValue_of_le ha
      obtain rfl := Except.ok.inj ((encodeRgb_palette hx).symm.trans h)
      omega
    · cases (encodeRgb_unknownPalette (Nat.lt_of_not_le ha)).symm.trans h
  · by_cases h3 : args.length = 3
    · obtain ⟨r, g, b, rfl⟩ := List.length_eq_three.1 h3
      obtain rfl := Except.ok.inj ((encodeRgb_channels r g b).symm.trans h)
      exact channels_lt r g b
    · cases (encodeRgb_of_length h1 h3).symm.trans h

/-- A response of an error that has no second word. -/
theorem errorFrame_of_secondWord_none {e : OpError} (h : errorSecondWord e = none) (op : BitVec 4) :
    errorFrame op e = [responseWord op (errorStatus e) (errorInfo e)] := by
  rw [errorFrame, h]
  rfl

/-- Settles O45: SERVICES and RGB are the functions that ENC_SERVICES and ENC_RGB answer with. -/
theorem encodeTransformsAsTheTableSays : Obligations.EncodeTransformsAsTheTableSays := by
  refine ⟨fun _ => rfl, fun _ h => encodeTransform_identity_of_length h,
    fun s _ _ h => ⟨servicesFrom_le (Nat.zero_le 63) h, execEncServices_of_ok h s⟩, fun s args e h => ?_,
    fun s _ _ h => ⟨encodeRgb_lt h, execEncRgb_of_ok h s⟩, fun s args e h => ?_⟩
  · obtain ⟨hstatus, hsecond⟩ := encodeServices_error h
    have hexec := execEncServices_of_error h s
    rw [raise_eq, errorFrame_of_secondWord_none hsecond, hstatus] at hexec
    exact ⟨hstatus, hexec⟩
  · obtain ⟨hstatus, hsecond⟩ := encodeRgb_error h
    have hexec := execEncRgb_of_error h s
    rw [raise_eq, errorFrame_of_secondWord_none hsecond, hstatus] at hexec
    exact ⟨hstatus, hexec⟩

/-! ### The event rows -/

/-- In a good state an entry that claims a byte is the one that DECODE dispatches: no other claims the byte. With a
specific handler for the entry's name the record carries the transformed payload. -/
theorem exec_decode_of_good {s : State} (hs : s.Good) {i : Nat} {e : EventEntry} (hi : s.ev[i]? = some e) {b raw : Byte}
    (hb : inRange e.pat b = true) (hraw : b - e.pat.low = raw) {t : Token} (ht : hregRead s.hreg e.name = some t) :
    exec (.decode b) s = .next { s with trace := s.trace ++
      [.dispatch (1#2 ++ (transformedBits e.xf raw ++ t)) 0,
        .rsp [0xB#4 ++ (0#4 ++ (e.name ++ (BitVec.ofNat 8 i ++ raw))), 1#2 ++ (transformedBits e.xf raw ++ t)]] } := by
  subst hraw
  have hclaims := (inRange_iff e.pat b).1 hb
  have hderived := hs.events.derived e (List.mem_of_getElem? hi)
  refine (decodeDispatchesFirstMatch s b i e hi hderived hclaims fun j e' hji hj hclaims' => ?_).1 t ht
  have hji' : j = i :=
    index_eq_of_common_byte EventEntry.pat hs.events.derived hs.events.noOverlap hj hi hclaims' hclaims
  exact absurd hji' hji.ne

/-- The bytes of each event row are those its mask claims, and their payload is the row's. -/
theorem light_payload (p : BitVec 6) : inRange (patternOf 0x3F00) (0b00#2 ++ p) = true ∧
    (0b00#2 ++ p : Byte) - (patternOf 0x3F00).low = 0#2 ++ p := by
  revert p
  decide

theorem knob_payload (p : BitVec 6) : inRange (patternOf 0x3F40) (0b01#2 ++ p) = true ∧
    (0b01#2 ++ p : Byte) - (patternOf 0x3F40).low = 0#2 ++ p := by
  revert p
  decide

theorem temperature_payload (p : BitVec 6) : inRange (patternOf 0x3F80) (0b10#2 ++ p) = true ∧
    (0b10#2 ++ p : Byte) - (patternOf 0x3F80).low = 0#2 ++ p := by
  revert p
  decide

/-- Settles O46, row by row. -/
theorem wireEventReachesItsHandler : Obligations.WireEventReachesItsHandler := by
  refine ⟨fun s p i e t hs hi hn hp hx ht => ?_, fun s p i e t hs hi hn hp hx ht => ?_,
    fun s p i e t hs hi hn hp hx ht => ?_⟩
  · obtain ⟨hb, hraw⟩ := light_payload p
    have hexec := exec_decode_of_good hs hi (hp ▸ hb) (hp ▸ hraw) (hn ▸ ht)
    rwa [hn, hx] at hexec
  · obtain ⟨hb, hraw⟩ := knob_payload p
    have hexec := exec_decode_of_good hs hi (hp ▸ hb) (hp ▸ hraw) (hn ▸ ht)
    rwa [hn, hx] at hexec
  · obtain ⟨hb, hraw⟩ := temperature_payload p
    have hexec := exec_decode_of_good hs hi (hp ▸ hb) (hp ▸ hraw) (hn ▸ ht)
    rwa [hn, hx] at hexec

/-! ### The command rows -/

/-- A command entry with the pattern of a valid mask and the IDENTITY transform: an argument that fits is sent as the
low end plus the argument. -/
theorem exec_encodeSend_identity {s : State} (hnodup : (s.cmd.map CommandEntry.name).Nodup) {c : CommandEntry}
    (hc : c ∈ s.cmd) {n : NameId} (hn : c.name = n) {m : MaskWord} (hm : ValidMask m) (hp : c.pat = patternOf m)
    (hx : c.xf = .identity) {a : Arg} {b : Byte}
    (ha : a.toNat < 2 ^ (patternOf m).mb ∧ (patternOf m).low + BitVec.ofNat 8 a.toNat = b) :
    exec (.encodeSend n [a]) s = .next { s with trace := s.trace ++
      [.tx b, .rsp [0xC#4 ++ (0#4 ++ (0#16 ++ b))]] } := by
  obtain ⟨hlt, rfl⟩ := ha
  subst hn
  have hconstruct : construct c.pat.mask = some c.pat := by
    rw [hp]
    exact construct_eq_patternOf hm
  have htransform : encodeTransform c.xf [a] = .ok a.toNat := by
    rw [hx]
    rfl
  rw [← hp] at hlt ⊢
  obtain ⟨-, -, hfits⟩ := encodeSendStagesInOrder.2 s c [a] hnodup hc hconstruct
  exact hfits a.toNat htransform hlt

/-- The payload of each command row fits its mask, and makes the row's byte. -/
theorem servo_byte (p : BitVec 5) : (p.setWidth 16).toNat < 2 ^ (patternOf 0x1F00).mb ∧
    (patternOf 0x1F00).low + BitVec.ofNat 8 (p.setWidth 16).toNat = 0b000#3 ++ p := by
  revert p
  decide

theorem led_byte (p : BitVec 1) : (p.setWidth 16).toNat < 2 ^ (patternOf 0x0120).mb ∧
    (patternOf 0x0120).low + BitVec.ofNat 8 (p.setWidth 16).toNat = 0b0010000#7 ++ p := by
  revert p
  decide

theorem rgb_byte (p : BitVec 6) : (p.setWidth 16).toNat < 2 ^ (patternOf 0x3F40).mb ∧
    (patternOf 0x3F40).low + BitVec.ofNat 8 (p.setWidth 16).toNat = 0b01#2 ++ p := by
  revert p
  decide

theorem subscribe_byte (p : BitVec 6) : (p.setWidth 16).toNat < 2 ^ (patternOf 0x3F80).mb ∧
    (patternOf 0x3F80).low + BitVec.ofNat 8 (p.setWidth 16).toNat = 0b10#2 ++ p := by
  revert p
  decide

theorem query_byte (p : BitVec 6) : (p.setWidth 16).toNat < 2 ^ (patternOf 0x3FC0).mb ∧
    (patternOf 0x3FC0).low + BitVec.ofNat 8 (p.setWidth 16).toNat = 0b11#2 ++ p := by
  revert p
  decide

/-- The masks of the command rows are valid (30_encoding R47). -/
theorem validMask_servo : ValidMask 0x1F00 := ⟨by decide, 5, by decide, by decide⟩
theorem validMask_led : ValidMask 0x0120 := ⟨by decide, 1, by decide, by decide⟩
theorem validMask_rgb : ValidMask 0x3F40 := ⟨by decide, 6, by decide, by decide⟩
theorem validMask_subscribe : ValidMask 0x3F80 := ⟨by decide, 6, by decide, by decide⟩
theorem validMask_query : ValidMask 0x3FC0 := ⟨by decide, 6, by decide, by decide⟩

/-- Settles O47, row by row. -/
theorem wireCommandSendsItsByte : Obligations.WireCommandSendsItsByte :=
  ⟨fun _ p _ hnodup hc hn hp hx => exec_encodeSend_identity hnodup hc hn validMask_servo hp hx (servo_byte p),
    fun _ p _ hnodup hc hn hp hx => exec_encodeSend_identity hnodup hc hn validMask_led hp hx (led_byte p),
    fun _ p _ hnodup hc hn hp hx => exec_encodeSend_identity hnodup hc hn validMask_rgb hp hx (rgb_byte p),
    fun _ p _ hnodup hc hn hp hx => exec_encodeSend_identity hnodup hc hn validMask_subscribe hp hx (subscribe_byte p),
    fun _ p _ hnodup hc hn hp hx => exec_encodeSend_identity hnodup hc hn validMask_query hp hx (query_byte p)⟩

end Sys2Proof.Machine
end

section
/-! PROOFS. Family other, the assembler (30_encoding R74): the word of a mask text (R46, 00_scope R11), the frame of a
line for each mnemonic, and the lines and frames that the spec prints. -/

namespace Sys2Proof.Machine

/-! ### Mask texts (30_encoding R46, R74) -/

/-- The alphabet of a mask text (00_scope R11). -/
theorem symbolOfChar_eq_none_iff (c : Char) : symbolOfChar c = none ↔ c ≠ '0' ∧ c ≠ '1' ∧ c ≠ '_' := by
  unfold symbolOfChar
  split_ifs <;> simp_all

/-- A text is rejected for its length or for a character. -/
theorem maskOfText_eq_none_iff (cs : List Char) :
    maskOfText cs = none ↔ cs.length ≠ 8 ∨ ∃ c ∈ cs, c ≠ '0' ∧ c ≠ '1' ∧ c ≠ '_' := by
  simp only [← symbolOfChar_eq_none_iff, ← convertAll_eq_none_iff, maskOfText]
  by_cases hlen : cs.length = 8
  · cases hsyms : convertAll symbolOfChar cs <;> simp [hlen]
  · simp [hlen]

/-- A digit appended is the new lowest bit. -/
theorem numberOfBits_concat (bits : List Bool) (b : Bool) :
    numberOfBits (bits ++ [b]) = Nat.bit b (numberOfBits bits) := by
  rw [Nat.bit_val, numberOfBits, List.foldl_append]
  rfl

/-- The bits of the number are the digits, the last one lowest. -/
theorem testBit_numberOfBits (bits : List Bool) (i : Nat) :
    (numberOfBits bits).testBit i = (bits.reverse[i]?).getD false := by
  induction bits using List.reverseRecOn generalizing i with
  | nil => simp [numberOfBits]
  | append_singleton bits b ih =>
    rw [numberOfBits_concat, List.reverse_append]
    cases i with
    | zero => simp
    | succ i => simp [Nat.testBit_bit_succ, ih]

theorem numberOfBits_lt (bits : List Bool) : numberOfBits bits < 2 ^ bits.length := by
  induction bits using List.reverseRecOn with
  | nil => simp [numberOfBits]
  | append_singleton bits b ih =>
    rw [numberOfBits_concat, Nat.bit_val, List.length_append, List.length_singleton, Nat.pow_succ]
    have := b.toNat_le
    omega

/-- Digit `j` of eight is bit `7 - j`. -/
theorem testBit_numberOfBits_of_getElem? {bits : List Bool} (hlen : bits.length = 8) {j : Nat} {b : Bool}
    (hj : bits[j]? = some b) : (numberOfBits bits).testBit (7 - j) = b := by
  obtain ⟨hlt, -⟩ := List.getElem?_eq_some_iff.1 hj
  have hindex : bits.length - 1 - (7 - j) = j := by omega
  rw [testBit_numberOfBits, List.getElem?_reverse (by omega), hindex, hj]
  rfl

/-- The bits of a word written as a high and a low byte. -/
theorem getLsbD_ofNat_twoBytes {high low i : Nat} (hlow : low < 2 ^ 8) (hi : i < 8) :
    (BitVec.ofNat 16 (256 * high + low)).getLsbD (8 + i) = high.testBit i ∧
      (BitVec.ofNat 16 (256 * high + low)).getLsbD i = low.testBit i := by
  have hbit : ∀ j, (256 * high + low).testBit j = if j < 8 then low.testBit j else high.testBit (j - 8) :=
    Nat.testBit_two_pow_mul_add high hlow
  have hhigh : ¬8 + i < 8 := by omega
  constructor
  · rw [BitVec.getLsbD_ofNat, hbit, if_neg hhigh, Nat.add_sub_cancel_left, decide_eq_true (by omega), Bool.true_and]
  · rw [BitVec.getLsbD_ofNat, hbit, if_pos hi, decide_eq_true (by omega), Bool.true_and]

/-- Symbol `7 - j` of the word is the symbol of character `j`. -/
theorem symbolOfChar_of_maskOfText {cs : List Char} {m : MaskWord} (h : maskOfText cs = some m) {j : Nat} {c : Char}
    (hj : cs[j]? = some c) : symbolOfChar c = some (m.getLsbD (15 - j), m.getLsbD (7 - j)) := by
  unfold maskOfText at h
  split_ifs at h with hlen
  have hlen' : cs.length = 8 := not_not.1 hlen
  cases hsyms : convertAll symbolOfChar cs with
  | none => simp [hsyms] at h
  | some syms =>
    simp only [hsyms, Option.some.injEq] at h
    have hall := (convertAll_eq_some_iff symbolOfChar cs syms).1 hsyms
    have hsymsLen : syms.length = 8 := hall.length_eq.symm.trans hlen'
    obtain ⟨hlt, rfl⟩ := List.getElem?_eq_some_iff.1 hj
    have hj8 : j < 8 := hlen' ▸ hlt
    have hsym : symbolOfChar cs[j] = some syms[j] := hall.get hlt (by omega)
    have hget : syms[j]? = some syms[j] := List.getElem?_eq_getElem (by omega)
    have hlow : numberOfBits (syms.map Prod.snd) < 2 ^ 8 := by
      simpa [hsymsLen] using numberOfBits_lt (syms.map Prod.snd)
    obtain ⟨hw, hv⟩ := getLsbD_ofNat_twoBytes (high := numberOfBits (syms.map Prod.fst)) hlow (i := 7 - j) (by omega)
    rw [testBit_numberOfBits_of_getElem? (b := syms[j].1) (by simp [hsymsLen]) (by simp [hget])] at hw
    rw [testBit_numberOfBits_of_getElem? (b := syms[j].2) (by simp [hsymsLen]) (by simp [hget])] at hv
    rw [hsym, ← h, show 15 - j = 8 + (7 - j) by omega, hw, hv]

/-- The character of a symbol `(W, V)` of a valid mask. -/
def charOfSymbol (symbol : Bool × Bool) : Char :=
  if symbol.1 then '_' else if symbol.2 then '1' else '0'

/-- The text of a mask word, high bit first. -/
def textOfMask (m : MaskWord) : List Char := (List.range 8).map fun j => charOfSymbol (symbolAt m (7 - j))

/-- Every symbol but `(1, 1)` is read back from its character. -/
theorem symbolOfChar_charOfSymbol {symbol : Bool × Bool} (h : symbol ≠ (true, true)) :
    symbolOfChar (charOfSymbol symbol) = some symbol := by
  revert symbol
  decide

/-- A valid mask has no symbol `(1, 1)` (30_encoding R47). -/
theorem symbolAt_ne_of_validMask {m : MaskWord} (h : ValidMask m) (i : Nat) : symbolAt m i ≠ (true, true) := by
  intro hsym
  have hbit := congrArg (fun x : Byte => x.getLsbD i) h.1
  obtain ⟨hw, hv⟩ := Prod.mk.inj hsym
  simp [hw, hv] at hbit

theorem textOfMask_getElem? (m : MaskWord) {j : Nat} (hj : j < 8) :
    (textOfMask m)[j]? = some (charOfSymbol (symbolAt m (7 - j))) := by
  simp [textOfMask, hj]

/-- A valid mask word is the word of its text: the text is accepted, and each symbol is read back. -/
theorem maskOfText_textOfMask {m : MaskWord} (h : ValidMask m) : maskOfText (textOfMask m) = some m := by
  cases hword : maskOfText (textOfMask m) with
  | none =>
    rcases (maskOfText_eq_none_iff _).1 hword with hlen | ⟨c, hc, hbad⟩
    · exact absurd (by simp [textOfMask]) hlen
    · obtain ⟨j, -, rfl⟩ := List.mem_map.1 hc
      have hread := symbolOfChar_charOfSymbol (symbolAt_ne_of_validMask h (7 - j))
      simp [(symbolOfChar_eq_none_iff _).2 hbad] at hread
  | some m' =>
    have hsym : ∀ i, i < 8 → (m'.getLsbD (8 + i), m'.getLsbD i) = symbolAt m i := fun i hi => by
      have hj := textOfMask_getElem? m (j := 7 - i) (by omega)
      rw [show 7 - (7 - i) = i by omega] at hj
      have hread := symbolOfChar_of_maskOfText hword hj
      rw [symbolOfChar_charOfSymbol (symbolAt_ne_of_validMask h i), show 15 - (7 - i) = 8 + i by omega,
        show 7 - (7 - i) = i by omega] at hread
      exact (Option.some.inj hread).symm
    have hbytes : wildcardFlags m' = wildcardFlags m ∧ valueBits m' = valueBits m := by
      constructor <;> refine BitVec.eq_of_getLsbD_eq fun i hi => ?_
      · simpa [symbolAt, wildcardFlags, hi] using congrArg Prod.fst (hsym i hi)
      · simpa [symbolAt, valueBits, hi] using congrArg Prod.snd (hsym i hi)
    rw [mask_eq_append m', mask_eq_append m, hbytes.1, hbytes.2]

/-- Settles O49: the symbols of a word are those of its text, character by character. -/
theorem maskTextHasEightSymbols : Obligations.MaskTextHasEightSymbols := by
  refine ⟨maskOfText_eq_none_iff, fun cs m h j c hj => ?_, fun m hm => ⟨_, maskOfText_textOfMask hm⟩⟩
  have hsym := symbolOfChar_of_maskOfText h hj
  refine ⟨?_, ?_, ?_⟩ <;> rintro rfl <;> exact Prod.mk.inj (Option.some.inj hsym.symm)

/-! ### The frame of a line (30_encoding R74) -/

/-- A line that is a request whose counts fit is the request's frame. -/
theorem assemble_of_lineInstr {line : AsmLine} {i : Instr} {ws : List Word} (hi : lineInstr line = some i)
    (hfit : countsFit i = true) (hencode : encode i = .frame ws) : assemble line = some ws := by
  simp only [assemble, hi, hfit, hencode, if_true]

/-- Settles O50: each operand is what the assembler takes it for, and the encoder writes the format. -/
theorem assembledFixedFrames : Obligations.AssembledFixedFrames := by
  intro x y m m' b v e n t hx hy he
  rw [← asmMask_eq_some_iff] at hx hy
  have hn := asmName_of_eventSpells he
  have hb : fieldOf 8 b.toNat = some b := fieldOf_toNat b
  have hv : fieldOf 32 v.toNat = some v := fieldOf_toNat v
  have ht : fieldOf 16 t.toNat = some t := fieldOf_toNat t
  exact ⟨assemble_of_lineInstr (i := .patConstruct m) (by simp only [lineInstr, hx, Option.map_some]) rfl rfl,
    assemble_of_lineInstr (i := .patMatch m b) (by simp only [lineInstr, hx, hb]) rfl rfl,
    assemble_of_lineInstr (i := .patSubset m m') (by simp only [lineInstr, hx, hy]) rfl rfl,
    assemble_of_lineInstr (i := .extract m b) (by simp only [lineInstr, hx, hb]) rfl rfl,
    assemble_of_lineInstr (i := .translate m v) (by simp only [lineInstr, hx, hv]) rfl rfl,
    assemble_of_lineInstr (i := .setHandler n t) (by simp only [lineInstr, hn, ht]) rfl rfl,
    assemble_of_lineInstr (i := .setDefaultHandler t) (by simp only [lineInstr, ht, Option.map_some]) rfl rfl,
    assemble_of_lineInstr (i := .decode b) (by simp only [lineInstr, hb, Option.map_some]) rfl rfl,
    assemble_of_lineInstr (i := .decTemp b) (by simp only [lineInstr, hb, Option.map_some]) rfl rfl⟩

/-- Elements that each convert to an operand with its word convert to the operands with their words. -/
theorem convertAll_words {α β : Type} {f : α → Option β} {word : β → Word} {R : α → Word → Prop}
    (helem : ∀ x w, R x w → ∃ e, f x = some e ∧ word e = w) {xs : List α} {ws : List Word}
    (h : List.Forall₂ R xs ws) : ∃ es, convertAll f xs = some es ∧ es.length = xs.length ∧ es.map word = ws := by
  induction h with
  | nil => exact ⟨[], rfl, rfl, rfl⟩
  | cons hx _ ih =>
    obtain ⟨e, he, rfl⟩ := helem _ _ hx
    obtain ⟨es, hes, hlen, rfl⟩ := ih
    exact ⟨e :: es, by simp only [convertAll, he, hes], congrArg (· + 1) hlen, rfl⟩

/-- The code of an event entry's transform, identity when left out (30_encoding R74; 42_codecs R106). -/
theorem eventXf_code_of_mem {xf : Option EventXf} {c : BitVec 4}
    (h : (xf, c) ∈ [(none, 0#4), (some EventXf.identity, 0#4), (some .boolean, 1#4), (some .temperature, 2#4)]) :
    (xf.getD .identity).code = c := by
  simp only [List.mem_cons, Prod.mk.injEq, List.not_mem_nil, or_false] at h
  rcases h with ⟨rfl, rfl⟩ | ⟨rfl, rfl⟩ | ⟨rfl, rfl⟩ | ⟨rfl, rfl⟩ <;> rfl

theorem commandXf_code_of_mem {xf : Option CommandXf} {c : BitVec 4}
    (h : (xf, c) ∈ [(none, 0#4), (some CommandXf.identity, 0#4), (some .services, 1#4), (some .rgb, 2#4)]) :
    (xf.getD .identity).code = c := by
  simp only [List.mem_cons, Prod.mk.injEq, List.not_mem_nil, or_false] at h
  rcases h with ⟨rfl, rfl⟩ | ⟨rfl, rfl⟩ | ⟨rfl, rfl⟩ | ⟨rfl, rfl⟩ <;> rfl

/-- The word of an event entry: its name, its transform's code and its mask. -/
theorem asmEvent_word {x : AsmEntry EventName EventXf} {n : NameId} {m : MaskWord} {c : BitVec 4}
    (hn : EventSpells x.name n) (hm : MaskSpells x.mask m)
    (hc : (x.xf, c) ∈ [(none, 0#4), (some EventXf.identity, 0#4), (some .boolean, 1#4), (some .temperature, 2#4)]) :
    ∃ e, asmEvent x = some e ∧ entryWord e.name e.xf.code e.mask = entryWord n c m := by
  refine ⟨⟨n, x.xf.getD .identity, m⟩, ?_, ?_⟩
  · simp only [asmEvent, asmName_of_eventSpells hn, (asmMask_eq_some_iff x.mask m).2 hm]
  · rw [eventXf_code_of_mem hc]

/-- The word of a command entry: its name, its transform's code and its mask. -/
theorem asmCommand_word {x : AsmEntry CommandName CommandXf} {n : NameId} {m : MaskWord} {c : BitVec 4}
    (hn : CommandSpells x.name n) (hm : MaskSpells x.mask m)
    (hc : (x.xf, c) ∈ [(none, 0#4), (some CommandXf.identity, 0#4), (some .services, 1#4), (some .rgb, 2#4)]) :
    ∃ e, asmCommand x = some e ∧ entryWord e.name e.xf.code e.mask = entryWord n c m := by
  refine ⟨⟨n, x.xf.getD .identity, m⟩, ?_, ?_⟩
  · simp only [asmCommand, asmName_of_commandSpells hn, (asmMask_eq_some_iff x.mask m).2 hm]
  · rw [commandXf_code_of_mem hc]

/-- Settles O51, mnemonic by mnemonic: the elements convert one by one, and the encoder writes a word for each. -/
theorem assembledListFrames : Obligations.AssembledListFrames := by
  refine ⟨fun xs ms hlen h => ?_, fun xs ws hlen h => ?_, fun xs ws hlen h => ?_, fun e n args hlen he => ⟨?_, ?_, ?_⟩⟩
  · have hconv : convertAll asmMask xs = some ms :=
      (convertAll_eq_some_iff _ xs ms).2 (h.imp fun x m => (asmMask_eq_some_iff x m).2)
    have hcount : ms.length = xs.length := h.length_eq.symm
    refine assemble_of_lineInstr (i := .checkOverlap ms) (by simp only [lineInstr, hconv, Option.map_some])
      (decide_eq_true (hcount ▸ hlen)) ?_
    rw [← hcount]
    rfl
  · obtain ⟨es, hconv, hcount, rfl⟩ := convertAll_words (f := asmEvent)
      (word := fun e => entryWord e.name e.xf.code e.mask)
      (fun _ _ ⟨_, _, _, hn, hm, hc, hw⟩ => hw ▸ asmEvent_word hn hm hc) h
    refine assemble_of_lineInstr (i := .loadEvents es) (by simp only [lineInstr, hconv, Option.map_some])
      (decide_eq_true (hcount ▸ hlen)) ?_
    rw [← hcount]
    rfl
  · obtain ⟨cs, hconv, hcount, rfl⟩ := convertAll_words (f := asmCommand)
      (word := fun c => entryWord c.name c.xf.code c.mask)
      (fun _ _ ⟨_, _, _, hn, hm, hc, hw⟩ => hw ▸ asmCommand_word hn hm hc) h
    refine assemble_of_lineInstr (i := .loadCommands cs) (by simp only [lineInstr, hconv, Option.map_some])
      (decide_eq_true (hcount ▸ hlen)) ?_
    rw [← hcount]
    rfl
  · have hn := asmName_of_commandSpells he
    exact assemble_of_lineInstr (i := .encodeSend n args) (by simp only [lineInstr, hn, convertAll_fieldOf_toNat])
      (decide_eq_true hlen) rfl
  · exact assemble_of_lineInstr (i := .encServices args)
      (by simp only [lineInstr, convertAll_fieldOf_toNat, Option.map_some]) (decide_eq_true hlen) rfl
  · exact assemble_of_lineInstr (i := .encRgb args)
      (by simp only [lineInstr, convertAll_fieldOf_toNat, Option.map_some]) (decide_eq_true hlen) rfl

/-! ### The examples that the spec prints (30_encoding section 3) -/

/-- Settles O11: each frame is read by the lemma of its format, the wire byte as the event row's. -/
theorem specExampleWordsDecode : Obligations.SpecExampleWordsDecode := by
  refine ⟨decodeFrame_patMatch _ 0x0F50 0x50, decodeFrame_patSubset _ 0x0750 0x0F50, decodeFrame_translate _ 0x0F30 10,
    decodeFrame_loadEvents _ (es := [⟨0, .identity, 0x0F50⟩, ⟨1, .identity, 0x0750⟩]) (by decide),
    decodeFrame_setHandler _ 2 0xBEEF, decodeFrame_decode _ 151,
    decodeFrame_encodeSend _ 2 (args := [1, 2, 3]) (by decide), ?_⟩
  decide

/-- Settles O52: the lines are read character by character. -/
theorem specExampleLinesAssemble : Obligations.SpecExampleLinesAssemble :=
  ⟨by decide, by decide, by decide, by decide, by decide, by decide, by decide⟩

end Sys2Proof.Machine
end
